-- ==== Sys2Proof/Word.lean ====
section
/-! DEFINITION. The bit-vector words of the block: a byte, a 32-bit data word, a 64-bit command word
(spec 00_scope.md rule R8, 30_encoding.md rule R80). Every value of the block is unsigned. -/

namespace Sys2Proof

/-- One byte of a stream (20_memory.md rule R50). -/
abbrev Byte := BitVec 8

/-- A 32-bit data word: `RESULT`, `CRC`, `COMB`, the `D` field. -/
abbrev Word := BitVec 32

/-- One command, handed over whole by ISSUE (30_encoding.md rules R80 and R87). -/
abbrev CommandWord := BitVec 64

end Sys2Proof
end

