-- ==== Sys2Proof/Config.lean ====
section
/-! DEFINITION. What is fixed when a block is built: the parameters of 00_scope.md rule R4.
The OPEN ones are the fields of `Config`, which a state carries and no command changes, so that a statement about
every state holds for every block (log entry 3). The rest are constants. The legality test of rule R5 stands in
Machine/Canonical.lean, beside the Kraft sum it uses. -/

namespace Sys2Proof

/-- `CRC_VARIANT` of 00_scope.md rule R4: which of the two CRC-32 readings of the source the block was built with
(90_conflicts.md C1). -/
inductive CrcVariant where
  | msbFirst
  | reflected
  deriving DecidableEq, Repr

/-- The OPEN parameters of 00_scope.md rule R4. -/
structure Config where
  /-- `OUT_CAP`, the output FIFO's bytes; `none` is unbounded. -/
  outCap : Option Nat
  /-- `IN_CAP`, the input FIFO's bytes; `none` is unbounded. -/
  inCap : Option Nat
  /-- `CRC_VARIANT`. -/
  crcVariant : CrcVariant
  /-- `FIXED_LEN[0..FIXED_K-1]`, so that `FIXED_K` is the list's length; empty is a block without a fixed table. -/
  fixedLen : List (BitVec 5)
  deriving DecidableEq, Repr

namespace Config

/-- `NMAX`, the most bits of one read or write (00_scope.md rule R4). -/
abbrev nMax : Nat := 32
/-- `NUM_TABLES`, the loadable table slots. -/
abbrev numTables : Nat := 6
/-- `KMAX`, the most symbols of a table. -/
abbrev kMax : Nat := 258
/-- `LMIN`, the shortest code length. -/
abbrev lMin : Nat := 1
/-- `LMAX`, the longest code length. -/
abbrev lMax : Nat := 20
/-- `FIXED_SEL`, the table selector of the fixed table. -/
abbrev fixedSel : Nat := 7
/-- `CRC_INIT`. -/
abbrev crcInit : Word := 0xFFFFFFFF#32
/-- `CRC_XOROUT`. -/
abbrev crcXorOut : Word := 0xFFFFFFFF#32

/-- `FIXED_K`, the fixed table's symbol count. -/
def fixedK (c : Config) : Nat := c.fixedLen.length

/-- The default configuration of 95_test_vectors.md: `MSB_FIRST` (00_scope.md rule R4), FIFOs that never fill, no fixed
table. DESIGN CHOICE (log entry 3): the spec leaves the capacities and the fixed table OPEN. -/
def standard : Config :=
  { outCap := none, inCap := none, crcVariant := .msbFirst, fixedLen := [] }

end Config

end Sys2Proof
end

