-- ==== Sys2Proof/Machine/Canonical.lean ====
section
/-! DEFINITION. The arithmetic of code lengths: the Kraft sum (42_huffman.md rule R171), the canonical assignment
(rule R174), and with them the legality of a configuration (00_scope.md rules R4 and R5). All numbers are exact
naturals; the code RAM narrows a code to its 20 bits where it is stored. -/

namespace Sys2Proof

/-- The Kraft sum scaled by `2^20` (42_huffman.md rule R171). -/
def kraftSum (lens : List Nat) : Nat := (lens.map fun l => 2 ^ (Config.lMax - l)).sum

/-- A code length in [1,20]. -/
def lengthInRange (l : Nat) : Bool := Config.lMin ≤ l && l ≤ Config.lMax

/-- The array is admissible: lengths in [1,20], Kraft sum at most `2^20` (42_huffman.md rule R171). -/
def admissible (lens : List Nat) : Bool := lens.all lengthInRange && kraftSum lens ≤ 2 ^ 20

/-- The inner loop of 42_huffman.md rule R174 for the length `l`: symbols in increasing index order, each of length `l`
taking the next code. Gives the codes and the counter after the loop. -/
def assignLength (l : Nat) : List Nat → List Nat → Nat → List Nat × Nat
  | len :: lens, c :: codes, code =>
    if len = l then
      let r := assignLength l lens codes (code + 1)
      (code :: r.1, r.2)
    else
      let r := assignLength l lens codes code
      (c :: r.1, r.2)
  | _, codes, code => (codes, code)

/-- The outer loop of 42_huffman.md rule R174 over the lengths still to do; the counter doubles after each. -/
def assignLengths (lens : List Nat) : List Nat → List Nat → Nat → List Nat
  | [], codes, _ => codes
  | l :: ls, codes, code =>
    let r := assignLength l lens codes code
    assignLengths lens ls r.1 (r.2 <<< 1)

/-- The canonical codes of a length array (42_huffman.md rule R174), `l = 1 to 20`. -/
def canonical (lens : List Nat) : List Nat :=
  assignLengths lens (List.range' 1 Config.lMax) (lens.map fun _ => 0) 0

namespace Config

/-- The fixed table's lengths as numbers. -/
def fixedLens (c : Config) : List Nat := c.fixedLen.map BitVec.toNat

/-- `FIXED_CODE` (42_huffman.md rule R179): the canonical codes of `FIXED_LEN`. -/
def fixedCodes (c : Config) : List Nat := canonical c.fixedLens

/-- The capacity is at least `n` bytes; an unbounded FIFO's is. -/
def capAtLeast (n : Nat) : Option Nat → Bool
  | none => true
  | some cap => n ≤ cap

/-- The configuration is legal (00_scope.md rules R4 and R5): `OUT_CAP >= 4`, `IN_CAP >= 5`, and a fixed table of at most
258 symbols whose lengths are admissible. -/
def legal (c : Config) : Bool :=
  capAtLeast 4 c.outCap && capAtLeast 5 c.inCap && (c.fixedK ≤ kMax && admissible c.fixedLens)

end Config

end Sys2Proof
end

