-- ==== Sys2Proof/Machine/State.lean ====
section
/-! DEFINITION. The state of the block as plain data: every piece 10_state.md rule R20 lists, under its group, then the
model's own fields (the configuration, the command index, and the host agent), and the state after reset (rule R39). -/

namespace Sys2Proof.Machine

/-- `PORT` (10_state.md rule R21): idle, or holding one command word. -/
inductive Port where
  | idle
  | busy (w : CommandWord)
  deriving DecidableEq, Repr

/-- The Bit Channel writer: `W_ACC`, `W_CNT` (10_state.md rule R27) and the output FIFO `OUT` (rule R28), oldest byte
first. -/
structure Writer where
  acc : BitVec 7
  cnt : Fin 8
  out : List Byte
  deriving DecidableEq, Repr

/-- The Bit Channel reader: the input FIFO `IN`, oldest byte first, `R_POS` (10_state.md rule R29) and `IN_END`
(rule R30). -/
structure Reader where
  bytes : List Byte
  pos : Fin 8
  ended : Bool
  deriving DecidableEq, Repr

/-- One row of table RAM as a list of (symbol, value) pairs in one canonical form (`Ram.wf` of Machine/Ops.lean): symbols
strictly rising, no value 0, since 0 is what an unlisted symbol reads as. -/
abbrev Ram (width : Nat) := List (Nat × BitVec width)

/-- One loadable table: `LEN[t][s]` (10_state.md rule R33), `CODE[t][s]` (rule R34) and `SIZE[t]` (rule R35). -/
structure HuffTable where
  len : Ram 5
  code : Ram 20
  size : BitVec 9
  deriving DecidableEq, Repr

/-- The host's moves (20_memory.md rules R60 to R66). -/
inductive HostMove where
  | push (b : Byte)
  | endOfInput
  | pop
  | issue (w : CommandWord)
  | collect
  | hardReset
  deriving DecidableEq, Repr

/-- Whose turn is next: the two agents of 00_scope.md rule R6 (log entry 1). -/
inductive Turn where
  | block
  | host (m : HostMove)
  deriving DecidableEq, Repr

/-- What one COLLECT reads (20_memory.md rule R64). -/
structure Completion where
  status : BitVec 4
  result : Word
  deriving DecidableEq, Repr

/-- The state of one block, of its configuration, and of the host that drives it. -/
structure State where
  /-- The build parameters (00_scope.md rule R4); no step changes them (log entry 3). -/
  cfg : Config
  /-- `PORT` (10_state.md rule R21). -/
  port : Port
  /-- `STATUS`, 4 bits (10_state.md rule R21). -/
  status : BitVec 4
  /-- `RESULT`, 32 bits (10_state.md rule R21). -/
  result : Word
  /-- `ERR`, 4 bits, sticky (10_state.md rule R26). -/
  err : BitVec 4
  /-- `W_ACC`, `W_CNT`, `OUT` (10_state.md rules R27 and R28). -/
  writer : Writer
  /-- `IN`, `R_POS`, `IN_END` (10_state.md rules R29 and R30). -/
  reader : Reader
  /-- `CRC`, the raw running checksum (10_state.md rule R31). -/
  crc : Word
  /-- `COMB`, the combined stream checksum (10_state.md rule R32). -/
  comb : Word
  /-- The six loadable tables (10_state.md rules R33 to R35). -/
  tables : Vector HuffTable 6
  /-- The model-level command index `CI` (10_state.md rule R22); not block state. -/
  ci : Nat
  /-- The turns still to come, next first; empty leaves every turn to the block (log entry 1). The model's own. -/
  schedule : List Turn
  /-- The bytes the host has popped, oldest first (20_memory.md rule R62; log entry 10). The model's own. -/
  popped : List Byte
  /-- The completions the host has collected, oldest first (20_memory.md rule R64; log entry 10). The model's own. -/
  collected : List Completion
  deriving DecidableEq, Repr

/-- Nothing in the block stops it: each of its errors is a completion after which it goes on (60_exceptions.md rules R230
and R233), and a held command waits for the host (10_state.md rule R24). So no step ends in a fault, and this type has
no constructor. -/
inductive Fault
  deriving DecidableEq, Repr

/-- What the model has no step for. Every one is safe: the model stops where nothing is claimed. -/
inductive Refusal where
  /-- An instruction without a meaning yet, by the table's mnemonic; raised by `exec`'s arms alone. Safe. -/
  | notModelled (mnemonic : String)
  /-- The configuration is no legal block (00_scope.md rule R5, 93_implementation_defined.md row 8); raised by `step`.
  Safe. -/
  | illegalConfiguration
  /-- PUSH while `IN_END = 1` or `IN` is full: the host has no such move (20_memory.md rule R60); raised by `hostMove`.
  Safe. -/
  | pushNotEnabled
  /-- POP while `OUT` is empty: the host has no such move (20_memory.md rule R62); raised by `hostMove`. Safe. -/
  | popNotEnabled
  /-- ISSUE while the port is busy: the host has no such move (20_memory.md rule R63); raised by `hostMove`. Safe. -/
  | issueNotEnabled
  /-- COLLECT while the port is busy: the host has no such move (20_memory.md rule R64); raised by `hostMove`. Safe. -/
  | collectNotEnabled
  deriving DecidableEq, Repr

/-- The outcome of one step. -/
abbrev Result := Host.Outcome State Fault Refusal

/-- The empty writer of 10_state.md rule R39. -/
def Writer.empty : Writer := { acc := 0, cnt := 0, out := [] }

/-- The empty reader of 10_state.md rule R39. -/
def Reader.empty : Reader := { bytes := [], pos := 0, ended := false }

/-- A table after reset (10_state.md rule R39): every length unset, not valid. `CODE` is unspecified there and never
observable; the model's value is 0 (DESIGN CHOICE, log entry 5). -/
def HuffTable.unset : HuffTable := { len := [], code := [], size := 0 }

/-- A block of configuration `c` right after power-on (70_reset_and_hazards.md rule R261, values of 10_state.md rule R39),
driven by a host that has done nothing. -/
def State.powerOn (c : Config) : State :=
  { cfg := c, port := .idle, status := 0#4, result := 0#32, err := 0#4,
    writer := .empty, reader := .empty, crc := Config.crcInit, comb := 0#32,
    tables := Vector.replicate 6 .unset,
    ci := 0, schedule := [], popped := [], collected := [] }

/-- The machine right after reset, in the default configuration (log entry 3). -/
def State.reset : State := State.powerOn Config.standard

end Sys2Proof.Machine
end

