-- ==== Sys2Proof/Machine/Ops.lean ====
section
/-! DEFINITION. The named operations of the block over table RAM, the bit streams, the checksum and the command port, and
how a command ends: performed, held, refused by a sticky error, or finished with an error. The last is the block's only
"trap entry" (60_exceptions.md rule R233), and a reset the only way back (rule R239). -/

namespace Sys2Proof.Machine

/-! ## Table RAM -/

namespace Ram

/-- The value at symbol `k`; an unlisted symbol reads 0, "unset" (10_state.md rules R33 and R39). -/
def read {width : Nat} : Ram width → Nat → BitVec width
  | [], _ => 0
  | (a, x) :: m, k => if a = k then x else read m k

/-- The RAM with `v` at symbol `k`, in canonical form: writing 0 leaves the symbol unlisted. -/
def write {width : Nat} : Ram width → Nat → BitVec width → Ram width
  | [], k, v => if v = 0 then [] else [(k, v)]
  | (a, x) :: m, k, v =>
    if k < a then (if v = 0 then (a, x) :: m else (k, v) :: (a, x) :: m)
    else if k = a then (if v = 0 then m else (k, v) :: m)
    else (a, x) :: write m k v

/-- Write the values to the symbols `k, k+1, ...` in order. -/
def writeAll {width : Nat} : Ram width → Nat → List (BitVec width) → Ram width
  | m, _, [] => m
  | m, k, v :: vs => writeAll (m.write k v) (k + 1) vs

/-- The canonical form: every listed symbol is `lo` or more, strictly rising, below `KMAX`, and holds no 0. -/
def wfFrom {width : Nat} (lo : Nat) : Ram width → Bool
  | [] => true
  | (a, x) :: m => decide (lo ≤ a) && decide (a < Config.kMax) && !(x == 0) && wfFrom (a + 1) m

/-- The canonical form of table RAM (10_state.md rule R20: `s` in 0..257). -/
def wf {width : Nat} (m : Ram width) : Bool := wfFrom 0 m

end Ram

/-- `LEN[t][0..K-1]` as numbers. -/
def HuffTable.lens (T : HuffTable) (k : Nat) : List Nat := (List.range k).map fun s => (T.len.read s).toNat

/-- The state with table `t` replaced. -/
def State.setTable (s : State) (t : Fin 6) (T : HuffTable) : State := { s with tables := s.tables.set t T }

/-! ## Bit writer (20_memory.md rules R50 and R52) -/

namespace Writer

/-- `OutPush(b)`. -/
def outPush (w : Writer) (b : Byte) : Writer := { w with out := w.out ++ [b] }

/-- One turn of the packing loop (40_bit_channel.md rule R113): the bit enters below the pending ones, and the eighth
pending bit makes a byte that is pushed at once. -/
def putBit (w : Writer) (b : Bool) : Writer :=
  let acc8 : Byte := w.acc ++ BitVec.ofBool b
  if h : w.cnt.val + 1 < 8 then { w with acc := acc8.setWidth 7, cnt := ⟨w.cnt.val + 1, h⟩ }
  else { (w.outPush acc8) with acc := 0, cnt := 0 }

/-- `PutBits(m, v)` (40_bit_channel.md rule R113): bits `m-1` down to 0 of `v`. -/
def putBits : Nat → Word → Writer → Writer
  | 0, _, w => w
  | m + 1, v, w => putBits m v (w.putBit (v.getLsbD m))

/-- The byte BW.FLUSH emits: the pending bits high, zeros low (40_bit_channel.md rule R116). -/
def padByte (w : Writer) : Byte := (w.acc.setWidth 8) <<< (8 - w.cnt.val)

/-- The effect of BW.FLUSH (40_bit_channel.md rule R116): nothing when no bit is pending. -/
def flush (w : Writer) : Writer :=
  if w.cnt = 0 then w else { (w.outPush w.padByte) with acc := 0, cnt := 0 }

/-- `BYTES(m) = floor((W_CNT + m) / 8)` (40_bit_channel.md rule R112). -/
def bytesFor (w : Writer) (m : Nat) : Nat := (w.cnt.val + m) / 8

end Writer

/-! ## Bit reader (20_memory.md rule R55) -/

namespace Reader

/-- `AVAIL = 8 * |IN| - R_POS` (40_bit_channel.md rule R118). -/
def avail (r : Reader) : Nat := 8 * r.bytes.length - r.pos.val

/-- `InBit() = head(IN)[7 - R_POS]`. It is asked only of a reader with a bit available (log entry 11). -/
def inBit (r : Reader) : Bool :=
  match r.bytes with
  | [] => false
  | b :: _ => b.getLsbD (7 - r.pos.val)

/-- `InAdvance()`: a byte leaves `IN` when its bit 0 is consumed (00_scope.md rule R9). -/
def inAdvance (r : Reader) : Reader :=
  if h : r.pos.val + 1 < 8 then { r with pos := ⟨r.pos.val + 1, h⟩ }
  else { r with bytes := r.bytes.tail, pos := 0 }

/-- The reading loop of 40_bit_channel.md rule R121: `n` bits into `acc`, the first ending highest. -/
def readBits : Nat → Word → Reader → Word × Reader
  | 0, acc, r => (acc, r)
  | n + 1, acc, r => readBits n ((acc <<< 1) ||| (BitVec.ofBool r.inBit).setWidth 32) r.inAdvance

end Reader

/-! ## Checksum (41_checksum.md) -/

/-- `rotl1_32` (00_scope.md rule R8): bit 31 moves to bit 0. -/
def rotl1 (x : Word) : Word := (x <<< 1) ||| (x >>> 31)

/-- One of the eight turns of the table generation of 41_checksum.md rule R141. -/
def crcShift : CrcVariant → Word → Word
  | .msbFirst, c => if c.msb then (c <<< 1) ^^^ 0x04C11DB7#32 else c <<< 1
  | .reflected, c => if c.getLsbD 0 then (c >>> 1) ^^^ 0xEDB88320#32 else c >>> 1

/-- Where the generation of entry `i` starts. -/
def crcSeed : CrcVariant → Byte → Word
  | .msbFirst, i => (i.setWidth 32) <<< 24
  | .reflected, i => i.setWidth 32

/-- Apply a function `n` times. -/
def iterate {α : Type} (f : α → α) : Nat → α → α
  | 0, x => x
  | n + 1, x => iterate f n (f x)

/-- `CRCT[i]` (41_checksum.md rule R141). The constant table is computed, not stored (log entry 12). -/
def crcTable (v : CrcVariant) (i : Byte) : Word := iterate (crcShift v) 8 (crcSeed v i)

/-- `crc_update(c, b)` (41_checksum.md rule R142). -/
def crcUpdate : CrcVariant → Word → Byte → Word
  | .msbFirst, c, b => (c <<< 8) ^^^ crcTable .msbFirst (c.extractLsb' 24 8 ^^^ b)
  | .reflected, c, b => (c >>> 8) ^^^ crcTable .reflected (c.setWidth 8 ^^^ b)

/-- `block_crc` of the register's raw value (41_checksum.md rule R142). -/
def blockCrcOf (crc : Word) : Word := crc ^^^ Config.crcXorOut

/-- `combine(comb, bc)` (41_checksum.md rule R144). -/
def combine (comb bc : Word) : Word := rotl1 comb ^^^ bc

/-! ## How a command ends -/

/-- `complete()` (00_scope.md rule R9): `STATUS <- OK`, the port idle, and `CI` one further (10_state.md rule R22). -/
def State.complete (s : State) : State := { s with status := 0#4, port := .idle, ci := s.ci + 1 }

/-- `complete(r)`: `RESULT <- r` as well. -/
def State.completeWith (s : State) (r : Word) : State := { s.complete with result := r }

/-- The block's error kinds (60_exceptions.md rule R231). -/
inductive CommandError where
  | malformedInput
  | unexpectedEof
  | crcMismatch
  | invalidConfiguration
  | internalInvariantViolation
  | illegalCommand
  deriving DecidableEq, Repr

/-- The completion code of each kind (60_exceptions.md rule R231); 0 is OK. -/
def CommandError.code : CommandError → BitVec 4
  | .malformedInput => 1
  | .unexpectedEof => 2
  | .crcMismatch => 3
  | .invalidConfiguration => 4
  | .internalInvariantViolation => 5
  | .illegalCommand => 6

/-- Error completion, the block's "trap entry" (60_exceptions.md rule R233): `STATUS` takes the code, the first error is
kept in `ERR`, the port goes idle, and nothing else changes. There is no saved pc or status, no mode, and no handler. -/
def State.raised (s : State) (e : CommandError) : State :=
  { s with status := e.code, err := (if s.err = 0#4 then e.code else s.err), port := .idle, ci := s.ci + 1 }

/-- The way back from an error (60_exceptions.md rule R239): a reset, which restores nothing but sets every piece of block
state to its value of 10_state.md rule R39. The configuration is no block state, and the host's fields are the host's. -/
def State.resetBlock (s : State) : State :=
  { State.powerOn s.cfg with schedule := s.schedule, popped := s.popped, collected := s.collected }

/-- A command turned away while `ERR != 0` (60_exceptions.md rule R234): it completes with `STATUS <- ERR`, `ERR` keeps
its value, and nothing else changes. -/
def State.turnedAway (s : State) : State := { s with status := s.err, port := .idle, ci := s.ci + 1 }

/-- `raise E` (00_scope.md rule R9). -/
def raise (e : CommandError) (s : State) : Result := .next (s.raised e)

/-- `hold` (00_scope.md rule R9, 10_state.md rule R23): nothing changes, and the command stays in the port. -/
def hold (s : State) : Result := .next s

/-- The sticky check, step 1 of 60_exceptions.md rule R236, before the command's own rule `k`. -/
def unlessSticky (s : State) (k : Result) : Result := if s.err = 0#4 then k else .next s.turnedAway

/-! ## Turns -/

/-- The agent whose turn is next, and the state with that turn taken off the schedule (log entry 1). -/
def State.nextTurn (s : State) : Turn × State :=
  match s.schedule with
  | [] => (.block, s)
  | turn :: rest => (turn, { s with schedule := rest })

end Sys2Proof.Machine
end

