-- ==== Sys2Proof/Machine/Flags.lean ====
section
/-! DEFINITION. The conditions a command tests. The block has no condition codes: its one flag is the sticky `ERR`
(10_state.md rule R26), written by `State.raised` and tested by `unlessSticky` of Machine/Ops.lean. Here stand the hold
conditions (60_exceptions.md rule R236, step 7), the `UnexpectedEof` condition, and the enabling conditions of the host's
moves (20_memory.md rules R60 to R64). -/

namespace Sys2Proof.Machine

/-- `n` more bytes do not fit a FIFO of capacity `cap` that holds `held`: `cap - held < n` (40_bit_channel.md rule R112). -/
def lacksRoom (cap : Option Nat) (held n : Nat) : Bool :=
  match cap with
  | none => false
  | some c => c - held < n

/-- The writer hold of a command that writes `m` bits (40_bit_channel.md rule R112). -/
def State.writeHolds (s : State) (m : Nat) : Bool :=
  lacksRoom s.cfg.outCap s.writer.out.length (s.writer.bytesFor m)

/-- The hold of BW.FLUSH (40_bit_channel.md rule R116). -/
def State.flushHolds (s : State) : Bool :=
  s.writer.cnt != 0 && lacksRoom s.cfg.outCap s.writer.out.length 1

/-- A read of `n` bits finds too few (40_bit_channel.md rule R118). -/
def State.readShort (s : State) (n : Nat) : Bool := s.reader.avail < n

/-- PUSH is enabled (20_memory.md rule R60). -/
def State.pushEnabled (s : State) : Bool :=
  !s.reader.ended && !lacksRoom s.cfg.inCap s.reader.bytes.length 1

/-- ISSUE and COLLECT are enabled (20_memory.md rules R63 and R64). -/
def State.portIdle (s : State) : Bool := s.port == .idle

end Sys2Proof.Machine
end

