-- ==== Sys2Proof/Machine/BitChannel.lean ====
section
/-! DEFINITION. The Bit Channel commands (40_bit_channel.md), each with its checks in the order of 60_exceptions.md rule
R236. -/

namespace Sys2Proof.Machine

/-- BW.WRITE (40_bit_channel.md rule R111). -/
def execBwWrite (n : BitVec 8) (v : Word) (s : State) : Result :=
  unlessSticky s <|
    if Config.nMax < n.toNat then raise .illegalCommand s
    else if s.writeHolds n.toNat then hold s
    else .next { s with writer := s.writer.putBits n.toNat v }.complete

/-- BW.FLUSH (40_bit_channel.md rule R116). -/
def execBwFlush (s : State) : Result :=
  unlessSticky s <|
    if s.flushHolds then hold s
    else .next { s with writer := s.writer.flush }.complete

/-- BR.READ (40_bit_channel.md rules R120 and R121). -/
def execBrRead (n : BitVec 8) (s : State) : Result :=
  unlessSticky s <|
    if Config.nMax < n.toNat then raise .illegalCommand s
    else if s.readShort n.toNat then
      (if s.reader.ended then raise .unexpectedEof s else hold s)
    else
      let r := s.reader.readBits n.toNat 0
      .next ({ s with reader := r.2 }.completeWith r.1)

end Sys2Proof.Machine
end

