-- ==== Sys2Proof/Machine/Checksum.lean ====
section
/-! DEFINITION. The Checksum Engine commands (41_checksum.md). They never hold. -/

namespace Sys2Proof.Machine

/-- Finish the block: combine its checksum into the stream's, start the next block, and return the checksum; shared by
CRC.END and a matching CRC.CHKB (41_checksum.md rules R146 and R147). -/
def State.finishBlock (s : State) : State :=
  { s with comb := combine s.comb (blockCrcOf s.crc), crc := Config.crcInit }.completeWith (blockCrcOf s.crc)

/-- CRC.INIT (41_checksum.md rule R143). -/
def execCrcInit (s : State) : Result :=
  unlessSticky s (.next { s with crc := Config.crcInit }.complete)

/-- CRC.BYTE (41_checksum.md rule R145). -/
def execCrcByte (b : Byte) (s : State) : Result :=
  unlessSticky s (.next { s with crc := crcUpdate s.cfg.crcVariant s.crc b }.complete)

/-- CRC.END (41_checksum.md rule R146). -/
def execCrcEnd (s : State) : Result := unlessSticky s (.next s.finishBlock)

/-- CRC.CHKB (41_checksum.md rule R147). -/
def execCrcChkb (x : Word) (s : State) : Result :=
  unlessSticky s <|
    if blockCrcOf s.crc = x then .next s.finishBlock else raise .crcMismatch s

/-- CRC.SINIT (41_checksum.md rule R148). -/
def execCrcSinit (s : State) : Result := unlessSticky s (.next { s with comb := 0#32 }.complete)

/-- CRC.CHKS (41_checksum.md rule R149). -/
def execCrcChks (x : Word) (s : State) : Result :=
  unlessSticky s <|
    if s.comb = x then .next (s.completeWith s.comb) else raise .crcMismatch s

end Sys2Proof.Machine
end

