-- ==== Sys2Proof/Syntax.lean ====
section
/-! DEFINITION. The commands of command set BCH-1 as syntax: one constructor per row of spec/opcode_table.json
(30_encoding.md rule R83). A constructor carries the operands its format gives the command (rules R81 and R82), each at
the width of the field it is read from, and neither the fields that must be zero nor the bits of `D` that are
ignored (rule R84; log entry 8). -/

namespace Sys2Proof

/-- One command of 30_encoding.md rule R83, with its operands. -/
inductive Instr where
  /-- NOP (43_control.md rule R210). -/
  | nop
  /-- BW.WRITE `n, v` (40_bit_channel.md rule R111); `v` is the whole of `D`, of which the low `n` bits are written. -/
  | bwWrite (n : BitVec 8) (v : Word)
  /-- BW.FLUSH (40_bit_channel.md rule R116). -/
  | bwFlush
  /-- BR.READ `n` (40_bit_channel.md rule R120). -/
  | brRead (n : BitVec 8)
  /-- CRC.INIT (41_checksum.md rule R143). -/
  | crcInit
  /-- CRC.BYTE `b` (41_checksum.md rule R145). -/
  | crcByte (b : Byte)
  /-- CRC.END (41_checksum.md rule R146). -/
  | crcEnd
  /-- CRC.CHKB `x` (41_checksum.md rule R147). -/
  | crcChkb (x : Word)
  /-- CRC.SINIT (41_checksum.md rule R148). -/
  | crcSinit
  /-- CRC.CHKS `x` (41_checksum.md rule R149). -/
  | crcChks (x : Word)
  /-- HT.SETLEN `t, s, L` (42_huffman.md rule R172). -/
  | htSetlen (t : BitVec 8) (s : BitVec 16) (l : BitVec 8)
  /-- HT.BUILD `t, K` (42_huffman.md rule R176). -/
  | htBuild (t : BitVec 8) (k : BitVec 16)
  /-- HT.ENC `t, s` (42_huffman.md rule R181). -/
  | htEnc (t : BitVec 8) (s : BitVec 16)
  /-- HT.RDCODE `t, s` (42_huffman.md rule R183). -/
  | htRdcode (t : BitVec 8) (s : BitVec 16)
  /-- RD.REG `r` (43_control.md rule R211). -/
  | rdReg (r : BitVec 16)
  /-- RESET (43_control.md rule R213). -/
  | reset
  deriving DecidableEq, Repr

end Sys2Proof
end

