-- ==== Sys2Proof/Decode.lean ====
section
/-! DEFINITION. The command word (30_encoding.md): its fields, its formats, the decoder, and after it the encoder.
The decoder is total: every 64-bit word is a command or is rejected by name (rules R84 and R85). A rejected word is
not refused by the machine: Machine/Control.lean completes it with `IllegalCommand`. -/

namespace Sys2Proof

/-! ## Fields (rule R80) -/

/-- `OPC = w[63:56]`. -/
def opcField (w : CommandWord) : BitVec 8 := w.extractLsb' 56 8
/-- `A = w[55:48]`. -/
def aField (w : CommandWord) : BitVec 8 := w.extractLsb' 48 8
/-- `B = w[47:32]`. -/
def bField (w : CommandWord) : BitVec 16 := w.extractLsb' 32 16
/-- `D = w[31:0]`. -/
def dField (w : CommandWord) : Word := w.extractLsb' 0 32

/-- The command word `OO_AA_BBBB_DDDDDDDD` with the given fields. -/
def ofFields (opc a : BitVec 8) (b : BitVec 16) (d : Word) : CommandWord := opc ++ a ++ b ++ d

/-! ## Formats (rule R82) -/

/-- The six formats. -/
inductive Format where
  | z | zd | n | ts | tk | r
  deriving DecidableEq, Repr

/-- The fields the format marks "must be 0" are zero (rule R84). -/
def Format.reservedClear : Format → BitVec 8 → BitVec 16 → Bool
  | .z, a, b => a == 0#8 && b == 0#16
  | .zd, a, b => a == 0#8 && b == 0#16
  | .n, _, b => b == 0#16
  | .ts, _, _ => true
  | .tk, _, _ => true
  | .r, a, _ => a == 0#8

/-! ## Opcode map (rule R83) -/

/-- The row of the opcode map an `OPC` selects: its format, and the command made from `A`, `B` and `D`.
The low byte of `D` is the operand of CRC.BYTE and the length of HT.SETLEN (rule R81). -/
def opcodeRow (opc : BitVec 8) : Option (Format × (BitVec 8 → BitVec 16 → Word → Instr)) :=
  match opc.toNat with
  | 0x00 => some (.z, fun _ _ _ => .nop)
  | 0x01 => some (.n, fun a _ d => .bwWrite a d)
  | 0x02 => some (.z, fun _ _ _ => .bwFlush)
  | 0x03 => some (.n, fun a _ _ => .brRead a)
  | 0x10 => some (.z, fun _ _ _ => .crcInit)
  | 0x11 => some (.zd, fun _ _ d => .crcByte (d.setWidth 8))
  | 0x12 => some (.z, fun _ _ _ => .crcEnd)
  | 0x13 => some (.zd, fun _ _ d => .crcChkb d)
  | 0x14 => some (.z, fun _ _ _ => .crcSinit)
  | 0x15 => some (.zd, fun _ _ d => .crcChks d)
  | 0x20 => some (.ts, fun a b d => .htSetlen a b (d.setWidth 8))
  | 0x21 => some (.tk, fun a b _ => .htBuild a b)
  | 0x22 => some (.ts, fun a b _ => .htEnc a b)
  | 0x23 => some (.ts, fun a b _ => .htRdcode a b)
  | 0x30 => some (.r, fun _ b _ => .rdReg b)
  | 0x3F => some (.z, fun _ _ _ => .reset)
  | _ => none

/-! ## Decoder -/

/-- Why a word is no command. Both reasons end in `IllegalCommand` (60_exceptions.md rule R232(a) and (b)); the opcode is
kept because the sticky check of rule R236 looks at it first. -/
inductive DecodeError where
  /-- `OPC` is not in the opcode map (30_encoding.md rule R85). -/
  | illegalOpcode (opc : BitVec 8)
  /-- A field the format marks "must be 0" is not 0 (30_encoding.md rule R84). -/
  | reservedField (opc : BitVec 8)
  deriving DecidableEq, Repr

/-- What a word decodes to. -/
inductive Decoded where
  | instr (i : Instr)
  | reject (e : DecodeError)
  deriving DecidableEq, Repr

/-- Decode one command word (30_encoding.md rules R80 to R85). -/
def decode (w : CommandWord) : Decoded :=
  match opcodeRow (opcField w) with
  | none => .reject (.illegalOpcode (opcField w))
  | some (fmt, make) =>
    if fmt.reservedClear (aField w) (bField w) then .instr (make (aField w) (bField w) (dField w))
    else .reject (.reservedField (opcField w))

/-- The instruction of a decoded word, if it is one. -/
def Decoded.instr? : Decoded → Option Instr
  | .instr i => some i
  | .reject _ => none

/-- A word of spec/opcode_table.json, whose rows are one 64-bit number with bit 0 its least significant bit, as a command
word: the bits from `nbits` up are zero. The block takes the word whole, so there is no byte order to apply
(30_encoding.md rule R80). -/
def tableWord (nbits w : Nat) : CommandWord := BitVec.ofNat 64 (w % 2 ^ nbits)

/-- The instruction the decoder reads from a word numbered as the opcode table numbers it. -/
def decodeTableWord (nbits w : Nat) : Option Instr := (decode (tableWord nbits w)).instr?

/-! ## Encoder -/

/-- `OPC` of each command (rule R83). -/
def Instr.opcode : Instr → BitVec 8
  | .nop => 0x00
  | .bwWrite _ _ => 0x01
  | .bwFlush => 0x02
  | .brRead _ => 0x03
  | .crcInit => 0x10
  | .crcByte _ => 0x11
  | .crcEnd => 0x12
  | .crcChkb _ => 0x13
  | .crcSinit => 0x14
  | .crcChks _ => 0x15
  | .htSetlen _ _ _ => 0x20
  | .htBuild _ _ => 0x21
  | .htEnc _ _ => 0x22
  | .htRdcode _ _ => 0x23
  | .rdReg _ => 0x30
  | .reset => 0x3F

/-- The command word of a command, with its reserved fields and its unused `D` bits 0 (rules R82 and R88). -/
def encode (i : Instr) : CommandWord :=
  match i with
  | .nop => ofFields i.opcode 0 0 0
  | .bwWrite n v => ofFields i.opcode n 0 v
  | .bwFlush => ofFields i.opcode 0 0 0
  | .brRead n => ofFields i.opcode n 0 0
  | .crcInit => ofFields i.opcode 0 0 0
  | .crcByte b => ofFields i.opcode 0 0 (b.setWidth 32)
  | .crcEnd => ofFields i.opcode 0 0 0
  | .crcChkb x => ofFields i.opcode 0 0 x
  | .crcSinit => ofFields i.opcode 0 0 0
  | .crcChks x => ofFields i.opcode 0 0 x
  | .htSetlen t s l => ofFields i.opcode t s (l.setWidth 32)
  | .htBuild t k => ofFields i.opcode t k 0
  | .htEnc t s => ofFields i.opcode t s 0
  | .htRdcode t s => ofFields i.opcode t s 0
  | .rdReg r => ofFields i.opcode 0 r 0
  | .reset => ofFields i.opcode 0 0 0

/-- The bits of a command word that its meaning can depend on: all but the bits of `D` that rule R84 says are ignored.
BW.WRITE uses all of `D` here; that it writes the low `n` bits only is its meaning's. -/
def usedBits : Instr → CommandWord
  | .bwWrite _ _ => 0xFFFFFFFF_FFFFFFFF
  | .crcChkb _ => 0xFFFFFFFF_FFFFFFFF
  | .crcChks _ => 0xFFFFFFFF_FFFFFFFF
  | .crcByte _ => 0xFFFFFFFF_000000FF
  | .htSetlen _ _ _ => 0xFFFFFFFF_000000FF
  | .nop => 0xFFFFFFFF_00000000
  | .bwFlush => 0xFFFFFFFF_00000000
  | .brRead _ => 0xFFFFFFFF_00000000
  | .crcInit => 0xFFFFFFFF_00000000
  | .crcEnd => 0xFFFFFFFF_00000000
  | .crcSinit => 0xFFFFFFFF_00000000
  | .htBuild _ _ => 0xFFFFFFFF_00000000
  | .htEnc _ _ => 0xFFFFFFFF_00000000
  | .htRdcode _ _ => 0xFFFFFFFF_00000000
  | .rdReg _ => 0xFFFFFFFF_00000000
  | .reset => 0xFFFFFFFF_00000000

end Sys2Proof
end

