-- ==== Sys2Proof/Machine/Operands.lean ====
section
/-! DEFINITION. What an operand of a command names in the state: a loadable table, a symbol's length and code
(`LOOKUP`, 42_huffman.md rule R180), a register of the map (10_state.md rule R37). -/

namespace Sys2Proof.Machine

/-- The loadable table a selector names, if `t <= 5`. -/
def loadable (t : BitVec 8) : Option (Fin 6) := if h : t.toNat < 6 then some ⟨t.toNat, h⟩ else none

/-- A symbol of a loadable table: its length and code, or nothing where the table is not valid or does not hold the symbol
(42_huffman.md rule R180, first case). A symbol above 257 is in no table. -/
def HuffTable.lookup (T : HuffTable) (s : BitVec 16) : Option (BitVec 5 × BitVec 20) :=
  if s.toNat < T.size.toNat then
    (if s.toNat < Config.kMax then some (T.len.read s.toNat, T.code.read s.toNat) else none)
  else none

/-- A symbol of the fixed table (42_huffman.md rules R179 and R180, second case). -/
def fixedLookup (c : Config) (s : BitVec 16) : Option (BitVec 5 × BitVec 20) :=
  match c.fixedLen[s.toNat]?, c.fixedCodes[s.toNat]? with
  | some l, some code => some (l, BitVec.ofNat 20 code)
  | _, _ => none

/-- `LOOKUP(t, s)` (42_huffman.md rule R180); nothing where it raises `InternalInvariantViolation`. -/
def State.lookup (st : State) (t : BitVec 8) (s : BitVec 16) : Option (BitVec 5 × BitVec 20) :=
  match loadable t with
  | some i => st.tables[i].lookup s
  | none => if t.toNat = Config.fixedSel then fixedLookup st.cfg s else none

/-- A count as a register field of 16 bits, saturating (10_state.md rule R37, `IN_COUNT` and `OUT_COUNT`). -/
def countField (n : Nat) : Word := BitVec.ofNat 32 (min n 65535)

/-- A flag as a 32-bit value. -/
def bit (b : Bool) : Word := (BitVec.ofBool b).setWidth 32

/-- Bit `t` of `TVALID`: table `t` is valid (10_state.md rules R35 and R37). -/
def State.validBit (s : State) (t : Fin 6) : Word := bit (s.tables[t].size != 0#9) <<< t.val

/-- `PARAM.CRCV` (10_state.md rule R37). -/
def crcvBit : CrcVariant → Word
  | .msbFirst => 0
  | .reflected => 1

/-- `REG(r)`, the register map of 10_state.md rule R37; nothing for a reserved number. -/
def State.register (s : State) (r : BitVec 16) : Option Word :=
  match r.toNat with
  | 0 => some (s.err.setWidth 32 ||| bit s.reader.ended <<< 8)
  | 1 => some (BitVec.ofNat 32 s.writer.cnt.val ||| s.writer.acc.setWidth 32 <<< 8)
  | 2 => some (BitVec.ofNat 32 s.reader.pos.val ||| countField s.reader.bytes.length <<< 16)
  | 3 => some s.crc
  | 4 => some s.comb
  | 5 => some (countField s.writer.out.length <<< 16)
  | 6 => some (s.validBit 0 ||| s.validBit 1 ||| s.validBit 2 ||| s.validBit 3 ||| s.validBit 4 ||| s.validBit 5
      ||| bit (decide (0 < s.cfg.fixedK)) <<< 7)
  | 7 => some (BitVec.ofNat 32 Config.nMax ||| BitVec.ofNat 32 Config.numTables <<< 8
      ||| BitVec.ofNat 32 Config.lMax <<< 16 ||| crcvBit s.cfg.crcVariant <<< 24)
  | 8 => some (s.tables[0].size.setWidth 32)
  | 9 => some (s.tables[1].size.setWidth 32)
  | 10 => some (s.tables[2].size.setWidth 32)
  | 11 => some (s.tables[3].size.setWidth 32)
  | 12 => some (s.tables[4].size.setWidth 32)
  | 13 => some (s.tables[5].size.setWidth 32)
  | 15 => some (BitVec.ofNat 32 s.cfg.fixedK)
  | _ => none

/-- What HT.RDCODE returns: the length in [28:24], the code in [19:0] (42_huffman.md rule R183). -/
def codeWord (l : BitVec 5) (c : BitVec 20) : Word := l.setWidth 32 <<< 24 ||| c.setWidth 32

end Sys2Proof.Machine
end

