-- ==== Sys2Proof/Machine/Control.lean ====
section
/-! DEFINITION. The control commands NOP, RD.REG and RESET (43_control.md), and the completion of a word that is no
command (60_exceptions.md rules R232 and R236). -/

namespace Sys2Proof.Machine

/-- NOP (43_control.md rule R210). -/
def execNop (s : State) : Result := unlessSticky s (.next s.complete)

/-- RD.REG (43_control.md rule R211), performed even while `ERR != 0`. -/
def execRdReg (r : BitVec 16) (s : State) : Result :=
  match s.register r with
  | some v => .next (s.completeWith v)
  | none => raise .illegalCommand s

/-- RESET (43_control.md rule R213), performed even while `ERR != 0`. -/
def execReset (s : State) : Result := .next s.resetBlock

/-- RD.REG and RESET are the two commands the sticky check passes over (60_exceptions.md rule R236, step 1). -/
def passesSticky (opc : BitVec 8) : Bool := opc == 0x30#8 || opc == 0x3F#8

/-- A word the decoder rejects completes with `IllegalCommand` (60_exceptions.md rule R232(a) and (b)), after the sticky
check where its opcode is subject to it (rule R234, 43_control.md rules R212(e) and R214). -/
def rejectWord (e : DecodeError) (s : State) : Result :=
  match e with
  | .illegalOpcode _ => unlessSticky s (raise .illegalCommand s)
  | .reservedField opc =>
    if passesSticky opc then raise .illegalCommand s else unlessSticky s (raise .illegalCommand s)

end Sys2Proof.Machine
end

