-- ==== Sys2Proof/Machine/Ranges.lean ====
section
/-! DEFINITION. The legal ranges of the operands (30_encoding.md rule R81), each as a check on the operand alone. WellFormed.lean
puts them together for a command's syntax, and the meanings test those their rules name (30_encoding.md rule R86). -/

namespace Sys2Proof

/-- `n` is 0..32. -/
def legalBitCount (n : BitVec 8) : Bool := n.toNat ≤ Config.nMax

/-- `t` is 0..5, a loadable table. -/
def legalLoadable (t : BitVec 8) : Bool := t.toNat < Config.numTables

/-- `t` is 0..5, or 7 for the fixed table. -/
def legalSelector (t : BitVec 8) : Bool := legalLoadable t || t.toNat == Config.fixedSel

/-- `s` is 0..257. -/
def legalSymbol (s : BitVec 16) : Bool := s.toNat < Config.kMax

/-- `K` is 1..258. -/
def legalCount (k : BitVec 16) : Bool := 1 ≤ k.toNat && k.toNat ≤ Config.kMax

/-- `L` is 1..20. -/
def legalLength (l : BitVec 8) : Bool := Config.lMin ≤ l.toNat && l.toNat ≤ Config.lMax

/-- `r` is 0..13 or 15. -/
def legalRegister (r : BitVec 16) : Bool := r.toNat ≤ 13 || r.toNat == 15

end Sys2Proof
end

