-- ==== Sys2Proof/Machine/Huffman.lean ====
section
/-! DEFINITION. The canonical Huffman encoder commands (42_huffman.md), each with its checks in the order its rule gives. -/

namespace Sys2Proof.Machine

/-- HT.SETLEN (42_huffman.md rule R172). -/
def execHtSetlen (t : BitVec 8) (s : BitVec 16) (l : BitVec 8) (st : State) : Result :=
  unlessSticky st <|
    match loadable t with
    | none => raise .internalInvariantViolation st
    | some i =>
      if !legalSymbol s then raise .internalInvariantViolation st
      else if !legalLength l then raise .malformedInput st
      else
        let T := st.tables[i]
        .next (st.setTable i { T with len := T.len.write s.toNat (l.setWidth 5), size := 0 }).complete

/-- The checks of HT.BUILD on table `T` and count `k` after the selector's (42_huffman.md rule R176): `K` in [1,258], no
unset length among the first `K`, Kraft sum at most `2^20`. -/
def HuffTable.buildable (T : HuffTable) (k : BitVec 16) : Bool :=
  legalCount k && ((T.lens k.toNat).all (· ≠ 0) && kraftSum (T.lens k.toNat) ≤ 2 ^ 20)

/-- The table HT.BUILD leaves: the canonical codes of its first `K` lengths, and `SIZE[t] <- K` (42_huffman.md rule R176). -/
def HuffTable.built (T : HuffTable) (k : BitVec 16) : HuffTable :=
  { T with
    code := T.code.writeAll 0 ((canonical (T.lens k.toNat)).map (BitVec.ofNat 20))
    size := k.setWidth 9 }

/-- HT.BUILD (42_huffman.md rule R176). -/
def execHtBuild (t : BitVec 8) (k : BitVec 16) (st : State) : Result :=
  unlessSticky st <|
    match loadable t with
    | none => raise .internalInvariantViolation st
    | some i =>
      if st.tables[i].buildable k then .next (st.setTable i (st.tables[i].built k)).complete
      else raise .malformedInput st

/-- HT.ENC (42_huffman.md rule R181). -/
def execHtEnc (t : BitVec 8) (s : BitVec 16) (st : State) : Result :=
  unlessSticky st <|
    match st.lookup t s with
    | none => raise .internalInvariantViolation st
    | some (l, c) =>
      if st.writeHolds l.toNat then hold st
      else .next { st with writer := st.writer.putBits l.toNat (c.setWidth 32) }.complete

/-- HT.RDCODE (42_huffman.md rule R183). -/
def execHtRdcode (t : BitVec 8) (s : BitVec 16) (st : State) : Result :=
  unlessSticky st <|
    match st.lookup t s with
    | none => raise .internalInvariantViolation st
    | some (l, c) => .next (st.completeWith (codeWord l c))

end Sys2Proof.Machine
end

