-- ==== Sys2Proof/Machine/Dispatch.lean ====
section
/-! DEFINITION. The meaning of each command, one arm per constructor. -/

namespace Sys2Proof.Machine

def exec (i : Instr) (s : State) : Host.Outcome State Fault Refusal :=
  match i with
  | .nop => Sys2Proof.Machine.execNop s
  | .bwWrite n v => Sys2Proof.Machine.execBwWrite n v s
  | .bwFlush => Sys2Proof.Machine.execBwFlush s
  | .brRead n => Sys2Proof.Machine.execBrRead n s
  | .crcInit => Sys2Proof.Machine.execCrcInit s
  | .crcByte b => Sys2Proof.Machine.execCrcByte b s
  | .crcEnd => Sys2Proof.Machine.execCrcEnd s
  | .crcChkb x => Sys2Proof.Machine.execCrcChkb x s
  | .crcSinit => Sys2Proof.Machine.execCrcSinit s
  | .crcChks x => Sys2Proof.Machine.execCrcChks x s
  | .htSetlen t k l => Sys2Proof.Machine.execHtSetlen t k l s
  | .htBuild t k => Sys2Proof.Machine.execHtBuild t k s
  | .htEnc t k => Sys2Proof.Machine.execHtEnc t k s
  | .htRdcode t k => Sys2Proof.Machine.execHtRdcode t k s
  | .rdReg r => Sys2Proof.Machine.execRdReg r s
  | .reset => Sys2Proof.Machine.execReset s

end Sys2Proof.Machine
end

