-- ==== Sys2Proof/Machine/HostPort.lean ====
section
/-! DEFINITION. The host agent's moves on the block (20_memory.md rules R60 to R66). A move that is not enabled is no move
of the host (93_implementation_defined.md row 21 for PUSH, POP and ISSUE; inferred for COLLECT from rule R64): it is refused
by name (DEDUCED, log entry 6). What a move returns to the host is kept in the host's own fields (log entry 10). -/

namespace Sys2Proof.Machine

/-- PUSH(b) (20_memory.md rule R60). -/
def hostPush (b : Byte) (s : State) : Result :=
  if s.pushEnabled then .next { s with reader := { s.reader with bytes := s.reader.bytes ++ [b] } }
  else .refused .pushNotEnabled

/-- END (20_memory.md rule R61). -/
def hostEnd (s : State) : Result := .next { s with reader := { s.reader with ended := true } }

/-- POP (20_memory.md rule R62). -/
def hostPop (s : State) : Result :=
  match s.writer.out with
  | [] => .refused .popNotEnabled
  | b :: rest => .next { s with writer := { s.writer with out := rest }, popped := s.popped ++ [b] }

/-- ISSUE(w) (20_memory.md rule R63). -/
def hostIssue (w : CommandWord) (s : State) : Result :=
  if s.portIdle then .next { s with port := .busy w } else .refused .issueNotEnabled

/-- COLLECT (20_memory.md rule R64): it changes nothing of the block. -/
def hostCollect (s : State) : Result :=
  if s.portIdle then .next { s with collected := s.collected ++ [{ status := s.status, result := s.result }] }
  else .refused .collectNotEnabled

/-- RESET, the hardware reset (20_memory.md rule R66); a command in the port is discarded. -/
def hostReset (s : State) : Result := .next s.resetBlock

/-- One move of the host. -/
def hostMove : HostMove → State → Result
  | .push b, s => hostPush b s
  | .endOfInput, s => hostEnd s
  | .pop, s => hostPop s
  | .issue w, s => hostIssue w s
  | .collect, s => hostCollect s
  | .hardReset, s => hostReset s

end Sys2Proof.Machine
end

