-- ==== Sys2Proof/Machine/Step.lean ====
section
/-! DEFINITION. One step of the machine: one turn of one agent (10_state.md rule R23, 20_memory.md section 3; log entries 1
and 2), and how a test places the next command. -/

namespace Sys2Proof.Machine

/-- The block's turn (10_state.md rule R23): the command in the port is evaluated; an idle port leaves it waiting. -/
def blockTurn (s : State) : Result :=
  match s.port with
  | .idle => .next s
  | .busy w =>
    match decode w with
    | .instr i => exec i s
    | .reject e => rejectWord e s

/-- One step: the next turn of the schedule, which is the block's where the schedule is empty. An illegal configuration is
no block (00_scope.md rule R5). -/
def step (s : State) : Host.Outcome State Fault Refusal :=
  if s.cfg.legal then
    match s.nextTurn with
    | (.host m, s') => hostMove m s'
    | (.block, s') => blockTurn s'
  else .refused .illegalConfiguration

/-- `s` with the word in the port and the block to move, as the host's ISSUE leaves it (20_memory.md rule R63; log
entry 7). -/
def State.withFetchWord (s : State) (nbits w : Nat) : State :=
  { s with port := .busy (tableWord nbits w), schedule := .block :: s.schedule }

end Sys2Proof.Machine
end

