-- ==== Sys2Proof/Machine/Assembler.lean ====
section
/-! DEFINITION. The assembler's lines and the pseudo-commands (30_encoding.md rules R88 and R89), as data: a line is a
mnemonic with its operands as numbers (log entry 13: the text of a line is not modelled). -/

namespace Sys2Proof

/-- One line: a command of rule R88 or a pseudo-command of rule R89, operands as written. -/
inductive AsmLine where
  | nop
  | bwWrite (n v : Nat)
  | bwFlush
  | brRead (n : Nat)
  | crcInit
  | crcByte (b : Nat)
  | crcEnd
  | crcChkb (x : Nat)
  | crcSinit
  | crcChks (x : Nat)
  | htSetlen (t s l : Nat)
  | htBuild (t k : Nat)
  | htEnc (t s : Nat)
  | htRdcode (t s : Nat)
  | rdReg (r : Nat)
  | reset
  | bwBit (b : Nat)
  | bwByte (b : Nat)
  | bwWritew (n v : Nat)
  | brReadw (n : Nat)
  | crcBytes (bs : List Nat)
  | htLoad (t : Nat) (ls : List Nat)
  | bwZeros (n : Nat)
  deriving DecidableEq, Repr

/-- An operand that fits its field of `width` bits (rule R88: the assembler refuses any other). -/
def asmField (width v : Nat) : Option (BitVec width) := if v < 2 ^ width then some (BitVec.ofNat width v) else none

/-- BW.WRITE's line: `n` fits `A`, `v` fits `D` and is no wider than `n` bits (rule R88). -/
def asmWrite (n v : Nat) : Option Instr :=
  if v < 2 ^ n then (asmField 8 n).bind fun a => (asmField 32 v).map fun d => .bwWrite a d else none

/-- CRC.BYTE's line. -/
def asmCrcByte (b : Nat) : Option Instr := (asmField 8 b).map .crcByte

/-- HT.SETLEN's line. -/
def asmSetlen (t s l : Nat) : Option Instr :=
  (asmField 8 t).bind fun t => (asmField 16 s).bind fun s => (asmField 8 l).map fun l => .htSetlen t s l

/-- HT.BUILD's line. -/
def asmBuild (t k : Nat) : Option Instr :=
  (asmField 8 t).bind fun t => (asmField 16 k).map fun k => .htBuild t k

/-- The HT.SETLEN lines of HT.LOAD, from symbol `s` on (rule R89). -/
def asmSetlens (t : Nat) : Nat → List Nat → Option (List Instr)
  | _, [] => some []
  | s, l :: ls => (asmSetlen t s l).bind fun i => (asmSetlens t (s + 1) ls).map fun is => i :: is

/-- The CRC.BYTE lines of CRC.BYTES (rule R89). -/
def asmCrcBytes : List Nat → Option (List Instr)
  | [] => some []
  | b :: bs => (asmCrcByte b).bind fun i => (asmCrcBytes bs).map fun is => i :: is

/-- The width of a double field: 33 to 64 bits (rule R89, BW.WRITEW and BR.READW). -/
def asmWide (n : Nat) : Bool := 33 ≤ n && n ≤ 64

/-- The commands a line stands for; nothing where the assembler refuses it (rules R88 and R89). -/
def assemble : AsmLine → Option (List Instr)
  | .nop => some [.nop]
  | .bwWrite n v => (asmWrite n v).map fun i => [i]
  | .bwFlush => some [.bwFlush]
  | .brRead n => (asmField 8 n).map fun n => [.brRead n]
  | .crcInit => some [.crcInit]
  | .crcByte b => (asmCrcByte b).map fun i => [i]
  | .crcEnd => some [.crcEnd]
  | .crcChkb x => (asmField 32 x).map fun x => [.crcChkb x]
  | .crcSinit => some [.crcSinit]
  | .crcChks x => (asmField 32 x).map fun x => [.crcChks x]
  | .htSetlen t s l => (asmSetlen t s l).map fun i => [i]
  | .htBuild t k => (asmBuild t k).map fun i => [i]
  | .htEnc t s => (asmField 8 t).bind fun t => (asmField 16 s).map fun s => [.htEnc t s]
  | .htRdcode t s => (asmField 8 t).bind fun t => (asmField 16 s).map fun s => [.htRdcode t s]
  | .rdReg r => (asmField 16 r).map fun r => [.rdReg r]
  | .reset => some [.reset]
  | .bwBit b => (asmWrite 1 b).map fun i => [i]
  | .bwByte b => (asmWrite 8 b).map fun i => [i]
  | .bwWritew n v =>
    if asmWide n then
      (asmWrite (n - 32) (v / 2 ^ 32)).bind fun hi => (asmWrite 32 (v % 2 ^ 32)).map fun lo => [hi, lo]
    else none
  | .brReadw n =>
    if asmWide n then (asmField 8 (n - 32)).bind fun hi => (asmField 8 32).map fun lo => [.brRead hi, .brRead lo]
    else none
  | .crcBytes bs => asmCrcBytes bs
  | .htLoad t ls => (asmSetlens t 0 ls).bind fun is => (asmBuild t ls.length).map fun b => is ++ [b]
  | .bwZeros n => if n ≤ 32 then (asmWrite n 0).map fun i => [i] else none

end Sys2Proof
end

