-- ==== Sys2Proof/Safety.lean ====
section
/-! DEFINITION. The terms the statements are made in: bit streams as lists of bits (20_memory.md rules R50, R52, R55), the
invariant of 10_state.md rule R40 (a run is safe when every state of it has it), a block's turn, and a sequence of commands
issued one after another. -/

namespace Sys2Proof.Machine

/-! ## Streams -/

/-- The bits of a field of `n` bits with value `v`, first in the stream first: `v[n-1], ..., v[0]`
(20_memory.md rule R50(a)). -/
def fieldBits (n v : Nat) : List Bool := (List.range n).map fun i => v.testBit (n - 1 - i)

/-- The bits of a sequence of bytes, each from bit 7 down to bit 0 (20_memory.md rule R50(b)). -/
def bytesBits (bs : List Byte) : List Bool := bs.flatMap fun b => fieldBits 8 b.toNat

/-- The bits the writer holds: the bytes of `OUT`, then the pending bits, oldest first (20_memory.md rule R52). -/
def Writer.stream (w : Writer) : List Bool := bytesBits w.out ++ fieldBits w.cnt.val w.acc.toNat

/-- The unread bits of the input, in the order they are read (20_memory.md rule R55). -/
def Reader.unread (r : Reader) : List Bool := (bytesBits r.bytes).drop r.pos.val

/-- The bits of every byte the host has popped, then those the writer holds: where no reset came between, all the bits written
to the output stream, in order (20_memory.md rule R52). -/
def State.written (s : State) : List Bool := bytesBits s.popped ++ s.writer.stream

/-- The bits a command writes to the output stream when it performs in `s` (20_memory.md rule R52): a field, a code, or the
zero padding. -/
def bitsWritten (s : State) : Instr → List Bool
  | .bwWrite n v => fieldBits n.toNat v.toNat
  | .bwFlush => List.replicate ((8 - s.writer.cnt.val) % 8) false
  | .htEnc t k =>
    match s.lookup t k with
    | some (l, c) => fieldBits l.toNat c.toNat
    | none => []
  | .nop | .brRead _ | .crcInit | .crcByte _ | .crcEnd | .crcChkb _ | .crcSinit | .crcChks _ => []
  | .htSetlen _ _ _ | .htBuild _ _ | .htRdcode _ _ | .rdReg _ | .reset => []

/-! ## What a command may write (10_state.md rules R20 to R37) -/

/-- The command writes the writer: BW.WRITE, BW.FLUSH, HT.ENC (10_state.md rule R28), or RESET. -/
def writesWriter : Instr → Bool
  | .bwWrite _ _ | .bwFlush | .htEnc _ _ | .reset => true
  | .nop | .brRead _ | .crcInit | .crcByte _ | .crcEnd | .crcChkb _ | .crcSinit | .crcChks _ => false
  | .htSetlen _ _ _ | .htBuild _ _ | .htRdcode _ _ | .rdReg _ => false

/-- The command writes the reader: BR.READ (40_bit_channel.md rule R110), or RESET. -/
def writesReader : Instr → Bool
  | .brRead _ | .reset => true
  | .nop | .bwWrite _ _ | .bwFlush | .crcInit | .crcByte _ | .crcEnd | .crcChkb _ | .crcSinit | .crcChks _ => false
  | .htSetlen _ _ _ | .htBuild _ _ | .htEnc _ _ | .htRdcode _ _ | .rdReg _ => false

/-- The command writes `CRC` (41_checksum.md), or is RESET. -/
def writesCrc : Instr → Bool
  | .crcInit | .crcByte _ | .crcEnd | .crcChkb _ | .reset => true
  | .nop | .bwWrite _ _ | .bwFlush | .brRead _ | .crcSinit | .crcChks _ => false
  | .htSetlen _ _ _ | .htBuild _ _ | .htEnc _ _ | .htRdcode _ _ | .rdReg _ => false

/-- The command writes `COMB` (41_checksum.md), or is RESET. -/
def writesComb : Instr → Bool
  | .crcEnd | .crcChkb _ | .crcSinit | .reset => true
  | .nop | .bwWrite _ _ | .bwFlush | .brRead _ | .crcInit | .crcByte _ | .crcChks _ => false
  | .htSetlen _ _ _ | .htBuild _ _ | .htEnc _ _ | .htRdcode _ _ | .rdReg _ => false

/-- The command writes table RAM: HT.SETLEN, HT.BUILD (10_state.md rules R33 to R35), or RESET. -/
def writesTables : Instr → Bool
  | .htSetlen _ _ _ | .htBuild _ _ | .reset => true
  | .nop | .bwWrite _ _ | .bwFlush | .brRead _ | .crcInit | .crcByte _ | .crcEnd | .crcChkb _ | .crcSinit | .crcChks _ => false
  | .htEnc _ _ | .htRdcode _ _ | .rdReg _ => false

/-- The command may write loadable table `i`: HT.SETLEN or HT.BUILD of that table (42_huffman.md rule R178), or RESET. -/
def writesTable (i : Fin 6) : Instr → Bool
  | .htSetlen t _ _ | .htBuild t _ => t.toNat == i.val
  | .reset => true
  | .nop | .bwWrite _ _ | .bwFlush | .brRead _ | .crcInit | .crcByte _ | .crcEnd | .crcChkb _ | .crcSinit | .crcChks _ => false
  | .htEnc _ _ | .htRdcode _ _ | .rdReg _ => false

/-- The command writes `RESULT` (92_eei_decisions.md D43). -/
def writesResult : Instr → Bool
  | .brRead _ | .crcEnd | .crcChkb _ | .crcChks _ | .htRdcode _ _ | .rdReg _ | .reset => true
  | .nop | .bwWrite _ _ | .bwFlush | .crcInit | .crcByte _ | .crcSinit => false
  | .htSetlen _ _ _ | .htBuild _ _ | .htEnc _ _ => false

/-! ## Invariant (10_state.md rule R40) -/

/-- A FIFO of capacity `cap` may hold `n` bytes. -/
def withinCap (cap : Option Nat) (n : Nat) : Bool :=
  match cap with
  | none => true
  | some c => n ≤ c

/-- `W_ACC < 2^W_CNT` (10_state.md rules R27 and R40(a)). -/
abbrev Writer.Ok (w : Writer) : Prop := w.acc.toNat < 2 ^ w.cnt.val

/-- `IN = [ ]` implies `R_POS = 0` (10_state.md rules R29 and R40(c)). -/
abbrev Reader.Ok (r : Reader) : Prop := r.bytes = [] → r.pos = 0

/-- What holds of a table (10_state.md rules R33, R35 and R40(d)): its RAMs in canonical form, every set length in [1,20],
and, where it is valid, an admissible length array with `CODE` its canonical codes. -/
structure HuffTable.Ok (T : HuffTable) : Prop where
  lenRam : T.len.wf = true
  codeRam : T.code.wf = true
  lengths : ∀ s, (T.len.read s).toNat ≤ Config.lMax
  count : T.size.toNat ≤ Config.kMax
  valid : T.size ≠ 0#9 → admissible (T.lens T.size.toNat) = true
  codes : T.size ≠ 0#9 → ∀ s, s < T.size.toNat →
    (canonical (T.lens T.size.toNat))[s]? = some (T.code.read s).toNat

/-- A completion code the block produces (60_exceptions.md rules R231 and R246): 0 to 6, and never 4. -/
abbrev producedCode (c : BitVec 4) : Prop := c.toNat ≤ 6 ∧ c ≠ 4#4

/-- The invariant of 10_state.md rule R40, with the codes of 60_exceptions.md rule R231. -/
structure State.Inv (s : State) : Prop where
  writerOk : s.writer.Ok
  outFits : withinCap s.cfg.outCap s.writer.out.length = true
  inFits : withinCap s.cfg.inCap s.reader.bytes.length = true
  readerOk : s.reader.Ok
  tablesOk : ∀ t : Fin 6, s.tables[t].Ok
  errCode : producedCode s.err
  statusCode : producedCode s.status

/-! ## Reset -/

/-- The block state has every value the table of 10_state.md rule R39 gives, `CODE` aside, which it leaves unspecified. -/
structure State.IsReset (s : State) : Prop where
  port : s.port = .idle
  status : s.status = 0#4
  result : s.result = 0#32
  err : s.err = 0#4
  writer : s.writer.acc = 0 ∧ s.writer.cnt = 0 ∧ s.writer.out = []
  reader : s.reader.bytes = [] ∧ s.reader.pos = 0 ∧ s.reader.ended = false
  crc : s.crc = 0xFFFFFFFF#32
  comb : s.comb = 0#32
  len : ∀ (t : Fin 6) (k : Nat), s.tables[t].len.read k = 0
  size : ∀ t : Fin 6, s.tables[t].size = 0#9

/-! ## Words that are no command -/

/-- `OPC` values outside the opcode map, in the ranges of 30_encoding.md rule R85. -/
def illegalOpc (opc : BitVec 8) : Bool :=
  let o := opc.toNat
  (0x04 ≤ o && o ≤ 0x0F) || (0x16 ≤ o && o ≤ 0x1F) || (0x24 ≤ o && o ≤ 0x2F) || (0x31 ≤ o && o ≤ 0x3E) || 0x40 ≤ o

/-- A field that the command's format marks "must be 0" is not 0 (30_encoding.md rules R82 and R84). -/
def reservedNonzero (opc a : BitVec 8) (b : BitVec 16) : Prop :=
  (opc.toNat ∈ [0x00, 0x02, 0x10, 0x11, 0x12, 0x13, 0x14, 0x15, 0x3F] ∧ (a ≠ 0#8 ∨ b ≠ 0#16)) ∨
  (opc.toNat ∈ [0x01, 0x03] ∧ b ≠ 0#16) ∨ (opc.toNat = 0x30 ∧ a ≠ 0#8)

/-- The commands that ignore all of `D` (30_encoding.md rule R84): formats `Z`, `TK` and `R`, and BR.READ, HT.ENC and
HT.RDCODE. -/
def ignoresD (opc : BitVec 8) : Bool :=
  [0x00, 0x02, 0x03, 0x10, 0x12, 0x14, 0x21, 0x22, 0x23, 0x30, 0x3F].contains opc.toNat

/-! ## Turns and runs -/

/-- It is the block's turn in `s`, with the word `w` in the port; `s'` is `s` with the turn taken off the schedule. -/
structure BlockTurn (s s' : State) (w : CommandWord) : Prop where
  legal : s.cfg.legal = true
  turn : s.nextTurn = (.block, s')
  busy : s'.port = .busy w

/-- It is the host's turn in `s`, with the move `m`; `s'` is `s` with the turn taken off the schedule. -/
structure HostTurn (s s' : State) (m : HostMove) : Prop where
  legal : s.cfg.legal = true
  turn : s.nextTurn = (.host m, s')

/-- While an error is sticky the command completes with `STATUS = ERR` and does nothing else (60_exceptions.md rule R234); the
model-level index is left to 10_state.md rule R22. -/
def RefusedWhileSticky (i : Instr) : Prop :=
  ∀ s : State, s.err ≠ 0#4 → ∃ t, exec i s = .next t ∧ t = { s with status := s.err, port := .idle, ci := t.ci }

/-- The state a step goes to, if it goes to one. -/
def nextState? : Result → Option State
  | .next s => some s
  | .fault _ => none
  | .refused _ => none

/-- The state with the command's word in the port (20_memory.md rule R63). -/
def State.issued (s : State) (i : Instr) : State := { s with port := .busy (encode i) }

/-- Issue the commands one after another, each evaluated once; the `RESULT` each leaves, and the last state. Nothing if one
of them holds or ends in an error. -/
def runCommands : List Instr → State → Option (List Word × State)
  | [], s => some ([], s)
  | i :: is, s =>
    match exec i (s.issued i) with
    | .next t =>
      if t.port = .idle ∧ t.status = 0#4 then (runCommands is t).map fun r => (t.result :: r.1, r.2) else none
    | .fault _ => none
    | .refused _ => none

/-- The raw checksum after a sequence of bytes (41_checksum.md rule R142). -/
def crcOfBytes (v : CrcVariant) (crc : Word) (bs : List Byte) : Word := bs.foldl (crcUpdate v) crc

/-- The block checksum of a sequence of bytes (41_checksum.md rule R142). -/
def blockCrc (v : CrcVariant) (bs : List Byte) : Word := blockCrcOf (crcOfBytes v Config.crcInit bs)

/-- One bit of the MSB-first polynomial division (41_checksum.md rule R142): the register is not reflected. -/
def divideBit (c : Word) (b : Bool) : Word := if c.msb != b then (c <<< 1) ^^^ 0x04C11DB7#32 else c <<< 1

/-- One bit of the reflected division (41_checksum.md rule R142): the register is kept reflected. -/
def divideBitReflected (c : Word) (b : Bool) : Word :=
  if c.getLsbD 0 != b then (c >>> 1) ^^^ 0xEDB88320#32 else c >>> 1

/-- The bits of the code of symbol `s` in a length array's canonical code (42_huffman.md rule R174). -/
def codeBits (lens : List Nat) (s : Nat) : List Bool := fieldBits (lens.getD s 0) ((canonical lens).getD s 0)

end Sys2Proof.Machine
end

