-- ==== Sys2Proof/WellFormed.lean ====
section
/-! DEFINITION. The legal operand values of 30_encoding.md rule R81, as a check on syntax alone. A command that fails it
is still a command: it decodes, it executes, and its own rule says which error it raises (rule R86). The part of rule
R81 that depends on the state (`s` below `SIZE[t]` or `FIXED_K`) is the lookup's (42_huffman.md rule R180). -/

namespace Sys2Proof

/-- Every operand of the command is in its legal range (30_encoding.md rule R81). -/
def Instr.wellFormed : Instr → Bool
  | .nop => true
  | .bwWrite n _ => legalBitCount n
  | .bwFlush => true
  | .brRead n => legalBitCount n
  | .crcInit => true
  | .crcByte _ => true
  | .crcEnd => true
  | .crcChkb _ => true
  | .crcSinit => true
  | .crcChks _ => true
  | .htSetlen t s l => legalLoadable t && legalSymbol s && legalLength l
  | .htBuild t k => legalLoadable t && legalCount k
  | .htEnc t s => legalSelector t && legalSymbol s
  | .htRdcode t s => legalSelector t && legalSymbol s
  | .rdReg r => legalRegister r
  | .reset => true

end Sys2Proof
end

