-- ==== Sys2Proof/Certificates/Slice0/Obligations.lean ====
section
/-! DEFINITION. The statements about the block, from the numbered rules of the spec. -/

open Sys2Proof Sys2Proof.Machine

/-! ## Encoding (30_encoding.md) -/

/-- Rules R80 to R83: decoding the word of a command gives the command back, every operand at every value its field admits,
the ill-formed ones (rule R86) too. -/
def Obligations.DecodeInvertsEncode : Prop :=
  ∀ i : Instr, decode (encode i) = .instr i

/-- Rules R80, R82 and R84: a word that decodes to a command is that command's word but for the bits of `D` rule R84 says are
ignored. -/
def Obligations.EncodeInvertsDecodeOnUsedBits : Prop :=
  ∀ (w : CommandWord) (i : Instr), decode w = .instr i → encode i = w &&& usedBits i

/-- The example words of rule R88, one per format, and one word of each family, written out from rules R80 and R83. -/
def Obligations.SampleWordsDecodeToTheirCommands : Prop :=
  decode 0x0200000000000000 = .instr .bwFlush ∧
  decode 0x1100000000000061 = .instr (.crcByte 0x61) ∧
  decode 0x010C000000000ABC = .instr (.bwWrite 12 0xABC) ∧
  decode 0x2000000300000005 = .instr (.htSetlen 0 3 5) ∧
  decode 0x2100000400000000 = .instr (.htBuild 0 4) ∧
  decode 0x3000000300000000 = .instr (.rdReg 3)

/-- Rule R85: the opcodes outside the map, in the rule's ranges, are illegal, and a word with one fails with `IllegalCommand`
(where no error is sticky, 60_exceptions.md rule R236). The ranges hold 240 values: the rule's own count, 224, does not
add up with its ranges and rule R83's 16 rows, and the model follows the ranges (DEDUCED, log entry 14). -/
def Obligations.OpcodesOutsideTheMapAreIllegal : Prop :=
  ((List.range 256).filter fun o => illegalOpc (BitVec.ofNat 8 o)).length = 240 ∧
  ∀ w : CommandWord,
    (decode w = .reject (.illegalOpcode (opcField w)) ↔ illegalOpc (opcField w) = true) ∧
    ∀ s s' : State, BlockTurn s s' w → illegalOpc (opcField w) = true → s'.err = 0#4 →
      step s = .next (s'.raised .illegalCommand)

/-- Rule R84: a reserved field that is not 0 fails the command with `IllegalCommand` and does nothing else; the bits of `D` a
command does not use have no effect. The sticky check of 60_exceptions.md rule R236 comes first, but for RD.REG and RESET. -/
def Obligations.ReservedFieldsFailAndUnusedDataIsIgnored : Prop :=
  (∀ (opc a : BitVec 8) (b : BitVec 16) (d : Word) (s s' : State),
    reservedNonzero opc a b → BlockTurn s s' (ofFields opc a b d) →
    (s'.err = 0#4 ∨ opc = 0x30#8 ∨ opc = 0x3F#8) → step s = .next (s'.raised .illegalCommand)) ∧
  (∀ (opc a : BitVec 8) (b : BitVec 16) (d d' : Word), ignoresD opc = true →
    decode (ofFields opc a b d) = decode (ofFields opc a b d')) ∧
  (∀ (opc a : BitVec 8) (b : BitVec 16) (d d' : Word), opc = 0x11#8 ∨ opc = 0x20#8 → d.setWidth 8 = d'.setWidth 8 →
    decode (ofFields opc a b d) = decode (ofFields opc a b d')) ∧
  (∀ (n : BitVec 8) (v v' : Word) (s : State), (∀ i, i < n.toNat → v.getLsbD i = v'.getLsbD i) →
    exec (.bwWrite n v) s = exec (.bwWrite n v') s)

/-- Rule R89: each pseudo-command expands to the commands its row shows. The instances are those whose expansion the row
depends on: widths, halves, and symbol indices. -/
def Obligations.PseudoCommandsExpandAsTheTableShows : Prop :=
  (∀ b, assemble (.bwBit b) = assemble (.bwWrite 1 b)) ∧
  (∀ b, assemble (.bwByte b) = assemble (.bwWrite 8 b)) ∧
  (∀ n, n ≤ 32 → assemble (.bwZeros n) = assemble (.bwWrite n 0)) ∧
  (∀ n v, 33 ≤ n → n ≤ 64 → v < 2 ^ n →
    assemble (.bwWritew n v) =
      some [.bwWrite (BitVec.ofNat 8 (n - 32)) (BitVec.ofNat 32 (v / 2 ^ 32)), .bwWrite 32 (BitVec.ofNat 32 v)]) ∧
  (∀ n, 33 ≤ n → n ≤ 64 → assemble (.brReadw n) = some [.brRead (BitVec.ofNat 8 (n - 32)), .brRead 32]) ∧
  (∀ bs : List Byte, assemble (.crcBytes (bs.map BitVec.toNat)) = some (bs.map .crcByte)) ∧
  (∀ (t : BitVec 8) (ls : List (BitVec 8)), ls.length < 2 ^ 16 →
    assemble (.htLoad t.toNat (ls.map BitVec.toNat)) =
      some (ls.zipIdx.map (fun p => Instr.htSetlen t (BitVec.ofNat 16 p.2) p.1) ++
        [.htBuild t (BitVec.ofNat 16 ls.length)]))

/-! ## Steps, completion and errors (10_state.md, 60_exceptions.md) -/

/-- On the block's turn a step is the meaning of the command in the port, or the completion of the word that is no command
(10_state.md rule R23), and on the host's turn a step is the host's move (20_memory.md section 3). The model's own, and in no
rule: that the turns come from the schedule (DESIGN CHOICE, log entry 1), and that a block's turn with an idle port is a step,
which leaves the state (DEDUCED, log entry 2). -/
def Obligations.StepRunsTheCommandInThePort : Prop :=
  (∀ (s s' : State) (w : CommandWord) (i : Instr), BlockTurn s s' w → decode w = .instr i → step s = exec i s') ∧
  (∀ (s s' : State) (w : CommandWord) (e : DecodeError), BlockTurn s s' w → decode w = .reject e →
    step s = rejectWord e s') ∧
  (∀ s s' : State, s.cfg.legal = true → s.nextTurn = (.block, s') → s'.port = .idle → step s = .next s') ∧
  (∀ (s s' : State) (m : HostMove), HostTurn s s' m → step s = hostMove m s')

/-- 10_state.md rule R23: whatever the word, the block's turn ends in one of three outcomes. A hold changes nothing; an error
changes `STATUS`, and `ERR` if it was 0, and idles the port; a perform leaves `STATUS = OK` and an idle port. -/
def Obligations.EveryWordEndsInOneOfThreeOutcomes : Prop :=
  ∀ (s s' : State) (w : CommandWord), BlockTurn s s' w → ∃ t, step s = .next t ∧
    (t = s' ∨
     (t.status ≠ 0#4 ∧ t = { s' with status := t.status, err := (if s'.err = 0#4 then t.status else s'.err), port := .idle,
                                     ci := t.ci }) ∨
     (t.status = 0#4 ∧ t.port = .idle))

/-- 10_state.md rule R22: each completed command advances `CI` by 1, a held one does not, and a RESET sets it to 0. That a command
refused by a sticky error counts, and that a RESET leaves 0 and not 1, is the model's reading (DEDUCED, log entry 9). A word
that is no command completes with an error and advances `CI` too; the host's moves leave it, but the hardware reset. -/
def Obligations.CompletedCommandsAdvanceTheIndex : Prop :=
  (∀ (i : Instr) (s t : State) (w : CommandWord), s.port = .busy w → exec i s = .next t →
    (t.port = .busy w ∧ t.ci = s.ci) ∨
    (t.port = .idle ∧ ((i = .reset ∧ t.ci = 0) ∨ (i ≠ .reset ∧ t.ci = s.ci + 1)))) ∧
  (∀ (s s' : State) (w : CommandWord) (e : DecodeError), BlockTurn s s' w → decode w = .reject e →
    ∃ t, step s = .next t ∧ t.port = .idle ∧ t.ci = s.ci + 1) ∧
  (∀ (s s' t : State) (m : HostMove), HostTurn s s' m → step s = .next t →
    t.ci = if m = .hardReset then 0 else s.ci)

/-- 60_exceptions.md rule R233: a command that completes with an error sets `STATUS` to its code, keeps the first error in
`ERR`, idles the port, and changes nothing else. The codes are the numbers of 60_exceptions.md rule R231. The index is
10_state.md rule R22's, not block state. -/
def Obligations.ErrorsChangeOnlyStatusAndErr : Prop :=
  (CommandError.malformedInput.code = 1#4 ∧ CommandError.unexpectedEof.code = 2#4 ∧ CommandError.crcMismatch.code = 3#4 ∧
    CommandError.invalidConfiguration.code = 4#4 ∧ CommandError.internalInvariantViolation.code = 5#4 ∧
    CommandError.illegalCommand.code = 6#4) ∧
  (∀ (e : CommandError) (s : State), s.raised e =
    { s with status := e.code, err := (if s.err = 0#4 then e.code else s.err), port := .idle, ci := s.ci + 1 }) ∧
  (∀ (s s' t : State) (w : CommandWord), BlockTurn s s' w → step s = .next t → t.port = .idle → t.status ≠ 0#4 →
    t = { s' with status := t.status, err := (if s'.err = 0#4 then t.status else s'.err), port := .idle, ci := t.ci } ∧
    (s'.err = 0#4 → ∃ e : CommandError, t.status = e.code))

/-- 60_exceptions.md rule R234: while `ERR` is set, every word but RD.REG's and RESET's completes with `STATUS = ERR` and does
nothing else, whether or not it is a command; RD.REG and RESET are checked and performed as usual. -/
def Obligations.StickyErrorTurnsCommandsAway : Prop :=
  (∀ (s s' : State) (w : CommandWord), BlockTurn s s' w → s'.err ≠ 0#4 → opcField w ≠ 0x30#8 → opcField w ≠ 0x3F#8 →
    ∃ t, step s = .next t ∧ t = { s' with status := s'.err, port := .idle, ci := t.ci }) ∧
  (∀ (r : BitVec 16) (s : State), legalRegister r = true → ∃ v, s.register r = some v ∧
    exec (.rdReg r) s = .next { s with result := v, status := 0#4, port := .idle, ci := s.ci + 1 }) ∧
  (∀ s : State, ∃ t, exec .reset s = .next t ∧ t.IsReset)

/-- 10_state.md rule R26: only a reset clears `ERR` or changes it once set: the hardware reset, or a RESET command with its
reserved fields 0. -/
def Obligations.OnlyAResetClearsErr : Prop :=
  ∀ s t : State, step s = .next t → s.err ≠ 0#4 → t.err ≠ s.err →
    t.IsReset ∧
    ((∃ s', HostTurn s s' .hardReset) ∨
     (∃ s' w, BlockTurn s s' w ∧ opcField w = 0x3F#8 ∧ aField w = 0#8 ∧ bField w = 0#16))

/-- 00_scope.md rule R5 and 93_implementation_defined.md row 8: a configuration with `OUT_CAP < 4`, `IN_CAP < 5`, more than
258 fixed symbols, or fixed lengths outside [1,20] or over-subscribed, is refused; every other is legal. -/
def Obligations.IllegalConfigurationsAreRefused : Prop :=
  ∀ s : State,
    (s.cfg.legal = true ↔
      (∀ c, s.cfg.outCap = some c → 4 ≤ c) ∧ (∀ c, s.cfg.inCap = some c → 5 ≤ c) ∧ s.cfg.fixedLen.length ≤ 258 ∧
      (∀ l ∈ s.cfg.fixedLen, 1 ≤ l.toNat ∧ l.toNat ≤ 20) ∧
      (s.cfg.fixedLen.map fun l => 2 ^ (20 - l.toNat)).sum ≤ 2 ^ 20) ∧
    (s.cfg.legal = false → step s = .refused .illegalConfiguration)

/-! ## The host's moves (20_memory.md rules R60 to R66) -/

/-- Rule R60. -/
def Obligations.PushAppendsAByteToTheInput : Prop :=
  ∀ (s s' : State) (b : Byte), HostTurn s s' (.push b) →
    ((s'.reader.ended = false ∧ ∀ c, s'.cfg.inCap = some c → s'.reader.bytes.length < c) →
      step s = .next { s' with reader := { s'.reader with bytes := s'.reader.bytes ++ [b] } }) ∧
    ((s'.reader.ended = true ∨ ∃ c, s'.cfg.inCap = some c ∧ c ≤ s'.reader.bytes.length) →
      step s = .refused .pushNotEnabled)

/-- Rule R61. -/
def Obligations.EndSetsEndOfInput : Prop :=
  ∀ s s' : State, HostTurn s s' .endOfInput →
    step s = .next { s' with reader := { s'.reader with ended := true } } ∧
    (s'.reader.ended = true → step s = .next s')

/-- Rule R62. -/
def Obligations.PopTakesTheOldestOutputByte : Prop :=
  ∀ s s' : State, HostTurn s s' .pop →
    (∀ b rest, s'.writer.out = b :: rest →
      step s = .next { s' with writer := { s'.writer with out := rest }, popped := s'.popped ++ [b] }) ∧
    (s'.writer.out = [] → step s = .refused .popNotEnabled)

/-- Rule R63: an idle port takes the word, a busy one does not, and no move of the host but the hardware reset withdraws it. -/
def Obligations.IssuePutsTheWordInAnIdlePort : Prop :=
  (∀ (s s' : State) (w : CommandWord), HostTurn s s' (.issue w) →
    (s'.port = .idle → step s = .next { s' with port := .busy w }) ∧
    (s'.port ≠ .idle → step s = .refused .issueNotEnabled)) ∧
  ∀ (s s' t : State) (m : HostMove) (w : CommandWord), HostTurn s s' m → m ≠ .hardReset → s'.port = .busy w →
    step s = .next t → t.port = .busy w

/-- COLLECT on an idle port gives the host `STATUS` and `RESULT` and changes nothing of the block (20_memory.md rule R64).
The model's own: COLLECT on a busy port, where R64 does not enable it, is refused (DEDUCED, log entry 6), and, inferred from
the moves together with the idle turn of log entry 2, what a command left there stays while the port is idle, whatever the
host does but reset. -/
def Obligations.CollectReadsTheCompletion : Prop :=
  (∀ s s' : State, HostTurn s s' .collect →
    (s'.port = .idle →
      step s = .next { s' with collected := s'.collected ++ [{ status := s'.status, result := s'.result }] }) ∧
    (s'.port ≠ .idle → step s = .refused .collectNotEnabled)) ∧
  ∀ s t : State, s.port = .idle → (∀ s', s.nextTurn ≠ (.host .hardReset, s')) → step s = .next t →
    t.status = s.status ∧ t.result = s.result

/-- Rule R66: the hardware reset is always enabled, gives the reset state, discards a command in the port, and leaves the
configuration and what the host holds. -/
def Obligations.HardwareResetGivesTheResetState : Prop :=
  ∀ s s' : State, HostTurn s s' .hardReset → ∃ t, step s = .next t ∧ t.IsReset ∧ t.ci = 0 ∧
    t.cfg = s'.cfg ∧ t.schedule = s'.schedule ∧ t.popped = s'.popped ∧ t.collected = s'.collected

/-- 70_reset_and_hazards.md rule R261 with 10_state.md rule R39: a block of any configuration starts in the reset state, and so
does the machine. -/
def Obligations.PowerOnIsTheResetState : Prop :=
  (∀ c : Config, (State.powerOn c).IsReset ∧ (State.powerOn c).ci = 0 ∧ (State.powerOn c).cfg = c) ∧
  State.reset.IsReset ∧ State.reset.ci = 0

/-! ## Bit Channel commands (40_bit_channel.md) -/

/-- Rule R111, with the hold of rule R112 and the loop of rule R113: BW.WRITE writes the low `n` bits of `v`, MSB first, pushes
`BYTES(n)` bytes in its one step, and leaves all else; it holds while the bytes do not fit; `n > 32` is `IllegalCommand`. -/
def Obligations.BwWriteWritesTheLowBitsMsbFirst : Prop :=
  (∀ (n : BitVec 8) (b : BitVec 16) (v : Word), decode (ofFields 0x01 n b v) =
    if b = 0#16 then .instr (.bwWrite n v) else .reject (.reservedField 0x01)) ∧
  (∀ (n : BitVec 8) (v : Word), RefusedWhileSticky (.bwWrite n v)) ∧
  ∀ (n : BitVec 8) (v : Word) (s : State), s.err = 0#4 →
    (32 < n.toNat → exec (.bwWrite n v) s = .next (s.raised .illegalCommand)) ∧
    (n.toNat ≤ 32 → (∃ c, s.cfg.outCap = some c ∧ c - s.writer.out.length < (s.writer.cnt.val + n.toNat) / 8) →
      exec (.bwWrite n v) s = .next s) ∧
    (n.toNat ≤ 32 → (∀ c, s.cfg.outCap = some c → (s.writer.cnt.val + n.toNat) / 8 ≤ c - s.writer.out.length) →
      s.writer.Ok → ∃ t, exec (.bwWrite n v) s = .next t ∧
        t = { s with writer := t.writer, status := 0#4, port := .idle, ci := s.ci + 1 } ∧
        t.writer.stream = s.writer.stream ++ fieldBits n.toNat v.toNat ∧ t.writer.Ok ∧
        t.writer.out.length = s.writer.out.length + (s.writer.cnt.val + n.toNat) / 8 ∧
        t.writer.cnt.val = (s.writer.cnt.val + n.toNat) % 8)

/-- Rule R116: BW.FLUSH pushes the pending bits padded with zeros and empties the accumulator; with none pending it does
nothing and never holds (rule R117); with some pending and no room it holds. -/
def Obligations.BwFlushPadsThePendingBitsWithZeros : Prop :=
  (∀ (a : BitVec 8) (b : BitVec 16) (d : Word), decode (ofFields 0x02 a b d) =
    if a = 0#8 ∧ b = 0#16 then .instr .bwFlush else .reject (.reservedField 0x02)) ∧
  RefusedWhileSticky .bwFlush ∧
  ∀ s : State, s.err = 0#4 →
    (s.writer.cnt = 0 → exec .bwFlush s = .next { s with status := 0#4, port := .idle, ci := s.ci + 1 }) ∧
    (s.writer.cnt ≠ 0 → (∃ c, s.cfg.outCap = some c ∧ c - s.writer.out.length < 1) → exec .bwFlush s = .next s) ∧
    (s.writer.cnt ≠ 0 → (∀ c, s.cfg.outCap = some c → 1 ≤ c - s.writer.out.length) → s.writer.Ok →
      ∃ b : Byte, fieldBits 8 b.toNat =
          fieldBits s.writer.cnt.val s.writer.acc.toNat ++ List.replicate (8 - s.writer.cnt.val) false ∧
        exec .bwFlush s = .next { s with writer := { acc := 0, cnt := 0, out := s.writer.out ++ [b] }, status := 0#4,
                                         port := .idle, ci := s.ci + 1 })

/-- Rules R119 to R121: BR.READ returns the next `n` unread bits, zero-extended, the first one highest, and consumes exactly
them; with too few bits it holds, or raises `UnexpectedEof` and consumes nothing where the input has ended. -/
def Obligations.BrReadTakesTheNextBits : Prop :=
  (∀ (n : BitVec 8) (b : BitVec 16) (d : Word), decode (ofFields 0x03 n b d) =
    if b = 0#16 then .instr (.brRead n) else .reject (.reservedField 0x03)) ∧
  (∀ n : BitVec 8, RefusedWhileSticky (.brRead n)) ∧
  ∀ (n : BitVec 8) (s : State), s.err = 0#4 →
    (32 < n.toNat → exec (.brRead n) s = .next (s.raised .illegalCommand)) ∧
    (n.toNat ≤ 32 → 8 * s.reader.bytes.length - s.reader.pos.val < n.toNat → s.reader.ended = true →
      exec (.brRead n) s = .next (s.raised .unexpectedEof)) ∧
    (n.toNat ≤ 32 → 8 * s.reader.bytes.length - s.reader.pos.val < n.toNat → s.reader.ended = false →
      exec (.brRead n) s = .next s) ∧
    (n.toNat ≤ 32 → n.toNat ≤ 8 * s.reader.bytes.length - s.reader.pos.val → ∃ t, exec (.brRead n) s = .next t ∧
      t = { s with reader := t.reader, result := t.result, status := 0#4, port := .idle, ci := s.ci + 1 } ∧
      t.result.toNat < 2 ^ n.toNat ∧ fieldBits n.toNat t.result.toNat = s.reader.unread.take n.toNat ∧
      t.reader.bytes = s.reader.bytes.drop ((s.reader.pos.val + n.toNat) / 8) ∧
      t.reader.pos.val = (s.reader.pos.val + n.toNat) % 8 ∧ t.reader.ended = s.reader.ended)

/-! ## Checksum Engine commands (41_checksum.md) -/

/-- Rule R143. -/
def Obligations.CrcInitRestartsTheBlockChecksum : Prop :=
  (∀ (a : BitVec 8) (b : BitVec 16) (d : Word), decode (ofFields 0x10 a b d) =
    if a = 0#8 ∧ b = 0#16 then .instr .crcInit else .reject (.reservedField 0x10)) ∧
  RefusedWhileSticky .crcInit ∧
  ∀ s : State, s.err = 0#4 →
    exec .crcInit s = .next { s with crc := 0xFFFFFFFF#32, status := 0#4, port := .idle, ci := s.ci + 1 }

/-- Rule R145. -/
def Obligations.CrcByteFeedsOneByte : Prop :=
  (∀ (a : BitVec 8) (b : BitVec 16) (d : Word), decode (ofFields 0x11 a b d) =
    if a = 0#8 ∧ b = 0#16 then .instr (.crcByte (d.setWidth 8)) else .reject (.reservedField 0x11)) ∧
  (∀ b : Byte, RefusedWhileSticky (.crcByte b)) ∧
  ∀ (b : Byte) (s : State), s.err = 0#4 →
    exec (.crcByte b) s =
      .next { s with crc := crcUpdate s.cfg.crcVariant s.crc b, status := 0#4, port := .idle, ci := s.ci + 1 }

/-- Rule R146. -/
def Obligations.CrcEndReturnsAndCombinesTheBlockChecksum : Prop :=
  (∀ (a : BitVec 8) (b : BitVec 16) (d : Word), decode (ofFields 0x12 a b d) =
    if a = 0#8 ∧ b = 0#16 then .instr .crcEnd else .reject (.reservedField 0x12)) ∧
  RefusedWhileSticky .crcEnd ∧
  ∀ s : State, s.err = 0#4 →
    exec .crcEnd s =
      .next { s with comb := s.comb.rotateLeft 1 ^^^ (s.crc ^^^ 0xFFFFFFFF#32), crc := 0xFFFFFFFF#32,
                     result := s.crc ^^^ 0xFFFFFFFF#32, status := 0#4, port := .idle, ci := s.ci + 1 }

/-- Rule R147. -/
def Obligations.CrcChkbVerifiesTheBlockChecksum : Prop :=
  (∀ (a : BitVec 8) (b : BitVec 16) (d : Word), decode (ofFields 0x13 a b d) =
    if a = 0#8 ∧ b = 0#16 then .instr (.crcChkb d) else .reject (.reservedField 0x13)) ∧
  (∀ x : Word, RefusedWhileSticky (.crcChkb x)) ∧
  ∀ (x : Word) (s : State), s.err = 0#4 →
    (s.crc ^^^ 0xFFFFFFFF#32 = x →
      exec (.crcChkb x) s =
        .next { s with comb := s.comb.rotateLeft 1 ^^^ x, crc := 0xFFFFFFFF#32, result := x, status := 0#4, port := .idle,
                       ci := s.ci + 1 }) ∧
    (s.crc ^^^ 0xFFFFFFFF#32 ≠ x →
      exec (.crcChkb x) s = .next { s with status := 3#4, err := 3#4, port := .idle, ci := s.ci + 1 })

/-- Rule R148. -/
def Obligations.CrcSinitClearsTheStreamChecksum : Prop :=
  (∀ (a : BitVec 8) (b : BitVec 16) (d : Word), decode (ofFields 0x14 a b d) =
    if a = 0#8 ∧ b = 0#16 then .instr .crcSinit else .reject (.reservedField 0x14)) ∧
  RefusedWhileSticky .crcSinit ∧
  ∀ s : State, s.err = 0#4 →
    exec .crcSinit s = .next { s with comb := 0#32, status := 0#4, port := .idle, ci := s.ci + 1 }

/-- Rule R149. -/
def Obligations.CrcChksVerifiesTheStreamChecksum : Prop :=
  (∀ (a : BitVec 8) (b : BitVec 16) (d : Word), decode (ofFields 0x15 a b d) =
    if a = 0#8 ∧ b = 0#16 then .instr (.crcChks d) else .reject (.reservedField 0x15)) ∧
  (∀ x : Word, RefusedWhileSticky (.crcChks x)) ∧
  ∀ (x : Word) (s : State), s.err = 0#4 →
    (s.comb = x → exec (.crcChks x) s = .next { s with result := s.comb, status := 0#4, port := .idle, ci := s.ci + 1 }) ∧
    (s.comb ≠ x → exec (.crcChks x) s = .next { s with status := 3#4, err := 3#4, port := .idle, ci := s.ci + 1 })

/-- Rule R142: the table-driven update is the polynomial division, one bit at a time: MSB_FIRST feeds bit 7 first into a
register that is not reflected, REFLECTED feeds bit 0 first into one that is. -/
def Obligations.CrcUpdateIsThePolynomialDivision : Prop :=
  ∀ (c : Word) (b : Byte),
    crcUpdate .msbFirst c b = (fieldBits 8 b.toNat).foldl divideBit c ∧
    crcUpdate .reflected c b = (fieldBits 8 b.toNat).reverse.foldl divideBitReflected c

/-- Rule R150: the CRC is linear. -/
def Obligations.CrcUpdateIsLinear : Prop :=
  ∀ (v : CrcVariant) (c c' : Word) (b b' : Byte),
    crcUpdate v (c ^^^ c') (b ^^^ b') = crcUpdate v c b ^^^ crcUpdate v c' b'

/-- Rule R150: a single flipped bit of the input always changes the block checksum. -/
def Obligations.AFlippedInputBitChangesTheBlockChecksum : Prop :=
  ∀ (v : CrcVariant) (before after : List Byte) (b : Byte) (k : Nat), k < 8 →
    blockCrc v (before ++ b :: after) ≠ blockCrc v (before ++ (b ^^^ (1#8 <<< k)) :: after)

/-- Rules R144 and R150: combining is injective in the block checksum, and after the blocks `c_0 ... c_(m-1)` the combined
checksum is the XOR of each `c_j` rotated left by `m-1-j`. -/
def Obligations.CombinedChecksumIsTheXorOfRotatedBlocks : Prop :=
  (∀ comb c c' : Word, combine comb c = combine comb c' → c = c') ∧
  ∀ cs : List Word,
    cs.foldl combine 0 =
      (cs.zipIdx.map fun p => p.1.rotateLeft ((cs.length - 1 - p.2) % 32)).foldl (fun x y => x ^^^ y) 0

/-! ## Huffman encoder commands (42_huffman.md) -/

/-- Rule R172: HT.SETLEN sets one length of one loadable table and makes that table not valid; its three errors come in the
rule's order. -/
def Obligations.HtSetlenSetsOneLength : Prop :=
  (∀ (t : BitVec 8) (k : BitVec 16) (d : Word), decode (ofFields 0x20 t k d) = .instr (.htSetlen t k (d.setWidth 8))) ∧
  (∀ (t : BitVec 8) (k : BitVec 16) (l : BitVec 8), RefusedWhileSticky (.htSetlen t k l)) ∧
  ∀ (t : BitVec 8) (k : BitVec 16) (l : BitVec 8) (s : State), s.err = 0#4 →
    (5 < t.toNat ∨ 257 < k.toNat → exec (.htSetlen t k l) s = .next (s.raised .internalInvariantViolation)) ∧
    (t.toNat ≤ 5 → k.toNat ≤ 257 → (l.toNat < 1 ∨ 20 < l.toNat) →
      exec (.htSetlen t k l) s = .next (s.raised .malformedInput)) ∧
    (∀ i : Fin 6, t.toNat = i.val → k.toNat ≤ 257 → 1 ≤ l.toNat → l.toNat ≤ 20 →
      ∃ u, exec (.htSetlen t k l) s = .next u ∧
        u = { s with tables := u.tables, status := 0#4, port := .idle, ci := s.ci + 1 } ∧
        (u.tables[i].len.read k.toNat).toNat = l.toNat ∧ u.tables[i].size = 0#9 ∧ u.tables[i].code = s.tables[i].code ∧
        (∀ k', k' ≠ k.toNat → u.tables[i].len.read k' = s.tables[i].len.read k') ∧
        ∀ j : Fin 6, j ≠ i → u.tables[j] = s.tables[j])

/-- Rule R176: HT.BUILD checks the first `K` lengths and gives the table their canonical codes and the size `K`; its errors
come in the rule's order and change no table. -/
def Obligations.HtBuildAssignsTheCanonicalCodes : Prop :=
  (∀ (t : BitVec 8) (k : BitVec 16) (d : Word), decode (ofFields 0x21 t k d) = .instr (.htBuild t k)) ∧
  (∀ (t : BitVec 8) (k : BitVec 16), RefusedWhileSticky (.htBuild t k)) ∧
  ∀ (t : BitVec 8) (k : BitVec 16) (s : State), s.err = 0#4 →
    (5 < t.toNat → exec (.htBuild t k) s = .next (s.raised .internalInvariantViolation)) ∧
    ∀ i : Fin 6, t.toNat = i.val →
      ((k.toNat < 1 ∨ 258 < k.toNat ∨ (∃ j, j < k.toNat ∧ s.tables[i].len.read j = 0) ∨
          2 ^ 20 < kraftSum (s.tables[i].lens k.toNat)) →
        exec (.htBuild t k) s = .next (s.raised .malformedInput)) ∧
      (1 ≤ k.toNat → k.toNat ≤ 258 → (∀ j, j < k.toNat → s.tables[i].len.read j ≠ 0) →
        kraftSum (s.tables[i].lens k.toNat) ≤ 2 ^ 20 → s.tables[i].code.wf = true →
        ∃ u, exec (.htBuild t k) s = .next u ∧
          u = { s with tables := u.tables, status := 0#4, port := .idle, ci := s.ci + 1 } ∧
          u.tables[i].size.toNat = k.toNat ∧ u.tables[i].len = s.tables[i].len ∧
          (∀ j, j < k.toNat →
            u.tables[i].code.read j = BitVec.ofNat 20 ((canonical (s.tables[i].lens k.toNat)).getD j 0)) ∧
          (∀ j, k.toNat ≤ j → u.tables[i].code.read j = s.tables[i].code.read j) ∧
          ∀ j : Fin 6, j ≠ i → u.tables[j] = s.tables[j])

/-- Rules R179 and R180: what `LOOKUP(t, s)` returns for a loadable table and for the fixed one, and where it raises
`InternalInvariantViolation` in HT.ENC and HT.RDCODE. -/
def Obligations.TableLookupFindsTheLengthAndCode : Prop :=
  (∀ (t : BitVec 8) (k : BitVec 16) (i : Fin 6) (s : State), t.toNat = i.val → s.tables[i].size.toNat ≤ 258 →
    (k.toNat < s.tables[i].size.toNat →
      s.lookup t k = some (s.tables[i].len.read k.toNat, s.tables[i].code.read k.toNat)) ∧
    (s.tables[i].size.toNat ≤ k.toNat → s.lookup t k = none)) ∧
  (∀ (k : BitVec 16) (s : State),
    (∀ l, s.cfg.fixedLen[k.toNat]? = some l →
      s.lookup 7 k = some (l, BitVec.ofNat 20 ((canonical (s.cfg.fixedLen.map BitVec.toNat)).getD k.toNat 0))) ∧
    (s.cfg.fixedLen.length ≤ k.toNat → s.lookup 7 k = none)) ∧
  (∀ (t : BitVec 8) (k : BitVec 16) (s : State), t.toNat = 6 ∨ 8 ≤ t.toNat → s.lookup t k = none) ∧
  (∀ (t : BitVec 8) (k : BitVec 16) (s : State), s.err = 0#4 → s.lookup t k = none →
    exec (.htEnc t k) s = .next (s.raised .internalInvariantViolation) ∧
    exec (.htRdcode t k) s = .next (s.raised .internalInvariantViolation))

/-- Rule R181: HT.ENC writes the code of its symbol, MSB first, pushing its bytes in its one step, and leaves all else; it
holds while the bytes do not fit. -/
def Obligations.HtEncWritesTheCodeOfItsSymbol : Prop :=
  (∀ (t : BitVec 8) (k : BitVec 16) (d : Word), decode (ofFields 0x22 t k d) = .instr (.htEnc t k)) ∧
  (∀ (t : BitVec 8) (k : BitVec 16), RefusedWhileSticky (.htEnc t k)) ∧
  ∀ (t : BitVec 8) (k : BitVec 16) (s : State), s.err = 0#4 →
    (s.lookup t k = none → exec (.htEnc t k) s = .next (s.raised .internalInvariantViolation)) ∧
    ∀ (l : BitVec 5) (c : BitVec 20), s.lookup t k = some (l, c) →
      ((∃ cap, s.cfg.outCap = some cap ∧ cap - s.writer.out.length < (s.writer.cnt.val + l.toNat) / 8) →
        exec (.htEnc t k) s = .next s) ∧
      ((∀ cap, s.cfg.outCap = some cap → (s.writer.cnt.val + l.toNat) / 8 ≤ cap - s.writer.out.length) →
        s.writer.Ok → ∃ u, exec (.htEnc t k) s = .next u ∧
          u = { s with writer := u.writer, status := 0#4, port := .idle, ci := s.ci + 1 } ∧
          u.writer.stream = s.writer.stream ++ fieldBits l.toNat c.toNat ∧ u.writer.Ok ∧
          u.writer.out.length = s.writer.out.length + (s.writer.cnt.val + l.toNat) / 8 ∧
          u.writer.cnt.val = (s.writer.cnt.val + l.toNat) % 8)

/-- Rule R183: HT.RDCODE returns the length in [28:24] and the code in [19:0], other bits 0, and changes nothing else. -/
def Obligations.HtRdcodeReturnsTheLengthAndCode : Prop :=
  (∀ (t : BitVec 8) (k : BitVec 16) (d : Word), decode (ofFields 0x23 t k d) = .instr (.htRdcode t k)) ∧
  (∀ (t : BitVec 8) (k : BitVec 16), RefusedWhileSticky (.htRdcode t k)) ∧
  ∀ (t : BitVec 8) (k : BitVec 16) (s : State), s.err = 0#4 →
    (s.lookup t k = none → exec (.htRdcode t k) s = .next (s.raised .internalInvariantViolation)) ∧
    ∀ (l : BitVec 5) (c : BitVec 20), s.lookup t k = some (l, c) →
      ∃ v : Word, v.toNat = l.toNat * 2 ^ 24 + c.toNat ∧
        exec (.htRdcode t k) s = .next { s with result := v, status := 0#4, port := .idle, ci := s.ci + 1 }

/-- Rule R178: a command on a table changes no other table; once HT.SETLEN has written a table, HT.ENC and HT.RDCODE on it fail;
after HT.BUILD they see the codes it assigned; every step but HT.SETLEN or HT.BUILD of the table or a reset leaves the table,
so that they go on seeing those codes; and a table that is not valid stays so, and they fail, until HT.BUILD. -/
def Obligations.ATableIsUsedOnlyWithTheCodesLastBuilt : Prop :=
  (∀ (t : BitVec 8) (k : BitVec 16) (l : BitVec 8) (s u : State) (j : Fin 6), t.toNat ≠ j.val →
    (exec (.htSetlen t k l) s = .next u → u.tables[j] = s.tables[j]) ∧
    (exec (.htBuild t k) s = .next u → u.tables[j] = s.tables[j])) ∧
  (∀ (t : BitVec 8) (k k' : BitVec 16) (l : BitVec 8) (s u : State), s.err = 0#4 →
    exec (.htSetlen t k l) s = .next u → u.status = 0#4 →
    exec (.htEnc t k') u = .next (u.raised .internalInvariantViolation) ∧
    exec (.htRdcode t k') u = .next (u.raised .internalInvariantViolation)) ∧
  (∀ (t : BitVec 8) (k k' : BitVec 16) (i : Fin 6) (s u : State), s.err = 0#4 → t.toNat = i.val →
    s.tables[i].code.wf = true → exec (.htBuild t k) s = .next u → u.status = 0#4 → k'.toNat < k.toNat →
    u.lookup t k' = some (s.tables[i].len.read k'.toNat,
      BitVec.ofNat 20 ((canonical (s.tables[i].lens k.toNat)).getD k'.toNat 0))) ∧
  (∀ (s u : State) (i : Fin 6), step s = .next u → u.tables[i] ≠ s.tables[i] →
    (∃ s', HostTurn s s' .hardReset) ∨
    ∃ s' w c, BlockTurn s s' w ∧ decode w = .instr c ∧ writesTable i c = true) ∧
  (∀ (s u : State) (i : Fin 6), step s = .next u → s.tables[i].size = 0#9 → u.tables[i].size ≠ 0#9 →
    ∃ s' w t k, BlockTurn s s' w ∧ decode w = .instr (.htBuild t k) ∧ t.toNat = i.val) ∧
  (∀ (t : BitVec 8) (k : BitVec 16) (s : State) (i : Fin 6), s.err = 0#4 → t.toNat = i.val → s.tables[i].size = 0#9 →
    exec (.htEnc t k) s = .next (s.raised .internalInvariantViolation) ∧
    exec (.htRdcode t k) s = .next (s.raised .internalInvariantViolation))

/-! ## The canonical code (42_huffman.md rules R174 and R175) -/

/-- Rule R174: symbols get consecutive codes in order of (length, index), doubled at each length: scaled to 20 bits, a code is
the Kraft sum of the symbols before it in that order. -/
def Obligations.ACodeIsTheKraftSumOfTheSymbolsBefore : Prop :=
  ∀ (lens : List Nat) (s : Nat), (∀ l ∈ lens, 1 ≤ l ∧ l ≤ 20) → s < lens.length →
    (canonical lens).getD s 0 * 2 ^ (20 - lens.getD s 0) =
      (((List.range lens.length).filter fun u =>
          lens.getD u 0 < lens.getD s 0 || (lens.getD u 0 == lens.getD s 0 && u < s)).map
        fun u => 2 ^ (20 - lens.getD u 0)).sum

/-- Rule R175(a): no code overflows its length. -/
def Obligations.CodesFitTheirLengths : Prop :=
  ∀ (lens : List Nat) (s : Nat), admissible lens = true → s < lens.length →
    (canonical lens).getD s 0 < 2 ^ lens.getD s 0

/-- Rule R175(b): the codes are prefix-free. -/
def Obligations.CodesArePrefixFree : Prop :=
  ∀ (lens : List Nat) (s u : Nat), admissible lens = true → s < lens.length → u < lens.length → s ≠ u →
    ¬ List.IsPrefix (codeBits lens s) (codeBits lens u)

/-- Rule R175(c): among symbols of equal length, the code grows with the symbol index. -/
def Obligations.CodesOfOneLengthGrowWithTheSymbol : Prop :=
  ∀ (lens : List Nat) (s u : Nat), admissible lens = true → s < u → u < lens.length →
    lens.getD s 0 = lens.getD u 0 → (canonical lens).getD s 0 < (canonical lens).getD u 0

/-- Rule R175(d): a complete array gives the all-ones code to the last symbol of the greatest length. -/
def Obligations.ACompleteCodeEndsInAllOnes : Prop :=
  ∀ (lens : List Nat) (s : Nat), admissible lens = true → kraftSum lens = 2 ^ 20 → s < lens.length →
    (∀ u, u < lens.length → lens.getD u 0 ≤ lens.getD s 0) →
    (∀ u, s < u → u < lens.length → lens.getD u 0 < lens.getD s 0) →
    (canonical lens).getD s 0 + 1 = 2 ^ lens.getD s 0

/-! ## Control commands (43_control.md) -/

/-- Rule R210: NOP changes nothing but its completion; the all-zero word is NOP. -/
def Obligations.NopOnlyCompletes : Prop :=
  (∀ (a : BitVec 8) (b : BitVec 16) (d : Word), decode (ofFields 0x00 a b d) =
    if a = 0#8 ∧ b = 0#16 then .instr .nop else .reject (.reservedField 0x00)) ∧ decode 0 = .instr .nop ∧
  RefusedWhileSticky .nop ∧
  ∀ s : State, s.err = 0#4 → exec .nop s = .next { s with status := 0#4, port := .idle, ci := s.ci + 1 }

/-- Rule R211 with the register map of 10_state.md rule R37: RD.REG returns each register's fields at their places, every other
bit 0, whatever `ERR`, and changes nothing else; a reserved number is `IllegalCommand`. -/
def Obligations.RdRegReadsTheRegisterMap : Prop :=
  (∀ (a : BitVec 8) (r : BitVec 16) (d : Word), decode (ofFields 0x30 a r d) =
    if a = 0#8 then .instr (.rdReg r) else .reject (.reservedField 0x30)) ∧
  (∀ (r : BitVec 16) (s : State), r.toNat = 14 ∨ 15 < r.toNat →
    exec (.rdReg r) s = .next (s.raised .illegalCommand)) ∧
  (∀ (r : BitVec 16) (s : State), s.cfg.legal = true → r.toNat ≤ 13 ∨ r.toNat = 15 → ∃ v : Word,
    exec (.rdReg r) s = .next { s with result := v, status := 0#4, port := .idle, ci := s.ci + 1 } ∧
    (r.toNat = 0 → v.toNat = s.err.toNat + 2 ^ 8 * s.reader.ended.toNat) ∧
    (r.toNat = 1 → v.toNat = s.writer.cnt.val + 2 ^ 8 * s.writer.acc.toNat) ∧
    (r.toNat = 2 → v.toNat = s.reader.pos.val + 2 ^ 16 * min s.reader.bytes.length 65535) ∧
    (r.toNat = 3 → v = s.crc) ∧
    (r.toNat = 4 → v = s.comb) ∧
    (r.toNat = 5 → v.toNat = 2 ^ 16 * min s.writer.out.length 65535) ∧
    (r.toNat = 6 → v.toNat = ((List.finRange 6).map fun t => 2 ^ t.val * (s.tables[t].size != 0#9).toNat).sum +
      2 ^ 7 * (decide (0 < s.cfg.fixedLen.length)).toNat) ∧
    (r.toNat = 7 → v.toNat = 32 + 2 ^ 8 * 6 + 2 ^ 16 * 20 + 2 ^ 24 * (s.cfg.crcVariant == .reflected).toNat) ∧
    (∀ t : Fin 6, r.toNat = 8 + t.val → v.toNat = s.tables[t].size.toNat) ∧
    (r.toNat = 15 → v.toNat = s.cfg.fixedLen.length))

/-- Rule R213: RESET gives the reset state, whatever `ERR`, and leaves the configuration and what the host holds. -/
def Obligations.ResetCommandGivesTheResetState : Prop :=
  (∀ (a : BitVec 8) (b : BitVec 16) (d : Word), decode (ofFields 0x3F a b d) =
    if a = 0#8 ∧ b = 0#16 then .instr .reset else .reject (.reservedField 0x3F)) ∧
  ∀ s : State, ∃ t, exec .reset s = .next t ∧ t.IsReset ∧
    t.cfg = s.cfg ∧ t.schedule = s.schedule ∧ t.popped = s.popped ∧ t.collected = s.collected

/-! ## Whole-machine rules -/

/-- 40_bit_channel.md rule R110, 41_checksum.md rule R140, 42_huffman.md rule R170, 20_memory.md rule R57: a command leaves
every unit that is not its own, and no command changes the configuration or what the host holds. -/
def Obligations.CommandsLeaveOtherUnitsAlone : Prop :=
  ∀ (i : Instr) (s t : State), exec i s = .next t →
    (writesWriter i = false → t.writer = s.writer) ∧ (writesReader i = false → t.reader = s.reader) ∧
    (writesCrc i = false → t.crc = s.crc) ∧ (writesComb i = false → t.comb = s.comb) ∧
    (writesTables i = false → t.tables = s.tables) ∧
    t.cfg = s.cfg ∧ t.schedule = s.schedule ∧ t.popped = s.popped ∧ t.collected = s.collected

/-- 10_state.md rule R21 with 92_eei_decisions.md D43: only the listed commands write `RESULT`, and none of them when it ends in
an error. -/
def Obligations.OnlyListedCommandsWriteTheResult : Prop :=
  ∀ (i : Instr) (s t : State), exec i s = .next t →
    (writesResult i = false → t.result = s.result) ∧ (t.status ≠ 0#4 → t.result = s.result)

/-- 20_memory.md rule R52: a command that performs appends exactly its bits to the output stream (popped bytes, `OUT`, pending
bits), a POP moves them without loss, and every other step but a reset leaves the stream as it was. -/
def Obligations.TheOutputStreamIsTheBitsWritten : Prop :=
  (∀ (s s' t : State) (w : CommandWord) (i : Instr), BlockTurn s s' w → decode w = .instr i → i ≠ .reset →
    s.writer.Ok → step s = .next t →
    t.writer.Ok ∧
    (t.port = .idle ∧ t.status = 0#4 → t.written = s.written ++ bitsWritten s' i) ∧
    (t.port ≠ .idle ∨ t.status ≠ 0#4 → t.written = s.written)) ∧
  (∀ (s s' t : State) (w : CommandWord) (e : DecodeError), BlockTurn s s' w → decode w = .reject e → step s = .next t →
    t.written = s.written) ∧
  (∀ s s' t : State, s.nextTurn = (.block, s') → s'.port = .idle → step s = .next t → t.written = s.written) ∧
  (∀ (s s' t : State) (m : HostMove), HostTurn s s' m → m ≠ .hardReset → step s = .next t → t.written = s.written)

/-- 20_memory.md rule R55: a PUSH appends its byte's bits to the unread ones, a BR.READ that performs takes them from the front
into `RESULT`, and every other step but a reset leaves them. -/
def Obligations.TheInputStreamIsReadInOrder : Prop :=
  (∀ (s s' t : State) (b : Byte), HostTurn s s' (.push b) → s.reader.Ok → step s = .next t →
    t.reader.unread = s.reader.unread ++ fieldBits 8 b.toNat) ∧
  (∀ (s s' t : State) (m : HostMove), HostTurn s s' m → m ≠ .hardReset → (∀ b, m ≠ .push b) → step s = .next t →
    t.reader.unread = s.reader.unread) ∧
  (∀ (s s' t : State) (w : CommandWord) (n : BitVec 8), BlockTurn s s' w → decode w = .instr (.brRead n) →
    step s = .next t →
    (t.port = .idle ∧ t.status = 0#4 →
      fieldBits n.toNat t.result.toNat ++ t.reader.unread = s.reader.unread) ∧
    (t.port ≠ .idle ∨ t.status ≠ 0#4 → t.reader = s.reader)) ∧
  (∀ (s s' t : State) (w : CommandWord) (i : Instr), BlockTurn s s' w → decode w = .instr i → i ≠ .reset →
    (∀ n, i ≠ .brRead n) → step s = .next t → t.reader = s.reader) ∧
  (∀ (s s' t : State) (w : CommandWord) (e : DecodeError), BlockTurn s s' w → decode w = .reject e → step s = .next t →
    t.reader = s.reader) ∧
  (∀ s s' t : State, s.nextTurn = (.block, s') → s'.port = .idle → step s = .next t → t.reader = s.reader)

/-- 40_bit_channel.md rule R123, the round-trip law: fields written with BW.WRITE and finalized with BW.FLUSH, from an empty
writer, are read back by BR.READs of the same widths from a reader that holds the bytes; and with an unbounded `OUT` the
writes do complete. -/
def Obligations.FieldsWrittenAreReadBack : Prop :=
  ∀ (fields : List (BitVec 8 × Word)) (s : State), (∀ f ∈ fields, f.1.toNat ≤ 32) → s.err = 0#4 →
    s.writer = { acc := 0, cnt := 0, out := [] } →
    (s.cfg.outCap = none →
      (runCommands (fields.map (fun f => Instr.bwWrite f.1 f.2) ++ [.bwFlush]) s).isSome = true) ∧
    ∀ (results : List Word) (s' r : State),
      runCommands (fields.map (fun f => Instr.bwWrite f.1 f.2) ++ [.bwFlush]) s = some (results, s') →
      r.err = 0#4 → r.reader.bytes = s'.writer.out → r.reader.pos = 0 →
      ∃ r', runCommands (fields.map fun f => Instr.brRead f.1) r =
        some (fields.map (fun f => BitVec.ofNat 32 (f.2.toNat % 2 ^ f.1.toNat)), r')

/-- 42_huffman.md rule R184, the symbol-stream law: HT.ENCs in a row append the concatenation of their codes, and complete where
`OUT` is unbounded; and two symbol sequences over the same sequence of tables with the same bits are the same. -/
def Obligations.SymbolStreamsConcatenateAndSplit : Prop :=
  (∀ (syms : List (BitVec 8 × BitVec 16)) (s : State), s.err = 0#4 → s.writer.Ok →
    (∀ p ∈ syms, (s.lookup p.1 p.2).isSome = true) →
    (s.cfg.outCap = none → (runCommands (syms.map fun p => Instr.htEnc p.1 p.2) s).isSome = true) ∧
    ∀ (results : List Word) (s' : State),
      runCommands (syms.map fun p => Instr.htEnc p.1 p.2) s = some (results, s') →
      s'.writer.stream = s.writer.stream ++ syms.flatMap fun p => bitsWritten s (.htEnc p.1 p.2)) ∧
  (∀ (xs ys : List (BitVec 8 × BitVec 16)) (s : State), s.Inv → s.cfg.legal = true →
    (∀ p ∈ xs ++ ys, (s.lookup p.1 p.2).isSome = true) → xs.map Prod.fst = ys.map Prod.fst →
    (xs.flatMap fun p => bitsWritten s (.htEnc p.1 p.2)) = (ys.flatMap fun p => bitsWritten s (.htEnc p.1 p.2)) →
    xs = ys)

/-- 00_scope.md rule R5 and 70_reset_and_hazards.md rule R268: on a legal block whose host has popped `OUT` empty and pushed
five bytes, no command holds. -/
def Obligations.NoCommandHoldsOnceTheHostHasServed : Prop :=
  ∀ (i : Instr) (s : State), s.cfg.legal = true → s.writer.out = [] → 5 ≤ s.reader.bytes.length →
    ∃ t, exec i s = .next t ∧ t.port = .idle

/-- 10_state.md rule R40: every step keeps the invariant, from every state that has it. -/
def Obligations.EveryStepKeepsTheInvariant : Prop :=
  ∀ s t : State, s.Inv → step s = .next t → t.Inv

/-- 10_state.md rule R40: the invariant holds after reset, in every configuration. -/
def Obligations.TheResetStateHasTheInvariant : Prop :=
  State.reset.Inv ∧ ∀ c : Config, (State.powerOn c).Inv
end

