-- ==== Sys2Proof/Laws/Canonical.lean ====
section
/-! SUPPORT. What the loops of the canonical assignment compute (42_huffman.md rule R174). -/

namespace Sys2Proof

/-- The inner loop, once: the counter grows by the number of symbols of the length, and each of them gets the counter plus the
number of such symbols before it. -/
theorem assignLength_spec (l : Nat) (lens codes : List Nat) (code : Nat) (h : codes.length = lens.length) :
    (assignLength l lens codes code).2 = code + lens.count l ∧
    ∀ s, s < lens.length → (assignLength l lens codes code).1.getD s 0 =
      if lens.getD s 0 = l then code + (lens.take s).count l else codes.getD s 0 := by
  induction lens generalizing codes code with
  | nil => cases codes <;> simp_all [assignLength]
  | cons x xs ih =>
    cases codes with
    | nil => simp at h
    | cons c cs =>
      simp only [List.length_cons, Nat.add_right_cancel_iff] at h
      simp only [assignLength]
      split
      · next hx =>
        subst hx
        obtain ⟨h1, h2⟩ := ih cs (code + 1) h
        refine ⟨by simp only [h1, List.count_cons_self]; omega, fun s hs => ?_⟩
        cases s with
        | zero => simp
        | succ s =>
          simp only [List.getD_cons_succ, List.take_succ_cons, List.count_cons_self]
          rw [h2 s (by simpa using hs)]
          split <;> omega
      · next hx =>
        obtain ⟨h1, h2⟩ := ih cs code h
        refine ⟨by simp only [h1]; rw [List.count_cons_of_ne hx], fun s hs => ?_⟩
        cases s with
        | zero => simp [hx]
        | succ s =>
          simp only [List.getD_cons_succ, List.take_succ_cons]
          rw [h2 s (by simpa using hs), List.count_cons_of_ne hx]

/-- The counter of rule R174 before length `l + d`, where it is `c` before length `l`. -/
def counterAt (lens : List Nat) (l c : Nat) : Nat → Nat
  | 0 => c
  | d + 1 => counterAt lens (l + 1) (2 * (c + lens.count l)) d

theorem counterAt_succ (lens : List Nat) (l c d : Nat) :
    counterAt lens l c (d + 1) = 2 * (counterAt lens l c d + lens.count (l + d)) := by
  induction d generalizing l c with
  | zero => simp [counterAt]
  | succ d ih => rw [counterAt, ih, counterAt, show l + 1 + d = l + (d + 1) by omega]

/-- The outer loop, once: a symbol whose length is among those done gets the counter before its length plus the number of
symbols of its length before it; every other keeps its code. -/
theorem assignLengths_spec (lens : List Nat) (n l : Nat) (codes : List Nat) (code : Nat) (h : codes.length = lens.length)
    (s : Nat) (hs : s < lens.length) :
    (assignLengths lens (List.range' l n) codes code).getD s 0 =
      if l ≤ lens.getD s 0 ∧ lens.getD s 0 < l + n then
        counterAt lens l code (lens.getD s 0 - l) + (lens.take s).count (lens.getD s 0)
      else codes.getD s 0 := by
  induction n generalizing l codes code with
  | zero => simp [assignLengths]
  | succ n ih =>
    obtain ⟨h1, h2⟩ := assignLength_spec l lens codes code h
    have hlen : (assignLength l lens codes code).1.length = lens.length := by
      rw [← h]
      clear h h1 h2 ih hs
      induction lens generalizing codes code with
      | nil => rfl
      | cons x xs ih =>
        cases codes with
        | nil => rfl
        | cons c cs => simp only [assignLength]; split <;> simp [ih]
    rw [List.range'_succ, assignLengths, ih _ _ _ hlen, h1, h2 s hs]
    by_cases hl : lens.getD s 0 = l
    · rw [hl, if_neg (by omega), if_pos rfl, if_pos (by constructor <;> omega)]; simp [counterAt]
    · by_cases h3 : l + 1 ≤ lens.getD s 0 ∧ lens.getD s 0 < l + 1 + n
      · rw [if_pos h3, if_pos (by omega), show lens.getD s 0 - l = (lens.getD s 0 - (l + 1)) + 1 by omega, counterAt,
          Nat.shiftLeft_eq, Nat.pow_one, Nat.mul_comm]
      · rw [if_neg h3, if_neg hl, if_neg (by omega)]

/-- The canonical code of a symbol: the counter before its length, plus the number of symbols of its length before it. -/
theorem canonical_spec (lens : List Nat) (s : Nat) (hs : s < lens.length) (h : 1 ≤ lens.getD s 0 ∧ lens.getD s 0 ≤ 20) :
    (canonical lens).getD s 0 = counterAt lens 1 0 (lens.getD s 0 - 1) + (lens.take s).count (lens.getD s 0) := by
  rw [canonical, assignLengths_spec _ _ _ _ _ (by simp) s hs, if_pos (by simp only [Config.lMax]; omega)]

end Sys2Proof
end

