-- ==== Sys2Proof/Laws/Checksum.lean ====
section
/-! SUPPORT. The checksum operations bit by bit: each turn of the table generation is linear, and the rotation is the library's. -/

namespace Sys2Proof.Machine

theorem xor_cancel (p a b : Word) : (a ^^^ p) ^^^ (b ^^^ p) = a ^^^ b := by
  rw [show (a ^^^ p) ^^^ (b ^^^ p) = (a ^^^ b) ^^^ (p ^^^ p) by ac_rfl]; simp

/-- One turn of the table generation is linear (41_checksum.md rules R141 and R150). -/
theorem crcShift_xor (v : CrcVariant) (c d : Word) : crcShift v (c ^^^ d) = crcShift v c ^^^ crcShift v d := by
  cases v <;> simp only [crcShift]
  · rw [BitVec.msb_xor]
    cases c.msb <;> cases d.msb <;> simp [BitVec.shiftLeft_xor_distrib] <;>
      first | ac_rfl | exact (xor_cancel _ _ _).symm
  · rw [BitVec.getLsbD_xor]
    cases c.getLsbD 0 <;> cases d.getLsbD 0 <;> simp [BitVec.ushiftRight_xor_distrib] <;>
      first | ac_rfl | exact (xor_cancel _ _ _).symm

theorem iterate_crcShift_xor (v : CrcVariant) (n : Nat) (c d : Word) :
    iterate (crcShift v) n (c ^^^ d) = iterate (crcShift v) n c ^^^ iterate (crcShift v) n d := by
  induction n generalizing c d with
  | zero => rfl
  | succ n ih => simp only [iterate, crcShift_xor, ih]

theorem crcSeed_xor (v : CrcVariant) (a b : Byte) : crcSeed v (a ^^^ b) = crcSeed v a ^^^ crcSeed v b := by
  cases v <;> simp [crcSeed, BitVec.shiftLeft_xor_distrib, BitVec.setWidth_xor]

/-- `rotl1_32` is the library's rotation (00_scope.md rule R8). -/
theorem rotl1_eq (x : Word) : rotl1 x = x.rotateLeft 1 := by
  simp [rotl1, BitVec.rotateLeft, BitVec.rotateLeftAux]

end Sys2Proof.Machine
end

