-- ==== Sys2Proof/Laws/Decode.lean ====
section
/-! SUPPORT. The fields of a command word: what `ofFields` places, the field functions read back, and two words with the same
fields are the same word. -/

namespace Sys2Proof

@[simp] theorem opcField_ofFields (opc a : BitVec 8) (b : BitVec 16) (d : Word) : opcField (ofFields opc a b d) = opc := by
  apply BitVec.eq_of_getLsbD_eq
  intro i hi
  simp only [opcField, ofFields, BitVec.getLsbD_extractLsb', BitVec.getLsbD_append]
  simp only [show ¬ 56 + i < 32 by omega, show ¬ 56 + i - 32 < 16 by omega, show ¬ 56 + i - 32 - 16 < 8 by omega, hi,
    decide_true, Bool.true_and, if_false]
  congr 1; omega

@[simp] theorem aField_ofFields (opc a : BitVec 8) (b : BitVec 16) (d : Word) : aField (ofFields opc a b d) = a := by
  apply BitVec.eq_of_getLsbD_eq
  intro i hi
  simp only [aField, ofFields, BitVec.getLsbD_extractLsb', BitVec.getLsbD_append]
  simp [show ¬ 48 + i < 32 by omega, show ¬ 48 + i - 32 < 16 by omega, show 48 + i - 32 - 16 < 8 by omega, hi]
  congr 1; omega

@[simp] theorem bField_ofFields (opc a : BitVec 8) (b : BitVec 16) (d : Word) : bField (ofFields opc a b d) = b := by
  apply BitVec.eq_of_getLsbD_eq
  intro i hi
  simp only [bField, ofFields, BitVec.getLsbD_extractLsb', BitVec.getLsbD_append]
  simp [show ¬ 32 + i < 32 by omega, hi]

@[simp] theorem dField_ofFields (opc a : BitVec 8) (b : BitVec 16) (d : Word) : dField (ofFields opc a b d) = d := by
  apply BitVec.eq_of_getLsbD_eq
  intro i hi
  simp only [dField, ofFields, BitVec.getLsbD_extractLsb', BitVec.getLsbD_append]
  simp [hi]

/-- A command word is its four fields. -/
theorem ofFields_fields (w : CommandWord) : ofFields (opcField w) (aField w) (bField w) (dField w) = w := by
  apply BitVec.eq_of_getLsbD_eq
  intro i hi
  simp only [ofFields, opcField, aField, bField, dField, BitVec.getLsbD_append, BitVec.getLsbD_extractLsb']
  by_cases h1 : i < 32
  · simp [h1]
  · by_cases h2 : i - 32 < 16
    · simp [h1, h2]; congr 1; omega
    · by_cases h3 : i - 32 - 16 < 8
      · simp [h1, h2, h3]; congr 1; omega
      · simp [h1, h2, h3, show i - 32 - 16 - 8 < 8 by omega]; congr 1; omega

/-- What a word decodes to, by its opcode's row (30_encoding.md rules R82 to R85). -/
theorem decode_ofFields (opc a : BitVec 8) (b : BitVec 16) (d : Word) :
    decode (ofFields opc a b d) =
      match opcodeRow opc with
      | none => .reject (.illegalOpcode opc)
      | some (fmt, make) => if fmt.reservedClear a b then .instr (make a b d) else .reject (.reservedField opc) := by
  simp only [decode, opcField_ofFields, aField_ofFields, bField_ofFields, dField_ofFields] <;> rfl

/-- What a word that is a command says: its opcode's row, reserved fields that are zero, and the command its fields make. -/
theorem decode_eq_instr {w : CommandWord} {i : Instr} (h : decode w = .instr i) :
    ∃ fmt make, opcodeRow (opcField w) = some (fmt, make) ∧ fmt.reservedClear (aField w) (bField w) = true ∧
      i = make (aField w) (bField w) (dField w) := by
  unfold decode at h
  split at h
  · cases h
  · next fmt make hr =>
    split at h
    · next hc => injection h with h; exact ⟨fmt, make, hr, hc, h.symm⟩
    · cases h

/-- The commands of a row have the row's opcode (30_encoding.md rule R83). -/
theorem opcode_of_row {opc : BitVec 8} {fmt : Format} {make : BitVec 8 → BitVec 16 → Word → Instr}
    (h : opcodeRow opc = some (fmt, make)) (a : BitVec 8) (b : BitVec 16) (d : Word) : (make a b d).opcode = opc := by
  have ho : ∀ n, opc.toNat = n → opc = BitVec.ofNat 8 n := fun n hn => by
    apply BitVec.eq_of_toNat_eq; rw [hn]; have := opc.isLt; simp; omega
  unfold opcodeRow at h
  split at h
  all_goals try cases h
  all_goals next hopc => rw [ho _ hopc]; rfl

/-- A word that is a command carries the command's opcode. -/
theorem opcField_of_decode {w : CommandWord} {i : Instr} (h : decode w = .instr i) : opcField w = i.opcode := by
  obtain ⟨fmt, make, hr, -, rfl⟩ := decode_eq_instr h
  exact (opcode_of_row hr _ _ _).symm

end Sys2Proof
end

