-- ==== Sys2Proof/Laws/State.lean ====
section
/-! SUPPORT. One lemma per field per update of the state, so that no later proof unfolds a record update. -/

namespace Sys2Proof.Machine.State

/-! ### `complete()` (00_scope.md rule R9) -/

@[simp] theorem complete_cfg (s : State) : s.complete.cfg = s.cfg := rfl
@[simp] theorem complete_port (s : State) : s.complete.port = .idle := rfl
@[simp] theorem complete_status (s : State) : s.complete.status = 0 := rfl
@[simp] theorem complete_result (s : State) : s.complete.result = s.result := rfl
@[simp] theorem complete_err (s : State) : s.complete.err = s.err := rfl
@[simp] theorem complete_writer (s : State) : s.complete.writer = s.writer := rfl
@[simp] theorem complete_reader (s : State) : s.complete.reader = s.reader := rfl
@[simp] theorem complete_crc (s : State) : s.complete.crc = s.crc := rfl
@[simp] theorem complete_comb (s : State) : s.complete.comb = s.comb := rfl
@[simp] theorem complete_tables (s : State) : s.complete.tables = s.tables := rfl
@[simp] theorem complete_ci (s : State) : s.complete.ci = s.ci + 1 := rfl
@[simp] theorem complete_schedule (s : State) : s.complete.schedule = s.schedule := rfl
@[simp] theorem complete_popped (s : State) : s.complete.popped = s.popped := rfl
@[simp] theorem complete_collected (s : State) : s.complete.collected = s.collected := rfl

/-! ### `complete(r)` (00_scope.md rule R9) -/

@[simp] theorem completeWith_cfg (s : State) (r : Word) : (s.completeWith r).cfg = s.cfg := rfl
@[simp] theorem completeWith_port (s : State) (r : Word) : (s.completeWith r).port = .idle := rfl
@[simp] theorem completeWith_status (s : State) (r : Word) : (s.completeWith r).status = 0 := rfl
@[simp] theorem completeWith_result (s : State) (r : Word) : (s.completeWith r).result = r := rfl
@[simp] theorem completeWith_err (s : State) (r : Word) : (s.completeWith r).err = s.err := rfl
@[simp] theorem completeWith_writer (s : State) (r : Word) : (s.completeWith r).writer = s.writer := rfl
@[simp] theorem completeWith_reader (s : State) (r : Word) : (s.completeWith r).reader = s.reader := rfl
@[simp] theorem completeWith_crc (s : State) (r : Word) : (s.completeWith r).crc = s.crc := rfl
@[simp] theorem completeWith_comb (s : State) (r : Word) : (s.completeWith r).comb = s.comb := rfl
@[simp] theorem completeWith_tables (s : State) (r : Word) : (s.completeWith r).tables = s.tables := rfl
@[simp] theorem completeWith_ci (s : State) (r : Word) : (s.completeWith r).ci = s.ci + 1 := rfl
@[simp] theorem completeWith_schedule (s : State) (r : Word) : (s.completeWith r).schedule = s.schedule := rfl
@[simp] theorem completeWith_popped (s : State) (r : Word) : (s.completeWith r).popped = s.popped := rfl
@[simp] theorem completeWith_collected (s : State) (r : Word) : (s.completeWith r).collected = s.collected := rfl

/-! ### Error completion (60_exceptions.md rule R233) -/

@[simp] theorem raised_cfg (s : State) (e : CommandError) : (s.raised e).cfg = s.cfg := rfl
@[simp] theorem raised_port (s : State) (e : CommandError) : (s.raised e).port = .idle := rfl
@[simp] theorem raised_status (s : State) (e : CommandError) : (s.raised e).status = e.code := rfl
@[simp] theorem raised_result (s : State) (e : CommandError) : (s.raised e).result = s.result := rfl
@[simp] theorem raised_err (s : State) (e : CommandError) : (s.raised e).err = if s.err = 0#4 then e.code else s.err := rfl
@[simp] theorem raised_writer (s : State) (e : CommandError) : (s.raised e).writer = s.writer := rfl
@[simp] theorem raised_reader (s : State) (e : CommandError) : (s.raised e).reader = s.reader := rfl
@[simp] theorem raised_crc (s : State) (e : CommandError) : (s.raised e).crc = s.crc := rfl
@[simp] theorem raised_comb (s : State) (e : CommandError) : (s.raised e).comb = s.comb := rfl
@[simp] theorem raised_tables (s : State) (e : CommandError) : (s.raised e).tables = s.tables := rfl
@[simp] theorem raised_ci (s : State) (e : CommandError) : (s.raised e).ci = s.ci + 1 := rfl
@[simp] theorem raised_schedule (s : State) (e : CommandError) : (s.raised e).schedule = s.schedule := rfl
@[simp] theorem raised_popped (s : State) (e : CommandError) : (s.raised e).popped = s.popped := rfl
@[simp] theorem raised_collected (s : State) (e : CommandError) : (s.raised e).collected = s.collected := rfl

/-! ### The sticky refusal (60_exceptions.md rule R234) -/

@[simp] theorem turnedAway_cfg (s : State) : s.turnedAway.cfg = s.cfg := rfl
@[simp] theorem turnedAway_port (s : State) : s.turnedAway.port = .idle := rfl
@[simp] theorem turnedAway_status (s : State) : s.turnedAway.status = s.err := rfl
@[simp] theorem turnedAway_result (s : State) : s.turnedAway.result = s.result := rfl
@[simp] theorem turnedAway_err (s : State) : s.turnedAway.err = s.err := rfl
@[simp] theorem turnedAway_writer (s : State) : s.turnedAway.writer = s.writer := rfl
@[simp] theorem turnedAway_reader (s : State) : s.turnedAway.reader = s.reader := rfl
@[simp] theorem turnedAway_crc (s : State) : s.turnedAway.crc = s.crc := rfl
@[simp] theorem turnedAway_comb (s : State) : s.turnedAway.comb = s.comb := rfl
@[simp] theorem turnedAway_tables (s : State) : s.turnedAway.tables = s.tables := rfl
@[simp] theorem turnedAway_ci (s : State) : s.turnedAway.ci = s.ci + 1 := rfl
@[simp] theorem turnedAway_schedule (s : State) : s.turnedAway.schedule = s.schedule := rfl
@[simp] theorem turnedAway_popped (s : State) : s.turnedAway.popped = s.popped := rfl
@[simp] theorem turnedAway_collected (s : State) : s.turnedAway.collected = s.collected := rfl

/-! ### A reset (10_state.md rule R39) -/

@[simp] theorem resetBlock_cfg (s : State) : s.resetBlock.cfg = s.cfg := rfl
@[simp] theorem resetBlock_port (s : State) : s.resetBlock.port = .idle := rfl
@[simp] theorem resetBlock_status (s : State) : s.resetBlock.status = 0 := rfl
@[simp] theorem resetBlock_result (s : State) : s.resetBlock.result = 0 := rfl
@[simp] theorem resetBlock_err (s : State) : s.resetBlock.err = 0 := rfl
@[simp] theorem resetBlock_writer (s : State) : s.resetBlock.writer = .empty := rfl
@[simp] theorem resetBlock_reader (s : State) : s.resetBlock.reader = .empty := rfl
@[simp] theorem resetBlock_crc (s : State) : s.resetBlock.crc = Config.crcInit := rfl
@[simp] theorem resetBlock_comb (s : State) : s.resetBlock.comb = 0 := rfl
@[simp] theorem resetBlock_tables (s : State) : s.resetBlock.tables = Vector.replicate 6 .unset := rfl
@[simp] theorem resetBlock_ci (s : State) : s.resetBlock.ci = 0 := rfl
@[simp] theorem resetBlock_schedule (s : State) : s.resetBlock.schedule = s.schedule := rfl
@[simp] theorem resetBlock_popped (s : State) : s.resetBlock.popped = s.popped := rfl
@[simp] theorem resetBlock_collected (s : State) : s.resetBlock.collected = s.collected := rfl

/-! ### A table replaced -/

@[simp] theorem setTable_cfg (s : State) (t : Fin 6) (T : HuffTable) : (s.setTable t T).cfg = s.cfg := rfl
@[simp] theorem setTable_port (s : State) (t : Fin 6) (T : HuffTable) : (s.setTable t T).port = s.port := rfl
@[simp] theorem setTable_status (s : State) (t : Fin 6) (T : HuffTable) : (s.setTable t T).status = s.status := rfl
@[simp] theorem setTable_result (s : State) (t : Fin 6) (T : HuffTable) : (s.setTable t T).result = s.result := rfl
@[simp] theorem setTable_err (s : State) (t : Fin 6) (T : HuffTable) : (s.setTable t T).err = s.err := rfl
@[simp] theorem setTable_writer (s : State) (t : Fin 6) (T : HuffTable) : (s.setTable t T).writer = s.writer := rfl
@[simp] theorem setTable_reader (s : State) (t : Fin 6) (T : HuffTable) : (s.setTable t T).reader = s.reader := rfl
@[simp] theorem setTable_crc (s : State) (t : Fin 6) (T : HuffTable) : (s.setTable t T).crc = s.crc := rfl
@[simp] theorem setTable_comb (s : State) (t : Fin 6) (T : HuffTable) : (s.setTable t T).comb = s.comb := rfl
@[simp] theorem setTable_tables (s : State) (t : Fin 6) (T : HuffTable) : (s.setTable t T).tables = s.tables.set t T := rfl
@[simp] theorem setTable_ci (s : State) (t : Fin 6) (T : HuffTable) : (s.setTable t T).ci = s.ci := rfl
@[simp] theorem setTable_schedule (s : State) (t : Fin 6) (T : HuffTable) : (s.setTable t T).schedule = s.schedule := rfl
@[simp] theorem setTable_popped (s : State) (t : Fin 6) (T : HuffTable) : (s.setTable t T).popped = s.popped := rfl
@[simp] theorem setTable_collected (s : State) (t : Fin 6) (T : HuffTable) : (s.setTable t T).collected = s.collected := rfl

/-! ### The end of a block (41_checksum.md rules R146 and R147) -/

@[simp] theorem finishBlock_cfg (s : State) : s.finishBlock.cfg = s.cfg := rfl
@[simp] theorem finishBlock_port (s : State) : s.finishBlock.port = .idle := rfl
@[simp] theorem finishBlock_status (s : State) : s.finishBlock.status = 0 := rfl
@[simp] theorem finishBlock_result (s : State) : s.finishBlock.result = blockCrcOf s.crc := rfl
@[simp] theorem finishBlock_err (s : State) : s.finishBlock.err = s.err := rfl
@[simp] theorem finishBlock_writer (s : State) : s.finishBlock.writer = s.writer := rfl
@[simp] theorem finishBlock_reader (s : State) : s.finishBlock.reader = s.reader := rfl
@[simp] theorem finishBlock_crc (s : State) : s.finishBlock.crc = Config.crcInit := rfl
@[simp] theorem finishBlock_comb (s : State) : s.finishBlock.comb = combine s.comb (blockCrcOf s.crc) := rfl
@[simp] theorem finishBlock_tables (s : State) : s.finishBlock.tables = s.tables := rfl
@[simp] theorem finishBlock_ci (s : State) : s.finishBlock.ci = s.ci + 1 := rfl
@[simp] theorem finishBlock_schedule (s : State) : s.finishBlock.schedule = s.schedule := rfl
@[simp] theorem finishBlock_popped (s : State) : s.finishBlock.popped = s.popped := rfl
@[simp] theorem finishBlock_collected (s : State) : s.finishBlock.collected = s.collected := rfl

/-! ### A command placed in the port -/

@[simp] theorem withFetchWord_cfg (s : State) (nbits w : Nat) : (s.withFetchWord nbits w).cfg = s.cfg := rfl
@[simp] theorem withFetchWord_port (s : State) (nbits w : Nat) : (s.withFetchWord nbits w).port = .busy (tableWord nbits w) := rfl
@[simp] theorem withFetchWord_status (s : State) (nbits w : Nat) : (s.withFetchWord nbits w).status = s.status := rfl
@[simp] theorem withFetchWord_result (s : State) (nbits w : Nat) : (s.withFetchWord nbits w).result = s.result := rfl
@[simp] theorem withFetchWord_err (s : State) (nbits w : Nat) : (s.withFetchWord nbits w).err = s.err := rfl
@[simp] theorem withFetchWord_writer (s : State) (nbits w : Nat) : (s.withFetchWord nbits w).writer = s.writer := rfl
@[simp] theorem withFetchWord_reader (s : State) (nbits w : Nat) : (s.withFetchWord nbits w).reader = s.reader := rfl
@[simp] theorem withFetchWord_crc (s : State) (nbits w : Nat) : (s.withFetchWord nbits w).crc = s.crc := rfl
@[simp] theorem withFetchWord_comb (s : State) (nbits w : Nat) : (s.withFetchWord nbits w).comb = s.comb := rfl
@[simp] theorem withFetchWord_tables (s : State) (nbits w : Nat) : (s.withFetchWord nbits w).tables = s.tables := rfl
@[simp] theorem withFetchWord_ci (s : State) (nbits w : Nat) : (s.withFetchWord nbits w).ci = s.ci := rfl
@[simp] theorem withFetchWord_schedule (s : State) (nbits w : Nat) : (s.withFetchWord nbits w).schedule = .block :: s.schedule := rfl
@[simp] theorem withFetchWord_popped (s : State) (nbits w : Nat) : (s.withFetchWord nbits w).popped = s.popped := rfl
@[simp] theorem withFetchWord_collected (s : State) (nbits w : Nat) : (s.withFetchWord nbits w).collected = s.collected := rfl

/-! ### Turns -/

theorem nextTurn_nil (s : State) (h : s.schedule = []) : s.nextTurn = (.block, s) := by simp [nextTurn, h]

theorem nextTurn_cons (s : State) (turn : Turn) (rest : List Turn) (h : s.schedule = turn :: rest) :
    s.nextTurn = (turn, { s with schedule := rest }) := by simp [nextTurn, h]

/-- Taking a turn changes the schedule alone. -/
theorem nextTurn_frame (s : State) : s.nextTurn.2 = { s with schedule := s.schedule.tail } := by
  cases s with | mk => rename_i sch _ _; cases sch <;> rfl

end Sys2Proof.Machine.State
end

