-- ==== Sys2Proof/Laws/Exec.lean ====
section
/-! SUPPORT. What a command can do, said once: `exec_cases` gives the four ways a command ends (60_exceptions.md rule R236),
`exec_total` that it always ends in one of them, and `step_cases` what a step can do. -/

namespace Sys2Proof.Machine

/-! ## The sticky check -/

theorem unlessSticky_of_clear {s : State} {k : Result} (h : s.err = 0#4) : unlessSticky s k = k := if_pos h

theorem unlessSticky_of_set {s : State} {k : Result} (h : s.err ≠ 0#4) : unlessSticky s k = .next s.turnedAway := if_neg h

theorem unlessSticky_next {s t : State} {k : Result} (h : unlessSticky s k = .next t) :
    (s.err ≠ 0#4 ∧ t = s.turnedAway) ∨ (s.err = 0#4 ∧ k = .next t) := by
  unfold unlessSticky at h
  split at h
  · next h0 => exact .inr ⟨h0, h⟩
  · next h0 => exact .inl ⟨h0, (by injection h with h; exact h.symm)⟩

@[simp] theorem raise_eq (e : CommandError) (s : State) : raise e s = .next (s.raised e) := rfl

@[simp] theorem hold_eq (s : State) : hold s = .next s := rfl

/-! ## The endings of a command -/

/-- The command is one the sticky check passes over (60_exceptions.md rule R236, step 1). -/
def Instr.ignoresSticky : Instr → Bool
  | .rdReg _ => true
  | .reset => true
  | .nop | .bwWrite _ _ | .bwFlush | .brRead _ | .crcInit | .crcByte _ | .crcEnd | .crcChkb _ | .crcSinit | .crcChks _ => false
  | .htSetlen _ _ _ | .htBuild _ _ | .htEnc _ _ | .htRdcode _ _ => false

/-- The command holds in `s`, and why (20_memory.md rule R67). -/
def Holds (s : State) : Instr → Prop
  | .bwWrite n _ => n.toNat ≤ Config.nMax ∧ s.writeHolds n.toNat = true
  | .bwFlush => s.flushHolds = true
  | .brRead n => n.toNat ≤ Config.nMax ∧ s.readShort n.toNat = true ∧ s.reader.ended = false
  | .htEnc tab k => ∃ l c, s.lookup tab k = some (l, c) ∧ s.writeHolds l.toNat = true
  | .nop | .crcInit | .crcByte _ | .crcEnd | .crcChkb _ | .crcSinit | .crcChks _ => False
  | .htSetlen _ _ _ | .htBuild _ _ | .htRdcode _ _ | .rdReg _ | .reset => False

/-- The command finishes with the error `e` in `s`, and why (60_exceptions.md rule R232). -/
def Raises (s : State) (e : CommandError) : Instr → Prop
  | .bwWrite n _ => Config.nMax < n.toNat ∧ e = .illegalCommand
  | .brRead n => (Config.nMax < n.toNat ∧ e = .illegalCommand) ∨
      (n.toNat ≤ Config.nMax ∧ s.readShort n.toNat = true ∧ s.reader.ended = true ∧ e = .unexpectedEof)
  | .crcChkb x => blockCrcOf s.crc ≠ x ∧ e = .crcMismatch
  | .crcChks x => s.comb ≠ x ∧ e = .crcMismatch
  | .htSetlen tab k l => ((loadable tab = none ∨ legalSymbol k = false) ∧ e = .internalInvariantViolation) ∨
      (loadable tab ≠ none ∧ legalSymbol k = true ∧ legalLength l = false ∧ e = .malformedInput)
  | .htBuild tab k => (loadable tab = none ∧ e = .internalInvariantViolation) ∨
      (∃ i, loadable tab = some i ∧ s.tables[i].buildable k = false ∧ e = .malformedInput)
  | .htEnc tab k => s.lookup tab k = none ∧ e = .internalInvariantViolation
  | .htRdcode tab k => s.lookup tab k = none ∧ e = .internalInvariantViolation
  | .rdReg r => s.register r = none ∧ e = .illegalCommand
  | .nop | .bwFlush | .crcInit | .crcByte _ | .crcEnd | .crcSinit | .reset => False

/-- The command performed in `s`, and `t` is what it left: its checks passed, and its effect. -/
def Performed (s t : State) : Instr → Prop
  | .nop => t = s.complete
  | .bwWrite n v => n.toNat ≤ Config.nMax ∧ s.writeHolds n.toNat = false ∧
      t = { s with writer := s.writer.putBits n.toNat v }.complete
  | .bwFlush => s.flushHolds = false ∧ t = { s with writer := s.writer.flush }.complete
  | .brRead n => n.toNat ≤ Config.nMax ∧ s.readShort n.toNat = false ∧
      t = { s with reader := (s.reader.readBits n.toNat 0).2 }.completeWith (s.reader.readBits n.toNat 0).1
  | .crcInit => t = { s with crc := Config.crcInit }.complete
  | .crcByte b => t = { s with crc := crcUpdate s.cfg.crcVariant s.crc b }.complete
  | .crcEnd => t = s.finishBlock
  | .crcChkb x => blockCrcOf s.crc = x ∧ t = s.finishBlock
  | .crcSinit => t = { s with comb := 0#32 }.complete
  | .crcChks x => s.comb = x ∧ t = s.completeWith s.comb
  | .htSetlen tab k l => ∃ i, loadable tab = some i ∧ legalSymbol k = true ∧ legalLength l = true ∧
      t = (s.setTable i { s.tables[i] with len := s.tables[i].len.write k.toNat (l.setWidth 5), size := 0 }).complete
  | .htBuild tab k => ∃ i, loadable tab = some i ∧ s.tables[i].buildable k = true ∧
      t = (s.setTable i (s.tables[i].built k)).complete
  | .htEnc tab k => ∃ l c, s.lookup tab k = some (l, c) ∧ s.writeHolds l.toNat = false ∧
      t = { s with writer := s.writer.putBits l.toNat (c.setWidth 32) }.complete
  | .htRdcode tab k => ∃ l c, s.lookup tab k = some (l, c) ∧ t = s.completeWith (codeWord l c)
  | .rdReg r => ∃ v, s.register r = some v ∧ t = s.completeWith v
  | .reset => t = s.resetBlock

/-- The four ways a command ends: turned away, finished with an error, held, performed. -/
def Ends (i : Instr) (s t : State) : Prop :=
  (Instr.ignoresSticky i = false ∧ s.err ≠ 0#4 ∧ t = s.turnedAway) ∨
  (∃ e, Raises s e i ∧ (Instr.ignoresSticky i = false → s.err = 0#4) ∧ t = s.raised e) ∨
  (Holds s i ∧ s.err = 0#4 ∧ t = s) ∨
  ((Instr.ignoresSticky i = false → s.err = 0#4) ∧ Performed s t i)

/-- Every command ends in one of the four ways, whatever the state. -/
theorem exec_total (i : Instr) (s : State) : ∃ t, exec i s = .next t ∧ Ends i s t := by
  by_cases h0 : s.err = 0#4
  · cases i with
    | nop => exact ⟨_, unlessSticky_of_clear h0, .inr (.inr (.inr ⟨fun _ => h0, rfl⟩))⟩
    | bwWrite n v =>
      simp only [exec, execBwWrite, unlessSticky_of_clear h0]
      split
      · next hn => exact ⟨_, rfl, .inr (.inl ⟨.illegalCommand, ⟨hn, rfl⟩, fun _ => h0, rfl⟩)⟩
      · next hn =>
        split
        · next hh => exact ⟨_, rfl, .inr (.inr (.inl ⟨⟨by omega, hh⟩, h0, rfl⟩))⟩
        · next hh => exact ⟨_, rfl, .inr (.inr (.inr ⟨fun _ => h0, by omega, by simpa using hh, rfl⟩))⟩
    | bwFlush =>
      simp only [exec, execBwFlush, unlessSticky_of_clear h0]
      split
      · next hh => exact ⟨_, rfl, .inr (.inr (.inl ⟨hh, h0, rfl⟩))⟩
      · next hh => exact ⟨_, rfl, .inr (.inr (.inr ⟨fun _ => h0, by simpa using hh, rfl⟩))⟩
    | brRead n =>
      simp only [exec, execBrRead, unlessSticky_of_clear h0]
      split
      · next hn => exact ⟨_, rfl, .inr (.inl ⟨.illegalCommand, .inl ⟨hn, rfl⟩, fun _ => h0, rfl⟩)⟩
      · next hn =>
        split
        · next hh =>
          split
          · next he =>
            exact ⟨_, rfl, .inr (.inl ⟨.unexpectedEof, .inr ⟨by omega, hh, he, rfl⟩, fun _ => h0, rfl⟩)⟩
          · next he => exact ⟨_, rfl, .inr (.inr (.inl ⟨⟨by omega, hh, by simpa using he⟩, h0, rfl⟩))⟩
        · next hh => exact ⟨_, rfl, .inr (.inr (.inr ⟨fun _ => h0, by omega, by simpa using hh, rfl⟩))⟩
    | crcInit => exact ⟨_, unlessSticky_of_clear h0, .inr (.inr (.inr ⟨fun _ => h0, rfl⟩))⟩
    | crcByte b => exact ⟨_, unlessSticky_of_clear h0, .inr (.inr (.inr ⟨fun _ => h0, rfl⟩))⟩
    | crcEnd => exact ⟨_, unlessSticky_of_clear h0, .inr (.inr (.inr ⟨fun _ => h0, rfl⟩))⟩
    | crcChkb x =>
      simp only [exec, execCrcChkb, unlessSticky_of_clear h0]
      split
      · next hx => exact ⟨_, rfl, .inr (.inr (.inr ⟨fun _ => h0, hx, rfl⟩))⟩
      · next hx => exact ⟨_, rfl, .inr (.inl ⟨.crcMismatch, ⟨hx, rfl⟩, fun _ => h0, rfl⟩)⟩
    | crcSinit => exact ⟨_, unlessSticky_of_clear h0, .inr (.inr (.inr ⟨fun _ => h0, rfl⟩))⟩
    | crcChks x =>
      simp only [exec, execCrcChks, unlessSticky_of_clear h0]
      split
      · next hx => exact ⟨_, rfl, .inr (.inr (.inr ⟨fun _ => h0, hx, rfl⟩))⟩
      · next hx => exact ⟨_, rfl, .inr (.inl ⟨.crcMismatch, ⟨hx, rfl⟩, fun _ => h0, rfl⟩)⟩
    | htSetlen tab k l =>
      simp only [exec, execHtSetlen, unlessSticky_of_clear h0]
      split
      · next hi =>
        exact ⟨_, rfl, .inr (.inl ⟨.internalInvariantViolation, .inl ⟨.inl hi, rfl⟩, fun _ => h0, rfl⟩)⟩
      · next i hi =>
        split
        · next hk =>
          exact ⟨_, rfl, .inr (.inl ⟨.internalInvariantViolation, .inl ⟨.inr (by simpa using hk), rfl⟩, fun _ => h0, rfl⟩)⟩
        · next hk =>
          split
          · next hl =>
            exact ⟨_, rfl, .inr (.inl ⟨.malformedInput,
              .inr ⟨by rw [hi]; exact Option.some_ne_none i, by simpa using hk, by simpa using hl, rfl⟩, fun _ => h0, rfl⟩)⟩
          · next hl =>
            exact ⟨_, rfl, .inr (.inr (.inr ⟨fun _ => h0, i, hi, by simpa using hk, by simpa using hl, rfl⟩))⟩
    | htBuild tab k =>
      simp only [exec, execHtBuild, unlessSticky_of_clear h0]
      split
      · next hi => exact ⟨_, rfl, .inr (.inl ⟨.internalInvariantViolation, .inl ⟨hi, rfl⟩, fun _ => h0, rfl⟩)⟩
      · next i hi =>
        split
        · next hb => exact ⟨_, rfl, .inr (.inr (.inr ⟨fun _ => h0, i, hi, hb, rfl⟩))⟩
        · next hb =>
          exact ⟨_, rfl, .inr (.inl ⟨.malformedInput, .inr ⟨i, hi, by simpa using hb, rfl⟩, fun _ => h0, rfl⟩)⟩
    | htEnc tab k =>
      simp only [exec, execHtEnc, unlessSticky_of_clear h0]
      split
      · next hn => exact ⟨_, rfl, .inr (.inl ⟨.internalInvariantViolation, ⟨hn, rfl⟩, fun _ => h0, rfl⟩)⟩
      · next l c hlc =>
        split
        · next hh => exact ⟨_, rfl, .inr (.inr (.inl ⟨⟨l, c, hlc, hh⟩, h0, rfl⟩))⟩
        · next hh => exact ⟨_, rfl, .inr (.inr (.inr ⟨fun _ => h0, l, c, hlc, by simpa using hh, rfl⟩))⟩
    | htRdcode tab k =>
      simp only [exec, execHtRdcode, unlessSticky_of_clear h0]
      split
      · next hn => exact ⟨_, rfl, .inr (.inl ⟨.internalInvariantViolation, ⟨hn, rfl⟩, fun _ => h0, rfl⟩)⟩
      · next l c hlc => exact ⟨_, rfl, .inr (.inr (.inr ⟨fun _ => h0, l, c, hlc, rfl⟩))⟩
    | rdReg r =>
      simp only [exec, execRdReg]
      split
      · next v hv => exact ⟨_, rfl, .inr (.inr (.inr ⟨fun _ => h0, v, hv, rfl⟩))⟩
      · next hn => exact ⟨_, rfl, .inr (.inl ⟨.illegalCommand, ⟨hn, rfl⟩, fun _ => h0, rfl⟩)⟩
    | reset => exact ⟨_, rfl, .inr (.inr (.inr ⟨fun _ => h0, rfl⟩))⟩
  · by_cases hi : Instr.ignoresSticky i = true
    · cases i <;> simp only [Instr.ignoresSticky, Bool.false_eq_true] at hi
      · next r =>
        simp only [exec, execRdReg]
        split
        · next v hv => exact ⟨_, rfl, .inr (.inr (.inr ⟨fun h => by simp [Instr.ignoresSticky] at h, v, hv, rfl⟩))⟩
        · next hn =>
          exact ⟨_, rfl, .inr (.inl ⟨.illegalCommand, ⟨hn, rfl⟩, fun h => by simp [Instr.ignoresSticky] at h, rfl⟩)⟩
      · exact ⟨_, rfl, .inr (.inr (.inr ⟨fun h => by simp [Instr.ignoresSticky] at h, rfl⟩))⟩
    · have hf : Instr.ignoresSticky i = false := by simpa using hi
      refine ⟨s.turnedAway, ?_, .inl ⟨hf, h0, rfl⟩⟩
      cases i <;> first | exact unlessSticky_of_set h0 | simp [Instr.ignoresSticky] at hf

/-- What a command did, from the state it left. -/
theorem exec_cases {i : Instr} {s t : State} (h : exec i s = .next t) : Ends i s t := by
  obtain ⟨t', ht', he⟩ := exec_total i s
  rw [ht'] at h
  injection h with h
  exact h ▸ he

/-- No command raises `InvalidConfiguration` (60_exceptions.md rule R246). -/
theorem raises_ne {s : State} {e : CommandError} {i : Instr} (h : Raises s e i) : e ≠ .invalidConfiguration := by
  rintro rfl
  cases i <;> simp [Raises] at h

/-- What a command that performed left of the port and the status, and its index (00_scope.md rule R9). -/
theorem performed_complete {i : Instr} {s t : State} (h : Performed s t i) :
    t.status = 0#4 ∧ t.port = .idle ∧ ((i = .reset ∧ t.ci = 0) ∨ (i ≠ .reset ∧ t.ci = s.ci + 1)) := by
  cases i <;> simp only [Performed] at h
  all_goals first
    | (subst h; simp)
    | (obtain ⟨_, rfl⟩ := h; simp)
    | (obtain ⟨_, _, rfl⟩ := h; simp)
    | (obtain ⟨_, _, _, rfl⟩ := h; simp)
    | (obtain ⟨_, _, _, _, rfl⟩ := h; simp)

theorem code_ne_zero (e : CommandError) : e.code ≠ 0#4 := by cases e <;> decide

/-- A turn taken off the schedule changes the schedule alone. -/
theorem nextTurn_eq {s s' : State} {turn : Turn} (h : s.nextTurn = (turn, s')) :
    s' = { s with schedule := s.schedule.tail } := by
  have := State.nextTurn_frame s
  rw [h] at this
  exact this

/-- What a move of the host but the hardware reset may change (20_memory.md rules R60 to R64): the streams, the port, and what
the host holds. -/
theorem hostMove_frame {m : HostMove} {s t : State} (h : hostMove m s = .next t) (hm : m ≠ .hardReset) :
    t = { s with reader := t.reader, writer := t.writer, port := t.port, popped := t.popped, collected := t.collected } := by
  cases m <;> simp only [hostMove, hostPush, hostEnd, hostPop, hostIssue, hostCollect] at h
  case hardReset => exact absurd rfl hm
  case endOfInput => injection h with h; subst h; rfl
  all_goals
    split at h
    all_goals first | cases h; done | (injection h with h; subst h; rfl)

/-- A rejected word completes: turned away, or with `IllegalCommand`. -/
theorem rejectWord_total (e : DecodeError) (s : State) :
    ∃ t, rejectWord e s = .next t ∧ ((s.err ≠ 0#4 ∧ t = s.turnedAway) ∨ t = s.raised .illegalCommand) := by
  have key : ∃ t, unlessSticky s (raise .illegalCommand s) = .next t ∧
      ((s.err ≠ 0#4 ∧ t = s.turnedAway) ∨ t = s.raised .illegalCommand) := by
    by_cases h0 : s.err = 0#4
    · exact ⟨_, unlessSticky_of_clear h0, .inr rfl⟩
    · exact ⟨_, unlessSticky_of_set h0, .inl ⟨h0, rfl⟩⟩
  cases e with
  | illegalOpcode opc => exact key
  | reservedField opc =>
    simp only [rejectWord]
    split
    · exact ⟨_, rfl, .inr rfl⟩
    · exact key

/-- What a step can do: a host move, an idle turn, a command, or a word that is no command. -/
theorem step_cases {s t : State} (h : step s = .next t) :
    s.cfg.legal = true ∧
    ((∃ m s', s.nextTurn = (.host m, s') ∧ hostMove m s' = .next t) ∨
     (∃ s', s.nextTurn = (.block, s') ∧ s'.port = .idle ∧ t = s') ∨
     (∃ s' w i, s.nextTurn = (.block, s') ∧ s'.port = .busy w ∧ decode w = .instr i ∧ exec i s' = .next t) ∨
     (∃ s' w e, s.nextTurn = (.block, s') ∧ s'.port = .busy w ∧ decode w = .reject e ∧ rejectWord e s' = .next t)) := by
  unfold step at h
  split at h
  · next hl =>
    refine ⟨hl, ?_⟩
    split at h
    · next m s' hn => exact .inl ⟨m, s', hn, h⟩
    · next s' hn =>
      unfold blockTurn at h
      split at h
      · next hp => injection h with h; exact .inr (.inl ⟨s', hn, hp, h.symm⟩)
      · next w hp =>
        split at h
        · next i hd => exact .inr (.inr (.inl ⟨s', w, i, hn, hp, hd, h⟩))
        · next e hd => exact .inr (.inr (.inr ⟨s', w, e, hn, hp, hd, h⟩))
  · cases h

end Sys2Proof.Machine
end

