-- ==== Sys2Proof/Laws/Flags.lean ====
section
/-! SUPPORT. What the hold and enabling conditions say. -/

namespace Sys2Proof.Machine

/-- Too little room (40_bit_channel.md rule R112); an unbounded FIFO always has room. -/
theorem lacksRoom_eq_true {cap : Option Nat} {held n : Nat} :
    lacksRoom cap held n = true ↔ ∃ c, cap = some c ∧ c - held < n := by
  cases cap <;> simp [lacksRoom]

theorem lacksRoom_eq_false {cap : Option Nat} {held n : Nat} :
    lacksRoom cap held n = false ↔ ∀ c, cap = some c → n ≤ c - held := by
  cases cap <;> simp [lacksRoom]

/-- A short read (40_bit_channel.md rule R118). -/
theorem readShort_eq_true {s : State} {n : Nat} : s.readShort n = true ↔ s.reader.avail < n := decide_eq_true_iff

theorem readShort_eq_false {s : State} {n : Nat} : s.readShort n = false ↔ n ≤ s.reader.avail := by
  rw [← Bool.not_eq_true, readShort_eq_true, Nat.not_lt]

end Sys2Proof.Machine
end

