-- ==== Sys2Proof/Laws/PerInstr.lean ====
section
/-! SUPPORT. What holds of every command as syntax, one lemma per constructor. The family `OpcodePlaced`: a command's word has
the command's opcode in `OPC`, the opcode is in the map, and the fields its format reserves are zero
(30_encoding.md rules R80, R82 and R83). -/

namespace Sys2Proof.Laws.OpcodePlaced

def Statement (i : Instr) : Prop :=
  opcField (encode i) = i.opcode ∧
  ∃ fmt make, opcodeRow i.opcode = some (fmt, make) ∧ fmt.reservedClear (aField (encode i)) (bField (encode i)) = true

theorem nop : Statement .nop := ⟨by simp [encode], _, _, rfl, by simp [encode, Format.reservedClear]⟩
theorem bwWrite (n : BitVec 8) (v : Word) : Statement (.bwWrite n v) :=
  ⟨by simp [encode], _, _, rfl, by simp [encode, Format.reservedClear]⟩
theorem bwFlush : Statement .bwFlush := ⟨by simp [encode], _, _, rfl, by simp [encode, Format.reservedClear]⟩
theorem brRead (n : BitVec 8) : Statement (.brRead n) :=
  ⟨by simp [encode], _, _, rfl, by simp [encode, Format.reservedClear]⟩
theorem crcInit : Statement .crcInit := ⟨by simp [encode], _, _, rfl, by simp [encode, Format.reservedClear]⟩
theorem crcByte (b : Byte) : Statement (.crcByte b) :=
  ⟨by simp [encode], _, _, rfl, by simp [encode, Format.reservedClear]⟩
theorem crcEnd : Statement .crcEnd := ⟨by simp [encode], _, _, rfl, by simp [encode, Format.reservedClear]⟩
theorem crcChkb (x : Word) : Statement (.crcChkb x) :=
  ⟨by simp [encode], _, _, rfl, by simp [encode, Format.reservedClear]⟩
theorem crcSinit : Statement .crcSinit := ⟨by simp [encode], _, _, rfl, by simp [encode, Format.reservedClear]⟩
theorem crcChks (x : Word) : Statement (.crcChks x) :=
  ⟨by simp [encode], _, _, rfl, by simp [encode, Format.reservedClear]⟩
theorem htSetlen (t : BitVec 8) (s : BitVec 16) (l : BitVec 8) : Statement (.htSetlen t s l) :=
  ⟨by simp [encode], _, _, rfl, rfl⟩
theorem htBuild (t : BitVec 8) (k : BitVec 16) : Statement (.htBuild t k) := ⟨by simp [encode], _, _, rfl, rfl⟩
theorem htEnc (t : BitVec 8) (s : BitVec 16) : Statement (.htEnc t s) := ⟨by simp [encode], _, _, rfl, rfl⟩
theorem htRdcode (t : BitVec 8) (s : BitVec 16) : Statement (.htRdcode t s) := ⟨by simp [encode], _, _, rfl, rfl⟩
theorem rdReg (r : BitVec 16) : Statement (.rdReg r) :=
  ⟨by simp [encode], _, _, rfl, by simp [encode, Format.reservedClear]⟩
theorem reset : Statement .reset := ⟨by simp [encode], _, _, rfl, by simp [encode, Format.reservedClear]⟩

end Sys2Proof.Laws.OpcodePlaced
end

