-- ==== Sys2Proof/Laws/Ram.lean ====
section
/-! SUPPORT. Table RAM: read after write, and the canonical form kept by every write. -/

namespace Sys2Proof.Machine.Ram

variable {width : Nat}

@[simp] theorem read_nil (k : Nat) : read ([] : Ram width) k = 0 := rfl

/-- A write leaves every other symbol alone. -/
theorem read_write_other (m : Ram width) (k k' : Nat) (v : BitVec width) (h : k ≠ k') :
    (m.write k v).read k' = m.read k' := by
  induction m with
  | nil => simp only [write]; split <;> simp [read, h]
  | cons p m ih =>
    obtain ⟨a, x⟩ := p
    simp only [write]
    split
    · split <;> simp [read, h]
    · split
      · next hk => subst hk; split <;> simp [read, h]
      · simp [read, ih]

/-- A symbol below every listed one reads 0. -/
theorem read_eq_zero_of_lt {lo : Nat} (m : Ram width) (k : Nat) (hm : wfFrom lo m = true) (h : k < lo) :
    m.read k = 0 := by
  induction m generalizing lo with
  | nil => rfl
  | cons p m ih =>
    obtain ⟨a, x⟩ := p
    simp only [wfFrom, Bool.and_eq_true, decide_eq_true_eq] at hm
    have : a ≠ k := by omega
    simp [read, this, ih hm.2 (by omega)]

/-- Read after write, for a RAM in canonical form. -/
theorem read_write_self {lo : Nat} (m : Ram width) (k : Nat) (v : BitVec width) (hm : wfFrom lo m = true) :
    (m.write k v).read k = v := by
  induction m generalizing lo with
  | nil => simp only [write]; split <;> simp_all [read]
  | cons p m ih =>
    obtain ⟨a, x⟩ := p
    have hw := hm
    simp only [wfFrom, Bool.and_eq_true, decide_eq_true_eq] at hm
    simp only [write]
    split
    · next hk =>
      split
      · next hv =>
        have : wfFrom a ((a, x) :: m) = true := by simp [wfFrom, hm]; simpa using hm.1.2
        rw [read_eq_zero_of_lt _ k this hk, hv]
      · simp [read]
    · split
      · next hk =>
        subst hk
        split
        · next hv => rw [read_eq_zero_of_lt m k hm.2 (by omega), hv]
        · simp [read]
      · next h1 h2 => simp [read, Ne.symm h2, ih hm.2]

/-- Read after write of a value that is listed, whatever the RAM. -/
theorem read_write_nonzero (m : Ram width) (k : Nat) (v : BitVec width) (hv : v ≠ 0) : (m.write k v).read k = v := by
  induction m with
  | nil => rw [write, if_neg (by exact hv)]; simp [read]
  | cons p m ih =>
    obtain ⟨a, x⟩ := p
    simp only [write, hv, if_false]
    split
    · simp [read]
    · split
      · simp [read]
      · next h => simp [read, Ne.symm h, ih]

theorem wfFrom_mono {lo lo' : Nat} (m : Ram width) (hm : wfFrom lo m = true) (h : lo' ≤ lo) : wfFrom lo' m = true := by
  cases m with
  | nil => rfl
  | cons p m =>
    obtain ⟨a, x⟩ := p
    simp only [wfFrom, Bool.and_eq_true, decide_eq_true_eq] at hm ⊢
    exact ⟨⟨⟨by omega, hm.1.1.2⟩, hm.1.2⟩, hm.2⟩

/-- A write to a symbol of the table keeps the canonical form, from any lower bound. -/
theorem wfFrom_write {lo : Nat} (m : Ram width) (k : Nat) (v : BitVec width) (hm : wfFrom lo m = true) (hlo : lo ≤ k)
    (hk : k < Config.kMax) : wfFrom lo (m.write k v) = true := by
  induction m generalizing lo with
  | nil => simp only [write]; split <;> simp_all [wfFrom]
  | cons p m ih =>
    obtain ⟨a, x⟩ := p
    have hw := hm
    simp only [wfFrom, Bool.and_eq_true, decide_eq_true_eq] at hm
    simp only [write]
    split
    · next hka =>
      split
      · exact hw
      · next hv =>
        simp only [wfFrom, Bool.and_eq_true, decide_eq_true_eq]
        exact ⟨⟨⟨hlo, hk⟩, by simpa using hv⟩, ⟨⟨by omega, hm.1.1.2⟩, hm.1.2⟩, hm.2⟩
    · split
      · next hka =>
        subst hka
        split
        · exact wfFrom_mono m hm.2 (by omega)
        · next hv =>
          simp only [wfFrom, Bool.and_eq_true, decide_eq_true_eq]
          exact ⟨⟨⟨hlo, hk⟩, by simpa using hv⟩, hm.2⟩
      · next h1 h2 =>
        simp only [wfFrom, Bool.and_eq_true, decide_eq_true_eq]
        exact ⟨hm.1, ih hm.2 (by omega)⟩

/-- A write to a symbol of the table keeps the canonical form. -/
theorem wf_write (m : Ram width) (k : Nat) (v : BitVec width) (hm : m.wf = true) (hk : k < Config.kMax) :
    (m.write k v).wf = true := wfFrom_write m k v hm (Nat.zero_le k) hk

/-- What `writeAll` writes, for a RAM in canonical form: the values at their symbols, and every other symbol as before. -/
theorem read_writeAll (m : Ram width) (k : Nat) (vs : List (BitVec width)) (hm : m.wf = true)
    (hk : k + vs.length ≤ Config.kMax) (j : Nat) :
    (m.writeAll k vs).read j = if k ≤ j ∧ j < k + vs.length then vs.getD (j - k) 0 else m.read j := by
  induction vs generalizing m k with
  | nil => simp only [writeAll, List.length_nil]; rw [if_neg (by omega)]
  | cons v vs ih =>
    simp only [List.length_cons] at hk ⊢
    have hw := wf_write m k v hm (by omega)
    rw [writeAll, ih (m.write k v) (k + 1) hw (by omega)]
    rcases Nat.lt_trichotomy j k with h | h | h
    · rw [if_neg (by omega), if_neg (by omega), read_write_other m k j v (by omega)]
    · subst h
      rw [if_neg (by omega), if_pos (by omega), read_write_self m j v hm]
      simp
    · by_cases hj : j < k + (vs.length + 1)
      · rw [if_pos (by omega), if_pos (by omega)]
        have : j - k = (j - (k + 1)) + 1 := by omega
        rw [this, List.getD_cons_succ]
      · rw [if_neg (by omega), if_neg (by omega), read_write_other m k j v (by omega)]

/-- `writeAll` within the table keeps the canonical form. -/
theorem wf_writeAll (m : Ram width) (k : Nat) (vs : List (BitVec width)) (hm : m.wf = true)
    (hk : k + vs.length ≤ Config.kMax) : (m.writeAll k vs).wf = true := by
  induction vs generalizing m k with
  | nil => exact hm
  | cons v vs ih =>
    simp only [List.length_cons] at hk
    exact ih (m.write k v) (k + 1) (wf_write m k v hm (by omega)) (by omega)

end Sys2Proof.Machine.Ram
end

