-- ==== Sys2Proof/Laws/Reset.lean ====
section
/-! SUPPORT. What a reset leaves, which registers exist, and what issuing a command changes. -/

namespace Sys2Proof.Machine

/-- A block after power-on has the reset values, whatever its configuration (10_state.md rule R39). -/
theorem powerOn_values (c : Config) : (State.powerOn c).IsReset := by
  constructor <;> (try exact ⟨rfl, rfl, rfl⟩) <;> (try rfl)
  all_goals intro t; (try intro k); simp [State.powerOn, HuffTable.unset]

/-- A reset gives the reset values, from every state (60_exceptions.md rule R239). -/
theorem resetBlock_values (s : State) : s.resetBlock.IsReset := by
  have h := powerOn_values s.cfg
  exact ⟨h.port, h.status, h.result, h.err, h.writer, h.reader, h.crc, h.comb, h.len, h.size⟩

/-- Every register number of the map has a register (10_state.md rule R37). -/
theorem register_of_legal (s : State) {r : BitVec 16} (h : legalRegister r = true) : ∃ v, s.register r = some v := by
  simp only [legalRegister, Bool.or_eq_true, decide_eq_true_eq, beq_iff_eq] at h
  unfold State.register
  generalize r.toNat = n at *
  rcases h with h | rfl
  · interval_cases n <;> exact ⟨_, rfl⟩
  · exact ⟨_, rfl⟩

@[simp] theorem issued_err (s : State) (i : Instr) : (s.issued i).err = s.err := rfl
@[simp] theorem issued_cfg (s : State) (i : Instr) : (s.issued i).cfg = s.cfg := rfl
@[simp] theorem issued_writer (s : State) (i : Instr) : (s.issued i).writer = s.writer := rfl
@[simp] theorem issued_reader (s : State) (i : Instr) : (s.issued i).reader = s.reader := rfl
@[simp] theorem issued_tables (s : State) (i : Instr) : (s.issued i).tables = s.tables := rfl
@[simp] theorem issued_port (s : State) (i : Instr) : (s.issued i).port = .busy (encode i) := rfl

end Sys2Proof.Machine
end

