-- ==== Sys2Proof/Laws/Stream.lean ====
section
/-! SUPPORT. The bit streams: what one bit, one field and one flush add to the writer's stream, and what one bit and one field
take from the reader's. -/

namespace Sys2Proof.Machine

/-! ## Bits of a field -/

@[simp] theorem fieldBits_zero (v : Nat) : fieldBits 0 v = [] := rfl

@[simp] theorem fieldBits_length (n v : Nat) : (fieldBits n v).length = n := by simp [fieldBits]

theorem fieldBits_succ (n v : Nat) : fieldBits (n + 1) v = v.testBit n :: fieldBits n v := by
  rw [fieldBits, List.range_succ_eq_map, List.map_cons, List.map_map, fieldBits]
  simp only [Nat.add_sub_cancel, Nat.sub_zero, List.cons.injEq, true_and]
  refine List.map_congr_left fun i _ => ?_
  show v.testBit (n - (i + 1)) = _
  congr 1; omega

/-- A bit appended below a value ends its field. -/
theorem fieldBits_snoc (n v : Nat) (b : Bool) : fieldBits (n + 1) (2 * v + b.toNat) = fieldBits n v ++ [b] := by
  induction n with
  | zero => cases b <;> simp [fieldBits_succ, Nat.testBit_zero]
  | succ n ih =>
    rw [fieldBits_succ, ih, fieldBits_succ n v, List.cons_append, Nat.testBit_succ]
    congr 2
    cases b <;> simp
    omega

/-- A field is determined by its bits. -/
theorem fieldBits_inj (n a b : Nat) (ha : a < 2 ^ n) (hb : b < 2 ^ n) (h : fieldBits n a = fieldBits n b) : a = b := by
  induction n generalizing a b with
  | zero => simp at ha hb; omega
  | succ n ih =>
    have key : ∀ x, fieldBits (n + 1) x = fieldBits n (x / 2) ++ [x.testBit 0] := fun x => by
      rw [← fieldBits_snoc]
      congr 1
      rw [Nat.testBit_zero]
      rcases Nat.mod_two_eq_zero_or_one x with h | h <;> simp [h] <;> omega
    rw [key, key] at h
    obtain ⟨h1, h2⟩ := List.append_inj' h rfl
    have := ih (a / 2) (b / 2) (by rw [Nat.pow_succ] at ha; omega) (by rw [Nat.pow_succ] at hb; omega) h1
    simp only [Nat.testBit_zero, List.cons.injEq, and_true, decide_eq_decide] at h2
    omega

@[simp] theorem bytesBits_nil : bytesBits [] = [] := rfl

@[simp] theorem bytesBits_cons (b : Byte) (bs : List Byte) :
    bytesBits (b :: bs) = fieldBits 8 b.toNat ++ bytesBits bs := rfl

@[simp] theorem bytesBits_append (xs ys : List Byte) : bytesBits (xs ++ ys) = bytesBits xs ++ bytesBits ys := by
  simp [bytesBits]

@[simp] theorem bytesBits_length (bs : List Byte) : (bytesBits bs).length = 8 * bs.length := by
  induction bs with
  | nil => rfl
  | cons b bs ih => simp [ih]; omega

/-! ## Writer -/

namespace Writer

theorem acc8_toNat (w : Writer) (b : Bool) : (w.acc ++ BitVec.ofBool b).toNat = 2 * w.acc.toNat + b.toNat := by
  rw [BitVec.toNat_append, BitVec.toNat_ofBool, ← Nat.shiftLeft_add_eq_or_of_lt (by cases b <;> decide)]
  simp only [Nat.shiftLeft_eq]; omega

/-- The two ways a bit enters the writer. -/
theorem putBit_cases (w : Writer) (b : Bool) (h : w.Ok) :
    (∃ hc : w.cnt.val + 1 < 8, (w.putBit b).out = w.out ∧ (w.putBit b).cnt = ⟨w.cnt.val + 1, hc⟩ ∧
        (w.putBit b).acc.toNat = 2 * w.acc.toNat + b.toNat) ∨
    (w.cnt.val = 7 ∧ ∃ full : Byte, full.toNat = 2 * w.acc.toNat + b.toNat ∧
        w.putBit b = { acc := 0, cnt := 0, out := w.out ++ [full] }) := by
  by_cases hc : w.cnt.val + 1 < 8
  · left
    refine ⟨hc, ?_⟩
    simp only [putBit, dif_pos hc, true_and]
    rw [BitVec.toNat_setWidth, acc8_toNat]
    have : 2 ^ w.cnt.val ≤ 2 ^ 6 := Nat.pow_le_pow_right (by decide) (by omega)
    have hb : b.toNat ≤ 1 := by cases b <;> decide
    exact Nat.mod_eq_of_lt (by unfold Ok at h; omega)
  · right
    refine ⟨by omega, w.acc ++ BitVec.ofBool b, acc8_toNat w b, ?_⟩
    simp only [putBit, dif_neg hc, outPush]

theorem putBit_ok (w : Writer) (b : Bool) (h : w.Ok) : (w.putBit b).Ok := by
  have hb : b.toNat ≤ 1 := by cases b <;> decide
  rcases putBit_cases w b h with ⟨hc, -, hcnt, hacc⟩ | ⟨-, full, -, he⟩
  · unfold Ok at h ⊢
    rw [hcnt, hacc]
    show _ < 2 ^ (w.cnt.val + 1)
    rw [Nat.pow_succ]; omega
  · rw [he]; exact Nat.two_pow_pos _

theorem putBit_stream (w : Writer) (b : Bool) (h : w.Ok) : (w.putBit b).stream = w.stream ++ [b] := by
  rcases putBit_cases w b h with ⟨hc, hout, hcnt, hacc⟩ | ⟨h7, full, hfull, he⟩
  · simp only [stream, hout, hcnt, hacc, fieldBits_snoc, List.append_assoc]
  · rw [he]
    simp only [stream, bytesBits_append, bytesBits_cons, bytesBits_nil, List.append_nil, hfull, fieldBits_snoc, h7,
      List.append_assoc, Fin.val_zero, fieldBits_zero]

theorem putBit_counts (w : Writer) (b : Bool) :
    8 * (w.putBit b).out.length + (w.putBit b).cnt.val = 8 * w.out.length + w.cnt.val + 1 := by
  by_cases hc : w.cnt.val + 1 < 8
  · simp only [putBit, dif_pos hc]; omega
  · have := w.cnt.isLt
    simp only [putBit, dif_neg hc, outPush, List.length_append, List.length_singleton, Fin.val_zero]; omega

/-- What `PutBits(m, v)` does, once (40_bit_channel.md rule R113, 20_memory.md rule R52). -/
theorem putBits_spec (m : Nat) (v : Word) (w : Writer) (h : w.Ok) :
    (w.putBits m v).Ok ∧ (w.putBits m v).stream = w.stream ++ fieldBits m v.toNat := by
  induction m generalizing w with
  | zero => simp [putBits, h]
  | succ m ih =>
    obtain ⟨h1, h2⟩ := ih (w.putBit (v.getLsbD m)) (putBit_ok w _ h)
    refine ⟨h1, ?_⟩
    rw [putBits, h2, putBit_stream w _ h, fieldBits_succ]
    simp [BitVec.getLsbD]

theorem putBits_counts (m : Nat) (v : Word) (w : Writer) :
    8 * (w.putBits m v).out.length + (w.putBits m v).cnt.val = 8 * w.out.length + w.cnt.val + m := by
  induction m generalizing w with
  | zero => rfl
  | succ m ih => rw [putBits, ih, putBit_counts]; omega

/-- The bytes pushed and the bits left pending (40_bit_channel.md rules R112 and R113). -/
theorem putBits_lengths (m : Nat) (v : Word) (w : Writer) :
    (w.putBits m v).out.length = w.out.length + w.bytesFor m ∧ (w.putBits m v).cnt.val = (w.cnt.val + m) % 8 := by
  have h := putBits_counts m v w
  have h1 := (w.putBits m v).cnt.isLt
  have h2 := w.cnt.isLt
  unfold bytesFor
  omega

theorem padByte_toNat (w : Writer) (h : w.Ok) (hc : w.cnt ≠ 0) :
    w.padByte.toNat = w.acc.toNat * 2 ^ (8 - w.cnt.val) := by
  have h2 := w.cnt.isLt
  have h0 : w.cnt.val ≠ 0 := fun h => hc (Fin.ext h)
  have hlt : w.acc.toNat * 2 ^ (8 - w.cnt.val) < 2 ^ 8 := by
    have : 2 ^ w.cnt.val * 2 ^ (8 - w.cnt.val) = 2 ^ 8 := by rw [← Nat.pow_add]; congr 1; omega
    rw [← this]
    exact Nat.mul_lt_mul_of_pos_right h (Nat.two_pow_pos _)
  rw [padByte, BitVec.toNat_shiftLeft, BitVec.toNat_setWidth, Nat.shiftLeft_eq,
    Nat.mod_eq_of_lt (a := w.acc.toNat) (by have := w.acc.isLt; omega), Nat.mod_eq_of_lt hlt]

/-- A value shifted up ends its field in zeros. -/
theorem fieldBits_shift (n k v : Nat) : fieldBits (n + k) (v * 2 ^ k) = fieldBits n v ++ List.replicate k false := by
  induction k with
  | zero => simp
  | succ k ih =>
    have : v * 2 ^ (k + 1) = 2 * (v * 2 ^ k) + Bool.toNat false := by simp [Nat.pow_succ]; ring
    rw [← Nat.add_assoc, this, fieldBits_snoc, ih, List.replicate_succ', List.append_assoc]

/-- What a flush does, once (40_bit_channel.md rules R116 and R117). -/
theorem flush_spec (w : Writer) (h : w.Ok) :
    w.flush.Ok ∧ w.flush.cnt = 0 ∧ w.flush.stream = w.stream ++ List.replicate ((8 - w.cnt.val) % 8) false := by
  by_cases hc : w.cnt = 0
  · have hf : w.flush = w := if_pos hc
    rw [hf]
    exact ⟨h, hc, by simp [hc]⟩
  · have h0 : w.cnt.val ≠ 0 := fun h => hc (Fin.ext h)
    have h2 := w.cnt.isLt
    refine ⟨?_, ?_, ?_⟩
    · simp only [flush, if_neg hc]; exact Nat.two_pow_pos _
    · simp only [flush, if_neg hc]
    · have h8 : fieldBits 8 w.padByte.toNat = fieldBits w.cnt.val w.acc.toNat ++ List.replicate (8 - w.cnt.val) false := by
        rw [padByte_toNat w h hc, ← fieldBits_shift]; congr 1; omega
      rw [Nat.mod_eq_of_lt (by omega : 8 - w.cnt.val < 8)]
      simp only [flush, if_neg hc, outPush, stream, bytesBits_append, bytesBits_cons, bytesBits_nil, List.append_nil, h8,
        Fin.val_zero, fieldBits_zero, List.append_assoc]

theorem flush_length (w : Writer) : w.flush.out.length = w.out.length + (if w.cnt = 0 then 0 else 1) := by
  by_cases hc : w.cnt = 0 <;> simp [flush, hc, outPush]

end Writer

/-! ## Reader -/

namespace Reader

@[simp] theorem unread_length (r : Reader) : r.unread.length = r.avail := by simp [unread, avail]

/-- One bit read (20_memory.md rule R55): it is the next unread one, and the rest stays unread. -/
theorem unread_cons (r : Reader) (h : 0 < r.avail) : r.unread = r.inBit :: r.inAdvance.unread := by
  obtain ⟨bytes, ⟨p, hp⟩, e⟩ := r
  cases bytes with
  | nil => simp [avail] at h
  | cons b bs =>
    have hget : (fieldBits 8 b.toNat)[p]? = some (b.toNat.testBit (7 - p)) := by
      simp [fieldBits, hp]
    have hd : (bytesBits (b :: bs)).drop p = b.toNat.testBit (7 - p) :: (bytesBits (b :: bs)).drop (p + 1) := by
      have hlen : p < (bytesBits (b :: bs)).length := by simp; omega
      rw [List.drop_eq_getElem_cons hlen]
      congr 1
      have : (bytesBits (b :: bs))[p]? = some (b.toNat.testBit (7 - p)) := by
        rw [bytesBits_cons, List.getElem?_append_left (by simp [hp]), hget]
      rw [List.getElem?_eq_getElem hlen] at this
      exact Option.some.inj this
    by_cases hc : p + 1 < 8
    · simp only [unread, hd, inBit, inAdvance, dif_pos hc, BitVec.getLsbD]
    · have : p = 7 := by omega
      subst this
      have h8 : (bytesBits (b :: bs)).drop (7 + 1) = bytesBits bs := by
        rw [bytesBits_cons, List.drop_left' (by simp)]
      simp only [unread, inBit, inAdvance, dif_neg hc, List.tail_cons, Fin.val_zero, List.drop_zero, BitVec.getLsbD]
      rw [hd, h8]

theorem avail_inAdvance (r : Reader) (h : 0 < r.avail) : r.inAdvance.avail = r.avail - 1 := by
  have := congrArg List.length (unread_cons r h)
  simp at this; omega

theorem inAdvance_ok (r : Reader) (h : 0 < r.avail) : r.inAdvance.Ok := by
  unfold Ok
  by_cases hc : r.pos.val + 1 < 8
  · simp only [inAdvance, dif_pos hc]
    intro hb
    simp [avail, hb] at h
  · simp only [inAdvance, dif_neg hc]; intro _; trivial

@[simp] theorem inAdvance_ended (r : Reader) : r.inAdvance.ended = r.ended := by
  unfold inAdvance; split <;> rfl

@[simp] theorem readBits_ended (n : Nat) (acc : Word) (r : Reader) : (r.readBits n acc).2.ended = r.ended := by
  induction n generalizing acc r with
  | zero => rfl
  | succ n ih => rw [readBits, ih, inAdvance_ended]

/-- The number a sequence of bits spells below `acc`, first bit highest. -/
def bitsValue (acc : Nat) : List Bool → Nat
  | [] => acc
  | b :: bs => bitsValue (2 * acc + b.toNat) bs

theorem bitsValue_mod (acc m : Nat) (bs : List Bool) : bitsValue (acc % 2 ^ m) bs % 2 ^ m = bitsValue acc bs % 2 ^ m := by
  induction bs generalizing acc with
  | nil => simp [bitsValue]
  | cons b bs ih =>
    rw [bitsValue, bitsValue, ← ih (2 * (acc % 2 ^ m) + b.toNat), ← ih (2 * acc + b.toNat)]
    congr 2
    rw [Nat.add_mod, Nat.mul_mod, Nat.mod_mod, ← Nat.mul_mod, ← Nat.add_mod]

/-- The field read back from bits: its value and its bits. -/
theorem bitsValue_spec (bs : List Bool) (k acc : Nat) (h : acc < 2 ^ k) :
    bitsValue acc bs < 2 ^ (k + bs.length) ∧ fieldBits (k + bs.length) (bitsValue acc bs) = fieldBits k acc ++ bs := by
  induction bs generalizing k acc with
  | nil => simp [bitsValue, h]
  | cons b bs ih =>
    have hb : b.toNat ≤ 1 := by cases b <;> decide
    obtain ⟨h1, h2⟩ := ih (k + 1) (2 * acc + b.toNat) (by rw [Nat.pow_succ]; omega)
    have hk : k + (b :: bs).length = k + 1 + bs.length := by simp; omega
    rw [bitsValue, hk]
    exact ⟨h1, by rw [h2, fieldBits_snoc]; simp⟩

/-- What the reading loop does, once (40_bit_channel.md rule R121): it returns the first `n` unread bits as a number below
the accumulator's bits, and leaves the rest unread. -/
theorem readBits_spec (n : Nat) (acc : Word) (r : Reader) (h : n ≤ r.avail) :
    (r.readBits n acc).1.toNat = bitsValue acc.toNat (r.unread.take n) % 2 ^ 32 ∧
    (r.readBits n acc).2.unread = r.unread.drop n := by
  induction n generalizing acc r with
  | zero => simp [readBits, bitsValue, Nat.mod_eq_of_lt acc.isLt]
  | succ n ih =>
    have h0 : 0 < r.avail := by omega
    have hu := unread_cons r h0
    obtain ⟨h1, h2⟩ := ih ((acc <<< 1) ||| (BitVec.ofBool r.inBit).setWidth 32) r.inAdvance
      (by rw [avail_inAdvance r h0]; omega)
    rw [readBits, h1, h2, hu]
    refine ⟨?_, rfl⟩
    have hacc : ((acc <<< 1) ||| (BitVec.ofBool r.inBit).setWidth 32).toNat = (2 * acc.toNat + r.inBit.toNat) % 2 ^ 32 := by
      have hb : ((BitVec.ofBool r.inBit).setWidth 32).toNat = r.inBit.toNat := by cases r.inBit <;> rfl
      have hs : (acc <<< 1).toNat = (acc.toNat % 2 ^ 31) <<< 1 := by
        rw [BitVec.toNat_shiftLeft, Nat.shiftLeft_eq, Nat.shiftLeft_eq]; omega
      have hb1 : r.inBit.toNat ≤ 1 := by cases r.inBit <;> decide
      rw [BitVec.toNat_or, hb, hs, ← Nat.shiftLeft_add_eq_or_of_lt (by omega), Nat.shiftLeft_eq]
      omega
    rw [List.take_succ_cons, bitsValue, hacc, bitsValue_mod]

theorem readBits_ok (n : Nat) (acc : Word) (r : Reader) (h : n ≤ r.avail) (hr : r.Ok) : (r.readBits n acc).2.Ok := by
  induction n generalizing acc r with
  | zero => exact hr
  | succ n ih =>
    have h0 : 0 < r.avail := by omega
    exact ih _ r.inAdvance (by rw [avail_inAdvance r h0]; omega) (inAdvance_ok r h0)

/-- A read of `n` bits, `n` at most 32, from an empty accumulator. -/
theorem readBits_field (n : Nat) (r : Reader) (h : n ≤ r.avail) (hn : n ≤ 32) :
    (r.readBits n 0).1.toNat < 2 ^ n ∧ fieldBits n (r.readBits n 0).1.toNat = r.unread.take n := by
  have hlen : (r.unread.take n).length = n := by simp [h]
  obtain ⟨h1, h2⟩ := bitsValue_spec (r.unread.take n) 0 0 (by simp)
  rw [hlen, Nat.zero_add] at h1 h2
  have hv : (r.readBits n 0).1.toNat = bitsValue 0 (r.unread.take n) := by
    rw [(readBits_spec n 0 r h).1]
    exact Nat.mod_eq_of_lt (Nat.lt_of_lt_of_le h1 (Nat.pow_le_pow_right (by decide) hn))
  rw [hv]
  exact ⟨h1, by simpa using h2⟩

/-- Where a read leaves the input (40_bit_channel.md rule R121): the bytes it used up are gone, and `R_POS` has moved on. -/
theorem readBits_position (n : Nat) (acc : Word) (r : Reader) (h : n ≤ r.avail) :
    (r.readBits n acc).2.bytes = r.bytes.drop ((r.pos.val + n) / 8) ∧
    (r.readBits n acc).2.pos.val = (r.pos.val + n) % 8 := by
  have hp := r.pos.isLt
  induction n generalizing acc r with
  | zero => simp [readBits, Nat.mod_eq_of_lt hp, Nat.div_eq_of_lt hp]
  | succ n ih =>
    have h0 : 0 < r.avail := by omega
    have hi := ih ((acc <<< 1) ||| (BitVec.ofBool r.inBit).setWidth 32) r.inAdvance
      (by rw [avail_inAdvance r h0]; omega) r.inAdvance.pos.isLt
    rw [readBits, hi.1, hi.2]
    by_cases hc : r.pos.val + 1 < 8
    · simp only [inAdvance, dif_pos hc]
      exact ⟨by congr 2; omega, by omega⟩
    · simp only [inAdvance, dif_neg hc]
      have h7 : r.pos.val = 7 := by omega
      rw [h7]
      refine ⟨?_, by simp; omega⟩
      rw [show (7 + (n + 1)) / 8 = n / 8 + 1 by omega, ← List.drop_one, List.drop_drop]
      simp; congr 1; omega

/-- A read never lengthens the input FIFO. -/
theorem readBits_length_le (n : Nat) (acc : Word) (r : Reader) : (r.readBits n acc).2.bytes.length ≤ r.bytes.length := by
  induction n generalizing acc r with
  | zero => exact Nat.le_refl _
  | succ n ih =>
    refine Nat.le_trans (ih _ r.inAdvance) ?_
    unfold inAdvance
    split <;> simp

end Reader

end Sys2Proof.Machine
end

