-- ==== Sys2Proof/Laws/Tables.lean ====
section
/-! SUPPORT. The loadable tables: selecting one, replacing one, looking a symbol up, and what HT.BUILD leaves. -/

namespace Sys2Proof.Machine

/-- A selector names the loadable table of its own number (42_huffman.md rule R180). -/
theorem loadable_eq_some {t : BitVec 8} {i : Fin 6} : loadable t = some i ↔ t.toNat = i.val := by
  unfold loadable
  split
  · next h => simp [Fin.ext_iff]
  · next h => simp; omega

theorem loadable_eq_none {t : BitVec 8} : loadable t = none ↔ 5 < t.toNat := by
  unfold loadable
  split <;> simp <;> omega

/-- Replacing a table leaves every other one (42_huffman.md rule R178). -/
theorem setTable_get (s : State) (t u : Fin 6) (T : HuffTable) :
    (s.setTable t T).tables[u] = if t = u then T else s.tables[u] := by
  simp only [State.setTable, Fin.getElem_fin, Vector.getElem_set, Fin.ext_iff]

@[simp] theorem setTable_get_self (s : State) (t : Fin 6) (T : HuffTable) : (s.setTable t T).tables[t] = T := by
  rw [setTable_get, if_pos rfl]

theorem setTable_get_other (s : State) {t u : Fin 6} (T : HuffTable) (h : t ≠ u) :
    (s.setTable t T).tables[u] = s.tables[u] := by rw [setTable_get, if_neg h]

@[simp] theorem lens_length (T : HuffTable) (k : Nat) : (T.lens k).length = k := by simp [HuffTable.lens]

theorem lens_getElem? (T : HuffTable) (k s : Nat) : (T.lens k)[s]? = if s < k then some (T.len.read s).toNat else none := by
  unfold HuffTable.lens
  split
  · next h => simp [h]
  · next h => simp; omega

@[simp] theorem assignLength_length (l : Nat) (lens codes : List Nat) (code : Nat) :
    (assignLength l lens codes code).1.length = codes.length := by
  induction lens generalizing codes code with
  | nil => rfl
  | cons x xs ih =>
    cases codes with
    | nil => rfl
    | cons c cs => simp only [assignLength]; split <;> simp [ih]

@[simp] theorem assignLengths_length (lens ls codes : List Nat) (code : Nat) :
    (assignLengths lens ls codes code).length = codes.length := by
  induction ls generalizing codes code with
  | nil => rfl
  | cons l ls ih => simp [assignLengths, ih]

@[simp] theorem canonical_length (lens : List Nat) : (canonical lens).length = lens.length := by simp [canonical]

theorem legalSymbol_iff {k : BitVec 16} : legalSymbol k = true ↔ k.toNat ≤ 257 := by
  simp only [legalSymbol, decide_eq_true_eq, Config.kMax]; omega

theorem legalLength_iff {l : BitVec 8} : legalLength l = true ↔ 1 ≤ l.toNat ∧ l.toNat ≤ 20 := by
  simp only [legalLength, Bool.and_eq_true, decide_eq_true_eq, Config.lMin, Config.lMax]

theorem legalCount_iff {k : BitVec 16} : legalCount k = true ↔ 1 ≤ k.toNat ∧ k.toNat ≤ 258 := by
  simp only [legalCount, Bool.and_eq_true, decide_eq_true_eq, Config.kMax]

theorem lens_all_set (T : HuffTable) (k : Nat) : (T.lens k).all (· ≠ 0) = true ↔ ∀ j, j < k → T.len.read j ≠ 0 := by
  simp only [HuffTable.lens, List.all_map, List.all_eq_true, List.mem_range, Function.comp, decide_eq_true_eq]
  refine forall_congr' fun j => imp_congr_right fun _ => ?_
  rw [ne_eq, ne_eq, not_iff_not]
  exact ⟨fun h => BitVec.eq_of_toNat_eq (by simpa using h), fun h => by rw [h]; rfl⟩

/-- The checks of HT.BUILD after the selector's (42_huffman.md rule R176). -/
theorem buildable_iff (T : HuffTable) (k : BitVec 16) :
    T.buildable k = true ↔
      1 ≤ k.toNat ∧ k.toNat ≤ 258 ∧ (∀ j, j < k.toNat → T.len.read j ≠ 0) ∧ kraftSum (T.lens k.toNat) ≤ 2 ^ 20 := by
  simp only [HuffTable.buildable, Bool.and_eq_true, legalCount_iff, lens_all_set, decide_eq_true_eq, and_assoc]

/-- HT.BUILD's checks say that the first `K` lengths are an admissible array, where every set length is at most 20
(42_huffman.md rules R171 and R176). -/
theorem buildable_admissible (T : HuffTable) (k : BitVec 16) (hT : ∀ s, (T.len.read s).toNat ≤ Config.lMax)
    (h : T.buildable k = true) : 1 ≤ k.toNat ∧ k.toNat ≤ Config.kMax ∧ admissible (T.lens k.toNat) = true := by
  simp only [HuffTable.buildable, legalCount, Bool.and_eq_true, decide_eq_true_eq, List.all_eq_true] at h
  refine ⟨h.1.1, h.1.2, ?_⟩
  simp only [admissible, Bool.and_eq_true, List.all_eq_true, decide_eq_true_eq]
  refine ⟨fun l hl => ?_, h.2.2⟩
  have hne := h.2.1 l hl
  simp only [HuffTable.lens, List.mem_map] at hl
  obtain ⟨s, -, rfl⟩ := hl
  have := hT s
  simp only [lengthInRange, Bool.and_eq_true, decide_eq_true_eq]
  simp only [ne_eq] at hne
  exact ⟨Nat.one_le_iff_ne_zero.mpr hne, this⟩

/-- What HT.BUILD leaves (42_huffman.md rule R176): the lengths as they were, the count, and the code RAM in canonical form
with the canonical codes at the first `K` symbols and every other entry as before. -/
theorem built_spec (T : HuffTable) (k : BitVec 16) (hk : k.toNat ≤ Config.kMax) (hc : T.code.wf = true) :
    (T.built k).len = T.len ∧ (T.built k).size.toNat = k.toNat ∧ (T.built k).code.wf = true ∧
    ∀ s, (T.built k).code.read s =
      if s < k.toNat then BitVec.ofNat 20 ((canonical (T.lens k.toNat)).getD s 0) else T.code.read s := by
  have hlen : 0 + ((canonical (T.lens k.toNat)).map (BitVec.ofNat 20)).length ≤ Config.kMax := by simpa using hk
  refine ⟨rfl, ?_, Ram.wf_writeAll _ _ _ hc hlen, fun s => ?_⟩
  · simp only [HuffTable.built, BitVec.toNat_setWidth]
    exact Nat.mod_eq_of_lt (by simp only [Config.kMax] at hk; omega)
  · simp only [HuffTable.built]
    rw [Ram.read_writeAll _ _ _ hc hlen]
    simp only [Nat.zero_le, true_and, Nat.zero_add, List.length_map, canonical_length, lens_length, Nat.sub_zero]
    split
    · next h =>
      simp
    · rfl

/-- A symbol found in a loadable table (42_huffman.md rule R180). -/
theorem lookup_eq_some {T : HuffTable} {s : BitVec 16} {l : BitVec 5} {c : BitVec 20} :
    T.lookup s = some (l, c) ↔
      s.toNat < T.size.toNat ∧ s.toNat < Config.kMax ∧ l = T.len.read s.toNat ∧ c = T.code.read s.toNat := by
  unfold HuffTable.lookup
  split
  · next h => split
              · next h' => simp [h, h', eq_comm]
              · next h' => simp [h']
  · next h => simp [h]

/-- A table that is not valid finds no symbol (42_huffman.md rule R180). -/
theorem lookup_of_invalid {T : HuffTable} (h : T.size = 0#9) (s : BitVec 16) : T.lookup s = none := by
  simp [HuffTable.lookup, h]

/-- A command that may not write a table leaves it (42_huffman.md rule R178). -/
theorem exec_keeps_table {i : Instr} {s t : State} (j : Fin 6) (h : exec i s = .next t) (hw : writesTable j i = false) :
    t.tables[j] = s.tables[j] := by
  rcases exec_cases h with ⟨_, _, rfl⟩ | ⟨_, _, _, rfl⟩ | ⟨_, _, rfl⟩ | ⟨_, hp⟩
  · rfl
  · rfl
  · rfl
  · cases i <;> simp only [Performed] at hp
    case htSetlen | htBuild =>
      obtain ⟨n, hn, hp⟩ := hp
      simp only [writesTable, loadable_eq_some.mp hn, beq_eq_false_iff_ne, ne_eq, ← Fin.ext_iff] at hw
      first | obtain ⟨_, rfl⟩ := hp | obtain ⟨_, _, rfl⟩ := hp
      exact setTable_get_other s _ hw
    case reset => cases hw
    all_goals first
      | (subst hp; rfl)
      | (obtain ⟨_, rfl⟩ := hp; rfl)
      | (obtain ⟨_, _, rfl⟩ := hp; rfl)
      | (obtain ⟨_, _, _, rfl⟩ := hp; rfl)
      | (obtain ⟨_, _, _, _, rfl⟩ := hp; rfl)

end Sys2Proof.Machine
end

