-- ==== Sys2Proof/Tests/Slice0.lean ====
section
/-! SUPPORT. Small tests, each with its expected result from the spec (95_test_vectors.md by its vector's name, or the rule named),
and a witness for the hypotheses of each statement. -/

namespace Sys2Proof.Tests

open Sys2Proof Sys2Proof.Machine

/-! ## WellFormed: an ill-formed term for each check of 30_encoding.md rule R81 -/

theorem test_wf_bwWrite : (Instr.bwWrite 33 0).wellFormed = false ∧ (Instr.bwWrite 32 0).wellFormed = true := by decide
theorem test_wf_brRead : (Instr.brRead 33).wellFormed = false ∧ (Instr.brRead 0).wellFormed = true := by decide
theorem test_wf_htSetlen_table : (Instr.htSetlen 6 0 1).wellFormed = false ∧ (Instr.htSetlen 5 257 20).wellFormed = true := by
  decide
theorem test_wf_htSetlen_symbol : (Instr.htSetlen 0 258 1).wellFormed = false := by decide
theorem test_wf_htSetlen_length : (Instr.htSetlen 0 0 0).wellFormed = false ∧ (Instr.htSetlen 0 0 21).wellFormed = false := by
  decide
theorem test_wf_htBuild_table : (Instr.htBuild 7 1).wellFormed = false ∧ (Instr.htBuild 0 258).wellFormed = true := by decide
theorem test_wf_htBuild_count : (Instr.htBuild 0 0).wellFormed = false ∧ (Instr.htBuild 0 259).wellFormed = false := by decide
theorem test_wf_htEnc : (Instr.htEnc 6 0).wellFormed = false ∧ (Instr.htEnc 0 258).wellFormed = false ∧
    (Instr.htEnc 7 257).wellFormed = true := by decide
theorem test_wf_htRdcode : (Instr.htRdcode 8 0).wellFormed = false ∧ (Instr.htRdcode 0 258).wellFormed = false ∧
    (Instr.htRdcode 7 0).wellFormed = true := by decide
theorem test_wf_rdReg : (Instr.rdReg 14).wellFormed = false ∧ (Instr.rdReg 16).wellFormed = false ∧
    (Instr.rdReg 15).wellFormed = true := by decide

/-! ## Decoding: one word of every row of the opcode map (30_encoding.md rules R80, R83), written out field by field -/

theorem test_decode_nop : decode 0x00_00_0000_DEADBEEF = .instr .nop := by decide
theorem test_decode_bwWrite : decode 0x01_0C_0000_00000ABC = .instr (.bwWrite 12 0xABC) := by decide
theorem test_decode_bwFlush : decode 0x02_00_0000_00000000 = .instr .bwFlush := by decide
theorem test_decode_brRead : decode 0x03_20_0000_FFFFFFFF = .instr (.brRead 32) := by decide
theorem test_decode_crcInit : decode 0x10_00_0000_00000000 = .instr .crcInit := by decide
theorem test_decode_crcByte : decode 0x11_00_0000_12345661 = .instr (.crcByte 0x61) := by decide
theorem test_decode_crcEnd : decode 0x12_00_0000_00000000 = .instr .crcEnd := by decide
theorem test_decode_crcChkb : decode 0x13_00_0000_648CBB73 = .instr (.crcChkb 0x648CBB73) := by decide
theorem test_decode_crcSinit : decode 0x14_00_0000_00000000 = .instr .crcSinit := by decide
theorem test_decode_crcChks : decode 0x15_00_0000_80000001 = .instr (.crcChks 0x80000001) := by decide
theorem test_decode_htSetlen : decode 0x20_05_0101_FFFFFF14 = .instr (.htSetlen 5 257 20) := by decide
theorem test_decode_htBuild : decode 0x21_01_0102_00000000 = .instr (.htBuild 1 258) := by decide
theorem test_decode_htEnc : decode 0x22_07_0003_00000000 = .instr (.htEnc 7 3) := by decide
theorem test_decode_htRdcode : decode 0x23_00_0002_00000000 = .instr (.htRdcode 0 2) := by decide
theorem test_decode_rdReg : decode 0x30_00_000F_00000000 = .instr (.rdReg 15) := by decide
theorem test_decode_reset : decode 0x3F_00_0000_00000000 = .instr .reset := by decide

/-- V-ENC-3, V-ENC-7, V-ENC-11, V-ENC-15, V-ENC-17: reserved fields; V-ENC-4, V-ENC-5: opcodes not in the map. -/
theorem test_decode_rejects :
    decode 0x00_01_0000_00000000 = .reject (.reservedField 0x00) ∧
    decode 0x01_08_0001_000000FF = .reject (.reservedField 0x01) ∧
    decode 0x11_00_0001_00000061 = .reject (.reservedField 0x11) ∧
    decode 0x30_01_0007_00000000 = .reject (.reservedField 0x30) ∧
    decode 0x3F_00_0001_00000000 = .reject (.reservedField 0x3F) ∧
    decode 0x04_00_0000_00000000 = .reject (.illegalOpcode 0x04) ∧
    decode 0xFF_00_0000_00000000 = .reject (.illegalOpcode 0xFF) := by decide

/-- The examples of 30_encoding.md rules R88 and R89: lines, a `v` wider than `n`, and a 48-bit field. -/
theorem test_assemble :
    (assemble (.bwWrite 12 0xABC)).map (·.map encode) = some [0x01_0C_0000_00000ABC] ∧
    (assemble (.htSetlen 0 3 5)).map (·.map encode) = some [0x20_00_0003_00000005] ∧
    assemble (.bwWrite 4 0xFF) = none ∧ assemble (.bwZeros 33) = none ∧ assemble (.brReadw 65) = none ∧
    assemble (.bwWritew 48 0x314159265359) = some [.bwWrite 16 0x3141, .bwWrite 32 0x59265359] := by decide

/-! ## States the tests start from -/

/-- A block with `OUT_CAP = 4` and `OUT` full (V-BW-13, V-HT-29). -/
def fullOut : State :=
  { State.reset with cfg := { Config.standard with outCap := some 4 }, writer := { acc := 0, cnt := 0, out := [1, 2, 3, 4] } }

/-- A reader with the given bytes, position and end flag. -/
def reading (bytes : List Byte) (pos : Fin 8) (ended : Bool) : State :=
  { State.reset with reader := { bytes, pos, ended } }

/-- Table 0 loaded with [2, 1, 3, 3] and built: codes 10, 0, 110, 111 (V-HT-1). -/
def exampleTable : HuffTable :=
  { len := [(0, 2), (1, 1), (2, 3), (3, 3)], code := [(0, 2), (2, 6), (3, 7)], size := 4 }

def tableBuilt : State := State.reset.setTable 0 exampleTable

/-- The same lengths, not built. -/
def tableLoaded : State := State.reset.setTable 0 { exampleTable with code := [], size := 0 }

/-- The block of V-HT-24: `FIXED_LEN = [1, 2, 3, 3]`, REFLECTED. -/
def fixedBlock : State :=
  State.powerOn { outCap := none, inCap := none, crcVariant := .reflected, fixedLen := [1, 2, 3, 3] }

/-- A sticky `CrcMismatch` (V-CTL-4). -/
def sticky : State := { State.reset with err := 3 }

/-- The word is in the port, and it is the block's turn. -/
def busy (w : CommandWord) (s : State) : State := { s with port := .busy w }

/-- It is the host's turn, with the move. -/
def hostNext (m : HostMove) (s : State) : State := { s with schedule := [.host m] }

/-- The state a command leaves. -/
def after (i : Instr) (s : State) : Option State := nextState? (exec i s)

/-- `(W_CNT, W_ACC, OUT)`. -/
def writerOf (s : State) : Nat × Nat × List Byte := (s.writer.cnt.val, s.writer.acc.toNat, s.writer.out)

/-- `(IN, R_POS, ERR, RESULT)`. -/
def readerOf (s : State) : List Byte × Nat × Nat × Nat := (s.reader.bytes, s.reader.pos.val, s.err.toNat, s.result.toNat)

/-- `(STATUS, ERR)`. -/
def codesOf (s : State) : Nat × Nat := (s.status.toNat, s.err.toNat)

/-! ## One step of each command -/

/-- V-BW-10: 39 bits at once. -/
theorem test_bwWrite :
    (after (.bwWrite 32 0xFFFFFFFF) { State.reset with writer := { acc := 0x7F, cnt := 7, out := [] } }).map writerOf =
      some (7, 0x7F, [0xFF, 0xFF, 0xFF, 0xFF]) := by decide +kernel
/-- V-BW-1, V-BW-7. -/
theorem test_bwWrite_low_bits :
    (after (.bwWrite 12 0xABC) State.reset).map writerOf = some (4, 0xC, [0xAB]) ∧
    (after (.bwWrite 4 0xFF) State.reset).map writerOf = some (4, 0xF, []) := by decide
/-- V-BW-2, V-BW-8. -/
theorem test_bwFlush :
    (after .bwFlush { State.reset with writer := { acc := 0xC, cnt := 4, out := [0xAB] } }).map writerOf =
      some (0, 0, [0xAB, 0xC0]) ∧
    (after .bwFlush State.reset).map writerOf = some (0, 0, []) := by decide
/-- V-BW-13: BW.WRITE 7 completes with a full `OUT`, and then BW.FLUSH holds. -/
theorem test_bw_hold :
    (after (.bwWrite 7 0) fullOut).map writerOf = some (7, 0, [1, 2, 3, 4]) ∧
    (after .bwFlush (busy 0x02_00_0000_00000000 { fullOut with writer := { acc := 0, cnt := 7, out := [1, 2, 3, 4] } })).map
      (fun t => (t.port, t.writer.cnt.val)) = some (.busy 0x02_00_0000_00000000, 7) := by decide
/-- V-BR-2's second read, V-BR-8's first, V-BR-5. -/
theorem test_brRead :
    (after (.brRead 8) (reading [0xA5, 0x3C] 4 false)).map readerOf = some ([0x3C], 4, 0, 0x53) ∧
    (after (.brRead 32) (reading [0x80, 0, 0, 0, 1] 0 false)).map readerOf = some ([1], 0, 0, 0x80000000) ∧
    (after (.brRead 4) (reading [0x3C] 4 true)).map readerOf = some ([], 0, 0, 0xC) := by decide +kernel
/-- V-BR-3, V-BR-4, V-BR-10. -/
theorem test_brRead_short :
    (after (.brRead 5) (busy 0x03_05_0000_00000000 (reading [0x3C] 4 false))).map (·.port) =
      some (.busy 0x03_05_0000_00000000) ∧
    (after (.brRead 5) (reading [0x3C] 4 true)).map readerOf = some ([0x3C], 4, 2, 0) ∧
    (after (.brRead 33) (reading [0xA5] 0 false)).map readerOf = some ([0xA5], 0, 6, 0) := by decide
/-- V-CRC-16. -/
theorem test_crcInit : (after .crcInit { State.reset with crc := 0xE66C6494 }).map (·.crc.toNat) = some 0xFFFFFFFF := by decide
/-- V-CRC-9 and V-CRC-2, both variants. -/
theorem test_crcByte :
    (after (.crcByte 0x61) State.reset).map (·.crc.toNat) = some 0xE66C6494 ∧
    (after (.crcByte 0x61) fixedBlock).map (·.crc.toNat) = some 0x174841BC := by decide +kernel
/-- V-CRC-4: the check string, both variants. -/
theorem test_crc_check :
    (blockCrc .msbFirst [0x31, 0x32, 0x33, 0x34, 0x35, 0x36, 0x37, 0x38, 0x39]).toNat = 0xFC891918 ∧
    (blockCrc .reflected [0x31, 0x32, 0x33, 0x34, 0x35, 0x36, 0x37, 0x38, 0x39]).toNat = 0xCBF43926 := by decide +kernel
/-- V-CRC-10's second block. -/
theorem test_crcEnd :
    (after .crcEnd { State.reset with comb := 0x648CBB73, crc := 0x0376E6E7 }).map
      (fun t => (t.comb.toNat, t.crc.toNat, t.result.toNat)) = some (0x35906FFE, 0xFFFFFFFF, 0xFC891918) := by decide
/-- V-CRC-11: a match, and one bit flipped. -/
theorem test_crcChkb :
    (after (.crcChkb 0x648CBB73) { State.reset with crc := 0x9B73448C }).map
      (fun t => (t.err.toNat, t.result.toNat, t.comb.toNat, t.crc.toNat)) = some (0, 0x648CBB73, 0x648CBB73, 0xFFFFFFFF) ∧
    (after (.crcChkb 0x648CBB72) { State.reset with crc := 0x9B73448C }).map
      (fun t => (t.err.toNat, t.result.toNat, t.comb.toNat, t.crc.toNat)) = some (3, 0, 0, 0x9B73448C) := by decide
/-- V-CRC-17. -/
theorem test_crcSinit :
    (after .crcSinit { State.reset with comb := 5, result := 0x19939B6B }).map (fun t => (t.comb.toNat, t.result.toNat)) =
      some (0, 0x19939B6B) := by decide
/-- V-CRC-12. -/
theorem test_crcChks :
    (after (.crcChks 0x648CBB73) { State.reset with comb := 0x648CBB73 }).map (fun t => (t.err.toNat, t.result.toNat)) =
      some (0, 0x648CBB73) ∧
    (after (.crcChks 1) State.reset).map codesOf = some (3, 3) := by decide
/-- V-HT-21: SETLEN makes the table not valid. -/
theorem test_htSetlen :
    (after (.htSetlen 0 1 2) tableBuilt).map (fun t => (t.tables[0].len, t.tables[0].size.toNat)) =
      some ([(0, 2), (1, 2), (2, 3), (3, 3)], 0) := by decide
/-- V-HT-6, V-HT-7, V-HT-13, V-HT-14, and the order of V-HT-15. -/
theorem test_htSetlen_errors :
    (after (.htSetlen 0 0 0) State.reset).map codesOf = some (1, 1) ∧
    (after (.htSetlen 0 0 21) State.reset).map codesOf = some (1, 1) ∧
    (after (.htSetlen 6 0 1) State.reset).map codesOf = some (5, 5) ∧
    (after (.htSetlen 0 258 1) State.reset).map codesOf = some (5, 5) ∧
    (after (.htSetlen 6 300 0) State.reset).map codesOf = some (5, 5) := by decide
/-- V-HT-1: HT.BUILD gives the example table. -/
theorem test_htBuild : (after (.htBuild 0 4) tableLoaded).map (·.tables[0]) = some exampleTable := by decide +kernel
/-- V-HT-9, V-HT-10, V-HT-11, V-HT-16. -/
theorem test_htBuild_errors :
    (after (.htBuild 0 259) State.reset).map codesOf = some (1, 1) ∧
    (after (.htBuild 0 5) tableLoaded).map codesOf = some (1, 1) ∧
    (after (.htBuild 0 3) (State.reset.setTable 0 { len := [(0, 1), (1, 1), (2, 1)], code := [], size := 0 })).map codesOf =
      some (1, 1) ∧
    (after (.htBuild 7 4) State.reset).map codesOf = some (5, 5) := by decide +kernel
/-- V-HT-17's third symbol, and V-HT-24. -/
theorem test_htEnc :
    (after (.htEnc 0 2) { tableBuilt with writer := { acc := 4, cnt := 3, out := [] } }).map writerOf = some (6, 0x26, []) ∧
    (after (.htEnc 7 3) fixedBlock).map writerOf = some (3, 7, []) := by decide +kernel
/-- V-HT-20, V-HT-22, V-HT-23, V-HT-26, and the hold of V-HT-29. -/
theorem test_htEnc_errors :
    (after (.htEnc 0 4) tableBuilt).map codesOf = some (5, 5) ∧ (after (.htEnc 1 0) State.reset).map codesOf = some (5, 5) ∧
    (after (.htEnc 7 0) State.reset).map codesOf = some (5, 5) ∧ (after (.htEnc 6 0) State.reset).map codesOf = some (5, 5) ∧
    (after (.htEnc 0 2) (busy 0x22_00_0002_00000000
      ({ fullOut with writer := { acc := 0, cnt := 6, out := [1, 2, 3, 4] } }.setTable 0 exampleTable))).map
      (fun t => (t.port, t.writer.cnt.val)) = some (.busy 0x22_00_0002_00000000, 6) := by decide +kernel
/-- V-HT-19, V-HT-25. -/
theorem test_htRdcode :
    (after (.htRdcode 0 2) tableBuilt).map (·.result.toNat) = some 0x03000006 ∧
    (after (.htRdcode 7 1) fixedBlock).map (·.result.toNat) = some 0x02000002 := by decide +kernel
/-- V-HT-2, V-HT-4, V-HT-5b: canonical codes. -/
theorem test_canonical :
    canonical [3, 3, 2, 2, 3, 3] = [4, 5, 0, 1, 6, 7] ∧ canonical [2, 2, 2] = [0, 1, 2] ∧ canonical [20, 20] = [0, 1] ∧
    kraftSum [2, 2, 2] = 0xC0000 := by decide +kernel
/-- V-CTL-1, V-CTL-2's register, V-CTL-3's second command. -/
theorem test_rdReg :
    (after (.rdReg 1) { State.reset with writer := { acc := 0xC, cnt := 4, out := [0xAB] } }).map (·.result.toNat) =
      some 0x00000C04 ∧
    (after (.rdReg 2) (reading [1, 2, 3] 3 false)).map (·.result.toNat) = some 0x00030003 ∧
    (after (.rdReg 0) sticky).map (fun t => (t.result.toNat, t.status.toNat, t.err.toNat)) = some (3, 0, 3) := by decide
/-- The registers of 95_test_vectors.md section 3.5, and V-CTL-5. -/
theorem test_rdReg_params :
    (after (.rdReg 7) State.reset).map (·.result.toNat) = some 0x00140620 ∧
    (after (.rdReg 7) fixedBlock).map (·.result.toNat) = some 0x01140620 ∧
    (after (.rdReg 6) fixedBlock).map (·.result.toNat) = some 0x80 ∧
    (after (.rdReg 15) fixedBlock).map (·.result.toNat) = some 4 ∧ (after (.rdReg 14) sticky).map codesOf = some (6, 3) := by
  decide
/-- V-CTL-9. -/
theorem test_nop : (after .nop { State.reset with result := 7, status := 2 }).map (fun t => (t.status.toNat, t.result.toNat)) =
    some (0, 7) := by decide
/-- V-CTL-8, with V-CTL-7's sticky error. -/
theorem test_reset :
    (after .reset { reading [9] 0 true with err := 3, writer := { acc := 5, cnt := 3, out := [0xAA] } }).map
      (fun t => (writerOf t, readerOf t, t.reader.ended)) = some ((0, 0, []), ([], 0, 0, 0), false) := by decide

/-! ## Steps -/

/-- The interface's word placed after reset runs: V-ENC-8, V-ENC-17, V-ENC-4. -/
theorem test_step_fetch :
    (nextState? (step (State.reset.withFetchWord 64 0x01_20_0000_FFFFFFFF))).map writerOf =
      some (0, 0, [0xFF, 0xFF, 0xFF, 0xFF]) ∧
    (nextState? (step (State.reset.withFetchWord 64 0x3F_00_0001_00000000))).map codesOf = some (6, 6) ∧
    (nextState? (step (State.reset.withFetchWord 64 0x04_00_0000_00000000))).map codesOf = some (6, 6) := by decide +kernel
/-- V-CTL-4, V-CTL-6, and an illegal opcode under a sticky error (60_exceptions.md rule R234). -/
theorem test_step_sticky :
    (nextState? (step (busy 0x01_08_0000_000000FF sticky))).map (fun t => (codesOf t, t.writer.out)) = some ((3, 3), []) ∧
    (nextState? (step (busy 0x3F_00_0001_00000000 sticky))).map codesOf = some (6, 3) ∧
    (nextState? (step (busy 0x04_00_0000_00000000 sticky))).map codesOf = some (3, 3) := by decide
/-- 60_exceptions.md rule R236: BW.WRITE 40 with a full `OUT` is `IllegalCommand`, not a hold. -/
theorem test_priority : (nextState? (step (busy 0x01_28_0000_00000000 fullOut))).map codesOf = some (6, 6) := by decide
/-- 20_memory.md rules R60 to R64. -/
theorem test_host_moves :
    (nextState? (step (hostNext (.push 0x5A) State.reset))).map (·.reader.bytes) = some [0x5A] ∧
    (nextState? (step (hostNext .endOfInput State.reset))).map (·.reader.ended) = some true ∧
    (nextState? (step (hostNext .pop fullOut))).map (fun t => (t.writer.out, t.popped)) = some ([2, 3, 4], [1]) ∧
    (nextState? (step (hostNext (.issue 7) State.reset))).map (·.port) = some (.busy 7) ∧
    (nextState? (step (hostNext .collect { State.reset with status := 2, result := 9 }))).map (·.collected) =
      some [{ status := 2, result := 9 }] := by decide
/-- 20_memory.md rule R66: a command in the port is discarded. -/
theorem test_host_reset :
    (nextState? (step (hostNext .hardReset (busy 7 sticky)))).map (fun t => (t.port, t.err.toNat, t.ci)) = some (.idle, 0, 0) := by
  decide
/-- The reset values of 10_state.md rule R39. -/
theorem test_reset_state :
    State.reset.port = .idle ∧ codesOf State.reset = (0, 0) ∧ writerOf State.reset = (0, 0, []) ∧
    State.reset.crc = 0xFFFFFFFF ∧ State.reset.comb = 0 ∧ State.reset.ci = 0 := by decide

/-! ## Witnesses: for each statement with hypotheses, concrete values that meet them together, clause by clause -/

theorem busy_turn (w : CommandWord) (s : State) (hl : s.cfg.legal = true) (hs : s.schedule = []) :
    BlockTurn (busy w s) (busy w s) w :=
  ⟨hl, by simp [State.nextTurn, busy, hs], rfl⟩

theorem host_turn (m : HostMove) (s : State) (hl : s.cfg.legal = true) (hs : s.schedule = []) : HostTurn (hostNext m s) s m :=
  ⟨hl, by obtain ⟨⟩ := s; simp only at hs; subst hs; rfl⟩

theorem test_witness_EncodeInvertsDecodeOnUsedBits : decode 0x20_05_0101_FFFFFF14 = .instr (.htSetlen 5 257 20) := by decide

/-- Opcodes at the ends of the ranges, on the block's turn with no sticky error. -/
theorem test_witness_OpcodesOutsideTheMapAreIllegal :
    BlockTurn (busy 0x04_00_0000_00000000 State.reset) (busy 0x04_00_0000_00000000 State.reset) 0x04_00_0000_00000000 ∧
    (busy 0x04_00_0000_00000000 State.reset).err = 0#4 ∧ illegalOpc (opcField 0x04_00_0000_00000000) = true ∧
    [0x0F, 0x16, 0x1F, 0x24, 0x2F, 0x31, 0x3E, 0x40, 0xFF].all illegalOpc = true ∧
    [0x03, 0x10, 0x15, 0x20, 0x23, 0x30, 0x3F].any illegalOpc = false :=
  ⟨busy_turn _ _ (by decide) rfl, by decide, by decide, by decide, by decide⟩

theorem test_witness_ReservedFieldsFailAndUnusedDataIsIgnored :
    (reservedNonzero 0x11 1 0 ∧
      BlockTurn (busy (ofFields 0x11 1 0 0) State.reset) (busy (ofFields 0x11 1 0 0) State.reset) (ofFields 0x11 1 0 0) ∧
      (busy (ofFields 0x11 1 0 0) State.reset).err = 0#4) ∧
    (reservedNonzero 0x30 1 7 ∧ BlockTurn (busy (ofFields 0x30 1 7 0) sticky) (busy (ofFields 0x30 1 7 0) sticky)
      (ofFields 0x30 1 7 0)) ∧
    (reservedNonzero 0x3F 0 1 ∧ BlockTurn (busy (ofFields 0x3F 0 1 0) sticky) (busy (ofFields 0x3F 0 1 0) sticky)
      (ofFields 0x3F 0 1 0)) ∧
    ignoresD 0x23 = true ∧ (0x12345661 : Word).setWidth 8 = (0x61 : Word).setWidth 8 ∧
    (∀ i, i < (4 : BitVec 8).toNat → (0xFF : Word).getLsbD i = (0x0F : Word).getLsbD i) :=
  ⟨⟨.inl (by decide), busy_turn _ _ (by decide) rfl, rfl⟩, ⟨.inr (.inr (by decide)), busy_turn _ _ (by decide) rfl⟩,
    ⟨.inl (by decide), busy_turn _ _ (by decide) rfl⟩, by decide, by decide, by decide⟩

theorem test_witness_PseudoCommandsExpandAsTheTableShows :
    (32 : Nat) ≤ 32 ∧ ((33 : Nat) ≤ 33 ∧ (33 : Nat) ≤ 64 ∧ 2 ^ 33 - 1 < 2 ^ 33) ∧ ((33 : Nat) ≤ 64 ∧ 2 ^ 64 - 1 < 2 ^ 64) ∧
    ([2, 1, 3, 3] : List (BitVec 8)).length < 2 ^ 16 := by decide

theorem test_witness_StepRunsTheCommandInThePort :
    (BlockTurn (busy 0 State.reset) (busy 0 State.reset) 0 ∧ decode 0 = .instr .nop) ∧
    (BlockTurn (busy 0x0001000000000000 State.reset) (busy 0x0001000000000000 State.reset) 0x0001000000000000 ∧
      decode 0x0001000000000000 = .reject (.reservedField 0)) ∧
    (State.reset.cfg.legal = true ∧ State.reset.nextTurn = (.block, State.reset) ∧ State.reset.port = .idle) ∧
    HostTurn (hostNext .collect State.reset) State.reset .collect :=
  ⟨⟨busy_turn _ _ (by decide) rfl, by decide⟩, ⟨busy_turn _ _ (by decide) rfl, by decide⟩,
    ⟨by decide, rfl, rfl⟩, host_turn _ _ (by decide) rfl⟩

theorem test_witness_EveryWordEndsInOneOfThreeOutcomes :
    BlockTurn (busy 0x0301000000000000 State.reset) (busy 0x0301000000000000 State.reset) 0x0301000000000000 :=
  busy_turn _ _ (by decide) rfl

/-- A command that completes, one that holds, a RESET, a word that is no command, and the two kinds of host move. -/
theorem test_witness_CompletedCommandsAdvanceTheIndex :
    ((busy 0 State.reset).port = .busy 0 ∧ ∃ t, exec .nop (busy 0 State.reset) = .next t ∧ t.port = .idle) ∧
    (∃ t, exec (.brRead 1) (busy 0x0301000000000000 State.reset) = .next t ∧ t.port = .busy 0x0301000000000000) ∧
    (∃ t, exec .reset (busy 0x3F00000000000000 State.reset) = .next t ∧ t.ci = 0) ∧
    (BlockTurn (busy 0xFF00000000000000 State.reset) (busy 0xFF00000000000000 State.reset) 0xFF00000000000000 ∧
      decode 0xFF00000000000000 = .reject (.illegalOpcode 0xFF)) ∧
    (HostTurn (hostNext .endOfInput State.reset) State.reset .endOfInput ∧
      ∃ t, step (hostNext .endOfInput State.reset) = .next t) ∧
    (HostTurn (hostNext .hardReset sticky) sticky .hardReset ∧ ∃ t, step (hostNext .hardReset sticky) = .next t) :=
  ⟨⟨rfl, _, rfl, rfl⟩, ⟨_, rfl, rfl⟩, ⟨_, rfl, rfl⟩, ⟨busy_turn _ _ (by decide) rfl, by decide⟩,
    ⟨host_turn _ _ (by decide) rfl, _, rfl⟩, ⟨host_turn _ _ (by decide) rfl, _, rfl⟩⟩

theorem test_witness_ErrorsChangeOnlyStatusAndErr :
    BlockTurn (busy 0xFF00000000000000 State.reset) (busy 0xFF00000000000000 State.reset) 0xFF00000000000000 ∧
    (busy 0xFF00000000000000 State.reset).err = 0#4 ∧
    ∃ t, step (busy 0xFF00000000000000 State.reset) = .next t ∧ t.port = .idle ∧ t.status ≠ 0#4 :=
  ⟨busy_turn _ _ (by decide) rfl, rfl, _, rfl, rfl, by decide⟩

theorem test_witness_StickyErrorTurnsCommandsAway :
    (BlockTurn (busy 0 sticky) (busy 0 sticky) 0 ∧ (busy 0 sticky).err ≠ 0#4 ∧ opcField 0 ≠ 0x30#8 ∧ opcField 0 ≠ 0x3F#8) ∧
    legalRegister 0 = true ∧ legalRegister 13 = true ∧ legalRegister 15 = true :=
  ⟨⟨busy_turn _ _ (by decide) rfl, by decide, by decide, by decide⟩, by decide, by decide, by decide⟩

/-- Both ways: a RESET command and the hardware reset. -/
theorem test_witness_OnlyAResetClearsErr :
    (∃ t, step (busy 0x3F00000000000000 sticky) = .next t ∧ (busy 0x3F00000000000000 sticky).err ≠ 0#4 ∧
      t.err ≠ (busy 0x3F00000000000000 sticky).err) ∧
    ∃ t, step (hostNext .hardReset sticky) = .next t ∧ (hostNext .hardReset sticky).err ≠ 0#4 ∧
      t.err ≠ (hostNext .hardReset sticky).err :=
  ⟨⟨_, rfl, by decide, by decide⟩, _, rfl, by decide, by decide⟩

/-- Legal at the least capacities, illegal one below; a complete fixed table, and an over-subscribed one. -/
theorem test_witness_IllegalConfigurationsAreRefused :
    Config.legal { Config.standard with outCap := some 4, inCap := some 5 } = true ∧
    Config.legal { Config.standard with outCap := some 3 } = false ∧
    Config.legal { Config.standard with inCap := some 4 } = false ∧ fixedBlock.cfg.legal = true ∧
    Config.legal { Config.standard with fixedLen := [1, 1, 20] } = false ∧
    Config.legal { Config.standard with fixedLen := [0] } = false ∧
    Config.legal { Config.standard with fixedLen := [21] } = false := by decide

/-- Room for exactly one byte; a full FIFO; an ended input. -/
theorem test_witness_PushAppendsAByteToTheInput :
    (let s := { reading [1, 2, 3, 4] 0 false with cfg := { Config.standard with inCap := some 5 } }
     HostTurn (hostNext (.push 9) s) s (.push 9) ∧ s.reader.ended = false ∧
       ∀ c, s.cfg.inCap = some c → s.reader.bytes.length < c) ∧
    (let s := { reading [1, 2, 3, 4, 5] 0 false with cfg := { Config.standard with inCap := some 5 } }
     HostTurn (hostNext (.push 9) s) s (.push 9) ∧ ∃ c, s.cfg.inCap = some c ∧ c ≤ s.reader.bytes.length) ∧
    (let s := reading [] 0 true
     HostTurn (hostNext (.push 9) s) s (.push 9) ∧ s.reader.ended = true) :=
  ⟨⟨host_turn _ _ (by decide) rfl, rfl, fun c h => by cases h; decide⟩,
    ⟨host_turn _ _ (by decide) rfl, 5, rfl, by decide⟩, ⟨host_turn _ _ (by decide) rfl, rfl⟩⟩

theorem test_witness_EndSetsEndOfInput :
    HostTurn (hostNext .endOfInput State.reset) State.reset .endOfInput ∧
    HostTurn (hostNext .endOfInput (reading [] 0 true)) (reading [] 0 true) .endOfInput ∧
    (reading [] 0 true).reader.ended = true :=
  ⟨host_turn _ _ (by decide) rfl, host_turn _ _ (by decide) rfl, rfl⟩

theorem test_witness_PopTakesTheOldestOutputByte :
    (HostTurn (hostNext .pop fullOut) fullOut .pop ∧ fullOut.writer.out = 1 :: [2, 3, 4]) ∧
    HostTurn (hostNext .pop State.reset) State.reset .pop ∧ State.reset.writer.out = [] :=
  ⟨⟨host_turn _ _ (by decide) rfl, rfl⟩, host_turn _ _ (by decide) rfl, rfl⟩

theorem test_witness_IssuePutsTheWordInAnIdlePort :
    (HostTurn (hostNext (.issue 7) State.reset) State.reset (.issue 7) ∧ State.reset.port = .idle) ∧
    (HostTurn (hostNext (.issue 7) (busy 0 State.reset)) (busy 0 State.reset) (.issue 7) ∧
      (busy 0 State.reset).port ≠ .idle) ∧
    (HostTurn (hostNext (.push 9) (busy 0 State.reset)) (busy 0 State.reset) (.push 9) ∧ (busy 0 State.reset).port = .busy 0 ∧
      HostMove.push 9 ≠ .hardReset ∧ ∃ t, step (hostNext (.push 9) (busy 0 State.reset)) = .next t) :=
  ⟨⟨host_turn _ _ (by decide) rfl, rfl⟩, ⟨host_turn _ _ (by decide) rfl, by decide⟩,
    ⟨host_turn _ _ (by decide) rfl, rfl, by decide, _, rfl⟩⟩

theorem test_witness_CollectReadsTheCompletion :
    (HostTurn (hostNext .collect State.reset) State.reset .collect ∧ State.reset.port = .idle) ∧
    (HostTurn (hostNext .collect (busy 0 State.reset)) (busy 0 State.reset) .collect ∧ (busy 0 State.reset).port ≠ .idle) ∧
    ((hostNext (.issue 7) State.reset).port = .idle ∧
      (hostNext (.issue 7) State.reset).nextTurn = (.host (.issue 7), State.reset) ∧ HostMove.issue 7 ≠ .hardReset ∧
      ∃ t, step (hostNext (.issue 7) State.reset) = .next t) :=
  ⟨⟨host_turn _ _ (by decide) rfl, rfl⟩, ⟨host_turn _ _ (by decide) rfl, by decide⟩, ⟨rfl, rfl, by decide, _, rfl⟩⟩

theorem test_witness_HardwareResetGivesTheResetState :
    HostTurn (hostNext .hardReset (busy 7 sticky)) (busy 7 sticky) .hardReset := host_turn _ _ (by decide) rfl

/-- `n = 33`; a full `OUT` and `n` that needs one byte; the same `OUT` and `n = 7`, which needs none; `n = 32` unbounded. -/
theorem test_witness_BwWriteWritesTheLowBitsMsbFirst :
    (State.reset.err = 0#4 ∧ 32 < (33 : BitVec 8).toNat) ∧
    (fullOut.err = 0#4 ∧ (8 : BitVec 8).toNat ≤ 32 ∧ ∃ c, fullOut.cfg.outCap = some c ∧
      c - fullOut.writer.out.length < (fullOut.writer.cnt.val + (8 : BitVec 8).toNat) / 8) ∧
    ((7 : BitVec 8).toNat ≤ 32 ∧ (∀ c, fullOut.cfg.outCap = some c →
      (fullOut.writer.cnt.val + (7 : BitVec 8).toNat) / 8 ≤ c - fullOut.writer.out.length) ∧ fullOut.writer.Ok) ∧
    ((32 : BitVec 8).toNat ≤ 32 ∧ (∀ c, State.reset.cfg.outCap = some c →
      (State.reset.writer.cnt.val + (32 : BitVec 8).toNat) / 8 ≤ c - State.reset.writer.out.length) ∧ State.reset.writer.Ok) :=
  ⟨⟨rfl, by decide⟩, ⟨rfl, by decide, 4, rfl, by decide⟩, ⟨by decide, fun c h => (by cases h; decide), by decide⟩,
    ⟨by decide, fun c h => (by cases h), by decide⟩⟩

theorem test_witness_BwFlushPadsThePendingBitsWithZeros :
    (State.reset.err = 0#4 ∧ State.reset.writer.cnt = 0) ∧
    (let s := { fullOut with writer := { acc := 0, cnt := 7, out := [1, 2, 3, 4] } }
     s.err = 0#4 ∧ s.writer.cnt ≠ 0 ∧ ∃ c, s.cfg.outCap = some c ∧ c - s.writer.out.length < 1) ∧
    (let s := { fullOut with writer := { acc := 1, cnt := 1, out := [1, 2, 3] } }
     s.err = 0#4 ∧ s.writer.cnt ≠ 0 ∧ (∀ c, s.cfg.outCap = some c → 1 ≤ c - s.writer.out.length) ∧ s.writer.Ok) :=
  ⟨⟨rfl, rfl⟩, ⟨rfl, by decide, 4, rfl, by decide⟩, ⟨rfl, by decide, fun c h => (by cases h; decide), by decide⟩⟩

/-- `n = 33`; one bit more than is left, ended and not; exactly the bits that are left; `n = 0` of nothing. -/
theorem test_witness_BrReadTakesTheNextBits :
    (State.reset.err = 0#4 ∧ 32 < (33 : BitVec 8).toNat) ∧
    (let s := reading [0x3C] 4 true
     s.err = 0#4 ∧ (5 : BitVec 8).toNat ≤ 32 ∧ 8 * s.reader.bytes.length - s.reader.pos.val < (5 : BitVec 8).toNat ∧
       s.reader.ended = true ∧ (4 : BitVec 8).toNat ≤ 8 * s.reader.bytes.length - s.reader.pos.val) ∧
    (let s := reading [0x3C] 4 false
     8 * s.reader.bytes.length - s.reader.pos.val < (5 : BitVec 8).toNat ∧ s.reader.ended = false) ∧
    (0 : BitVec 8).toNat ≤ 8 * State.reset.reader.bytes.length - State.reset.reader.pos.val := by decide

/-- The one premise of the results of CRC.INIT, CRC.BYTE, CRC.END and CRC.SINIT. -/
theorem test_witness_CrcResults : State.reset.err = 0#4 ∧ fixedBlock.err = 0#4 := by decide

theorem test_witness_CrcChkbVerifiesTheBlockChecksum :
    State.reset.err = 0#4 ∧ State.reset.crc ^^^ 0xFFFFFFFF#32 = 0 ∧ State.reset.crc ^^^ 0xFFFFFFFF#32 ≠ 1 := by decide

theorem test_witness_CrcChksVerifiesTheStreamChecksum :
    State.reset.err = 0#4 ∧ State.reset.comb = 0 ∧ State.reset.comb ≠ 1 := by decide

theorem test_witness_AFlippedInputBitChangesTheBlockChecksum : (0 : Nat) < 8 ∧ (7 : Nat) < 8 := by decide

theorem test_witness_CombinedChecksumIsTheXorOfRotatedBlocks : combine 3 5 = combine 3 5 := rfl

/-- Each clause at the edge of its range. -/
theorem test_witness_HtSetlenSetsOneLength :
    State.reset.err = 0#4 ∧ (5 < (6 : BitVec 8).toNat ∧ 257 < (258 : BitVec 16).toNat) ∧
    ((5 : BitVec 8).toNat ≤ 5 ∧ (257 : BitVec 16).toNat ≤ 257 ∧ (0 : BitVec 8).toNat < 1 ∧ 20 < (21 : BitVec 8).toNat) ∧
    ((5 : BitVec 8).toNat = (5 : Fin 6).val ∧ 1 ≤ (1 : BitVec 8).toNat ∧ (20 : BitVec 8).toNat ≤ 20) := by decide

/-- A refused selector, the four reasons of `MalformedInput`, and a table that is built. -/
theorem test_witness_HtBuildAssignsTheCanonicalCodes :
    tableLoaded.err = 0#4 ∧ 5 < (6 : BitVec 8).toNat ∧ (0 : BitVec 8).toNat = (0 : Fin 6).val ∧
    ((0 : BitVec 16).toNat < 1 ∧ 258 < (259 : BitVec 16).toNat ∧
      ((4 : Nat) < (5 : BitVec 16).toNat ∧ tableLoaded.tables[(0 : Fin 6)].len.read 4 = 0) ∧
      2 ^ 20 < kraftSum (HuffTable.lens { len := [(0, 1), (1, 1), (2, 1)], code := [], size := 0 } 3)) ∧
    (1 ≤ (4 : BitVec 16).toNat ∧ (4 : BitVec 16).toNat ≤ 258 ∧
      (∀ j, j < (4 : BitVec 16).toNat → tableLoaded.tables[(0 : Fin 6)].len.read j ≠ 0) ∧
      kraftSum (tableLoaded.tables[(0 : Fin 6)].lens (4 : BitVec 16).toNat) ≤ 2 ^ 20 ∧
      tableLoaded.tables[(0 : Fin 6)].code.wf = true) := by decide +kernel

/-- The last symbol of a table and the first past it, both tables; a missing table; the error's premise. -/
theorem test_witness_TableLookupFindsTheLengthAndCode :
    ((0 : BitVec 8).toNat = (0 : Fin 6).val ∧ tableBuilt.tables[(0 : Fin 6)].size.toNat ≤ 258 ∧
      (3 : BitVec 16).toNat < tableBuilt.tables[(0 : Fin 6)].size.toNat ∧
      tableBuilt.tables[(0 : Fin 6)].size.toNat ≤ (4 : BitVec 16).toNat) ∧
    (fixedBlock.cfg.fixedLen[(3 : BitVec 16).toNat]? = some 3 ∧ fixedBlock.cfg.fixedLen.length ≤ (4 : BitVec 16).toNat) ∧
    ((6 : BitVec 8).toNat = 6 ∧ 8 ≤ (8 : BitVec 8).toNat) ∧
    (State.reset.err = 0#4 ∧ State.reset.lookup 1 0 = none) := by decide

/-- No such symbol; a symbol that does not fit a full `OUT`; a symbol that needs no byte of it. -/
theorem test_witness_HtEncWritesTheCodeOfItsSymbol :
    (State.reset.err = 0#4 ∧ State.reset.lookup 6 0 = none) ∧
    (let s := ({ fullOut with writer := { acc := 0, cnt := 6, out := [1, 2, 3, 4] } }.setTable 0 exampleTable)
     s.err = 0#4 ∧ s.lookup 0 2 = some (3, 6) ∧
       ∃ cap, s.cfg.outCap = some cap ∧ cap - s.writer.out.length < (s.writer.cnt.val + (3 : BitVec 5).toNat) / 8) ∧
    (let s := fullOut.setTable 0 exampleTable
     s.lookup 0 0 = some (2, 2) ∧
       (∀ cap, s.cfg.outCap = some cap → (s.writer.cnt.val + (2 : BitVec 5).toNat) / 8 ≤ cap - s.writer.out.length) ∧
       s.writer.Ok) :=
  ⟨⟨rfl, by decide⟩, ⟨rfl, by decide, 4, rfl, by decide⟩, ⟨by decide, fun c h => (by cases h; decide), by decide⟩⟩

theorem test_witness_HtRdcodeReturnsTheLengthAndCode :
    (State.reset.err = 0#4 ∧ State.reset.lookup 6 0 = none) ∧
    tableBuilt.err = 0#4 ∧ tableBuilt.lookup 0 2 = some (3, 6) := by decide

theorem test_witness_ATableIsUsedOnlyWithTheCodesLastBuilt :
    (∃ u, exec (.htSetlen 0 1 2) tableBuilt = .next u ∧ (0 : BitVec 8).toNat ≠ (1 : Fin 6).val ∧ tableBuilt.err = 0#4 ∧
      u.status = 0#4) ∧
    (∃ u, exec (.htBuild 0 4) tableLoaded = .next u ∧ (0 : BitVec 8).toNat = (0 : Fin 6).val ∧ tableLoaded.err = 0#4 ∧
      tableLoaded.tables[(0 : Fin 6)].code.wf = true ∧ u.status = 0#4 ∧ (3 : BitVec 16).toNat < (4 : BitVec 16).toNat) ∧
    (∃ u, step (busy 0x2000000100000002 tableBuilt) = .next u ∧
      u.tables[(0 : Fin 6)] ≠ (busy 0x2000000100000002 tableBuilt).tables[(0 : Fin 6)]) ∧
    (∃ u, step (busy 0x2100000400000000 tableLoaded) = .next u ∧
      (busy 0x2100000400000000 tableLoaded).tables[(0 : Fin 6)].size = 0#9 ∧ u.tables[(0 : Fin 6)].size ≠ 0#9) ∧
    (tableLoaded.err = 0#4 ∧ (0 : BitVec 8).toNat = (0 : Fin 6).val ∧ tableLoaded.tables[(0 : Fin 6)].size = 0#9) := by
  refine ⟨?_, ?_, ?_, ?_, rfl, rfl, rfl⟩
  · exact ⟨_, rfl, by decide, rfl, rfl⟩
  · have hb : tableLoaded.tables[(0 : Fin 6)].buildable 4 = true := by decide +kernel
    have hx : exec (.htBuild 0 4) tableLoaded =
        .next (tableLoaded.setTable 0 (tableLoaded.tables[(0 : Fin 6)].built 4)).complete := by
      simp only [exec, execHtBuild, loadable, unlessSticky_of_clear (show tableLoaded.err = 0#4 from rfl)]
      exact if_pos hb
    exact ⟨_, hx, rfl, rfl, by decide, rfl, by decide⟩
  · exact ⟨_, rfl, by decide⟩
  · let s := busy 0x2100000400000000 tableLoaded
    have hb : s.tables[(0 : Fin 6)].buildable 4 = true := by decide +kernel
    have hd : decode 0x2100000400000000 = .instr (.htBuild 0 4) := by decide
    have hx : step s = .next (s.setTable 0 (s.tables[(0 : Fin 6)].built 4)).complete := by
      have ht := busy_turn 0x2100000400000000 tableLoaded (by decide) rfl
      simp only [step, s, ht.legal, ht.turn, blockTurn, ht.busy, hd, exec, execHtBuild, loadable, if_true,
        unlessSticky_of_clear (show (busy 0x2100000400000000 tableLoaded).err = 0#4 from rfl)]
      exact if_pos hb
    exact ⟨_, hx, rfl, by decide⟩

/-- The length array of V-HT-1: in range, admissible and complete; symbol 3 is the last of the greatest length. -/
theorem test_witness_CanonicalCodes :
    (∀ l ∈ [2, 1, 3, 3], 1 ≤ l ∧ l ≤ 20) ∧ 3 < [2, 1, 3, 3].length ∧ admissible [2, 1, 3, 3] = true ∧
    kraftSum [2, 1, 3, 3] = 2 ^ 20 ∧ [2, 1, 3, 3].getD 2 0 = [2, 1, 3, 3].getD 3 0 ∧
    (∀ u, u < [2, 1, 3, 3].length → [2, 1, 3, 3].getD u 0 ≤ [2, 1, 3, 3].getD 3 0) ∧
    (∀ u, u < [2, 1, 3, 3].length → 3 < u → [2, 1, 3, 3].getD u 0 < [2, 1, 3, 3].getD 3 0) ∧
    admissible [20, 20] = true := by decide

/-- The premise of the sticky clause of every command's statement. -/
theorem test_witness_RefusedWhileSticky : sticky.err ≠ 0#4 := by decide

theorem test_witness_NopOnlyCompletes : State.reset.err = 0#4 ∧ sticky.err ≠ 0#4 := by decide

/-- The reserved numbers, and the registers at the ends of the map. -/
theorem test_witness_RdRegReadsTheRegisterMap :
    (14 : BitVec 16).toNat = 14 ∧ 15 < (16 : BitVec 16).toNat ∧ fixedBlock.cfg.legal = true ∧
    (0 : BitVec 16).toNat ≤ 13 ∧ (13 : BitVec 16).toNat = 8 + (5 : Fin 6).val ∧ (15 : BitVec 16).toNat = 15 := by decide

/-- A command that performs, and one that ends in an error. -/
theorem test_witness_CommandFrames :
    (∃ t, exec .crcEnd State.reset = .next t ∧ writesWriter .crcEnd = false ∧ writesResult .bwFlush = false) ∧
    ∃ t, exec (.rdReg 14) State.reset = .next t ∧ t.status ≠ 0#4 :=
  ⟨⟨_, rfl, rfl, rfl⟩, ⟨_, rfl, by decide⟩⟩

/-- A write that performs, a word that is no command, an idle port, and a POP. -/
theorem test_witness_TheOutputStreamIsTheBitsWritten :
    (BlockTurn (busy 0x0103000000000005 State.reset) (busy 0x0103000000000005 State.reset) 0x0103000000000005 ∧
      decode 0x0103000000000005 = .instr (.bwWrite 3 5) ∧ (busy 0x0103000000000005 State.reset).writer.Ok ∧
      ∃ t, step (busy 0x0103000000000005 State.reset) = .next t ∧ t.port = .idle ∧ t.status = 0#4) ∧
    (BlockTurn (busy 0x0400000000000000 State.reset) (busy 0x0400000000000000 State.reset) 0x0400000000000000 ∧
      decode 0x0400000000000000 = .reject (.illegalOpcode 4) ∧
      ∃ t, step (busy 0x0400000000000000 State.reset) = .next t ∧ t.status ≠ 0#4) ∧
    (State.reset.nextTurn = (.block, State.reset) ∧ State.reset.port = .idle ∧ ∃ t, step State.reset = .next t) ∧
    (HostTurn (hostNext .pop fullOut) fullOut .pop ∧ ∃ t, step (hostNext .pop fullOut) = .next t) :=
  ⟨⟨busy_turn _ _ (by decide) rfl, by decide, by decide, _, rfl, rfl, rfl⟩,
    ⟨busy_turn _ _ (by decide) rfl, by decide, _, rfl, by decide⟩, ⟨rfl, rfl, _, rfl⟩,
    ⟨host_turn _ _ (by decide) rfl, _, rfl⟩⟩

/-- A PUSH, another move, a read that performs, one that holds, a command that reads nothing, a word that is no command, and an
idle port. -/
theorem test_witness_TheInputStreamIsReadInOrder :
    (let s := reading [0x3C] 4 false
     HostTurn (hostNext (.push 9) s) s (.push 9) ∧ (hostNext (.push 9) s).reader.Ok ∧
       ∃ t, step (hostNext (.push 9) s) = .next t) ∧
    (HostTurn (hostNext .endOfInput State.reset) State.reset .endOfInput ∧
      ∃ t, step (hostNext .endOfInput State.reset) = .next t) ∧
    (let s := busy 0x0304000000000000 (reading [0x3C] 4 false)
     BlockTurn s s 0x0304000000000000 ∧ decode 0x0304000000000000 = .instr (.brRead 4) ∧
       ∃ t, step s = .next t ∧ t.port = .idle ∧ t.status = 0#4) ∧
    (let s := busy 0x0305000000000000 (reading [0x3C] 4 false)
     BlockTurn s s 0x0305000000000000 ∧ decode 0x0305000000000000 = .instr (.brRead 5) ∧
       ∃ t, step s = .next t ∧ t.port ≠ .idle) ∧
    (BlockTurn (busy 0 State.reset) (busy 0 State.reset) 0 ∧ decode 0 = .instr .nop ∧
      ∃ t, step (busy 0 State.reset) = .next t) ∧
    (BlockTurn (busy 0x0301000100000000 State.reset) (busy 0x0301000100000000 State.reset) 0x0301000100000000 ∧
      decode 0x0301000100000000 = .reject (.reservedField 3) ∧ ∃ t, step (busy 0x0301000100000000 State.reset) = .next t) ∧
    (State.reset.nextTurn = (.block, State.reset) ∧ State.reset.port = .idle ∧ ∃ t, step State.reset = .next t) :=
  ⟨⟨host_turn _ _ (by decide) rfl, by decide, _, rfl⟩, ⟨host_turn _ _ (by decide) rfl, _, rfl⟩,
    ⟨busy_turn _ _ (by decide) rfl, by decide, _, rfl, rfl, rfl⟩,
    ⟨busy_turn _ _ (by decide) rfl, by decide, _, rfl, by decide⟩, ⟨busy_turn _ _ (by decide) rfl, by decide, _, rfl⟩,
    ⟨busy_turn _ _ (by decide) rfl, by decide, _, rfl⟩, ⟨rfl, rfl, _, rfl⟩⟩

/-- The fields of V-BW-3, then 12 bits: the run completes and leaves B3 AB C0, which a reader then holds. -/
theorem test_witness_FieldsWrittenAreReadBack :
    State.reset.err = 0#4 ∧ State.reset.writer = { acc := 0, cnt := 0, out := [] } ∧ State.reset.cfg.outCap = none ∧
    (∀ f ∈ ([(3, 5), (5, 0x13), (12, 0xABC)] : List (BitVec 8 × Word)), f.1.toNat ≤ 32) ∧
    (runCommands [.bwWrite 3 5, .bwWrite 5 0x13, .bwWrite 12 0xABC, .bwFlush] State.reset).map (fun r => r.2.writer.out) =
      some [0xB3, 0xAB, 0xC0] ∧
    (reading [0xB3, 0xAB, 0xC0] 0 false).err = 0#4 ∧ (reading [0xB3, 0xAB, 0xC0] 0 false).reader.bytes = [0xB3, 0xAB, 0xC0] ∧
    (reading [0xB3, 0xAB, 0xC0] 0 false).reader.pos = 0 :=
  ⟨rfl, rfl, rfl, by simp, by decide +kernel, rfl, rfl, rfl⟩

/-- The example table meets the table's invariant. -/
theorem exampleTable_ok : exampleTable.Ok where
  lenRam := by decide
  codeRam := by decide
  lengths s := by
    simp only [exampleTable, Ram.read]
    split
    · decide
    · split
      · decide
      · split
        · decide
        · split <;> decide
  count := by decide
  valid _ := by decide +kernel
  codes _ s hs := by
    have h : ∀ k : Fin 4, (canonical (exampleTable.lens exampleTable.size.toNat))[k.val]? =
        some (exampleTable.code.read k.val).toNat := by decide +kernel
    exact h ⟨s, hs⟩

theorem unset_ok : HuffTable.unset.Ok where
  lenRam := rfl
  codeRam := rfl
  lengths s := Nat.zero_le _
  count := by decide
  valid h := absurd rfl h
  codes h := absurd rfl h

/-- A state with a built table has the invariant. -/
theorem tableBuilt_inv : tableBuilt.Inv where
  writerOk := by decide
  outFits := rfl
  inFits := rfl
  readerOk := by decide
  tablesOk t := by
    have h : tableBuilt.tables[t] = exampleTable ∨ tableBuilt.tables[t] = HuffTable.unset := by
      revert t; decide
    rcases h with h | h <;> rw [h]
    · exact exampleTable_ok
    · exact unset_ok
  errCode := by decide
  statusCode := by decide

theorem test_witness_SymbolStreamsConcatenateAndSplit :
    tableBuilt.err = 0#4 ∧ tableBuilt.writer.Ok ∧ tableBuilt.Inv ∧ tableBuilt.cfg.legal = true ∧
    tableBuilt.cfg.outCap = none ∧
    (∀ p ∈ ([(0, 2), (0, 0)] : List (BitVec 8 × BitVec 16)), (tableBuilt.lookup p.1 p.2).isSome = true) ∧
    ([(0, 2), (0, 0)] : List (BitVec 8 × BitVec 16)).map Prod.fst = [0, 0] :=
  ⟨rfl, by decide, tableBuilt_inv, by decide, rfl,
    fun p hp => (by simp only [List.mem_cons, List.not_mem_nil, or_false] at hp; rcases hp with rfl | rfl <;> decide), by decide⟩

/-- The least legal capacities, exactly five bytes. -/
theorem test_witness_NoCommandHoldsOnceTheHostHasServed :
    let s := { reading [1, 2, 3, 4, 5] 7 false with cfg := { Config.standard with outCap := some 4, inCap := some 5 } }
    s.cfg.legal = true ∧ s.writer.out = [] ∧ 5 ≤ s.reader.bytes.length := by decide

theorem test_witness_EveryStepKeepsTheInvariant :
    (busy 0x2200000200000000 tableBuilt).Inv ∧ ∃ t, step (busy 0x2200000200000000 tableBuilt) = .next t :=
  ⟨⟨tableBuilt_inv.1, tableBuilt_inv.2, tableBuilt_inv.3, tableBuilt_inv.4, tableBuilt_inv.5, tableBuilt_inv.6,
    tableBuilt_inv.7⟩, _, rfl⟩

end Sys2Proof.Tests
end

section
/-! PROOFS. The host's moves (20_memory.md rules R60 to R66): what a host's turn is, when each move is enabled, and what it
leaves. -/

namespace Sys2Proof.Machine

/-! ## The host's turn -/

/-- A host's turn is the host's move on the state with the turn taken off the schedule. -/
theorem HostTurn.step_eq {s s' : State} {m : HostMove} (h : HostTurn s s' m) : step s = hostMove m s' := by
  simp only [step, h.legal, h.turn, if_true]

/-! ## The enabling conditions -/

/-- Room for one more element: the capacity is not reached. -/
theorem lacksRoom_one_eq_false {cap : Option Nat} {held : Nat} :
    lacksRoom cap held 1 = false ↔ ∀ c, cap = some c → held < c := by
  simp only [lacksRoom_eq_false, Nat.one_le_iff_ne_zero, Nat.sub_ne_zero_iff_lt]

theorem lacksRoom_one_eq_true {cap : Option Nat} {held : Nat} :
    lacksRoom cap held 1 = true ↔ ∃ c, cap = some c ∧ c ≤ held := by
  simp only [lacksRoom_eq_true, Nat.lt_one_iff, Nat.sub_eq_zero_iff_le]

theorem pushEnabled_eq_true {s : State} :
    s.pushEnabled = true ↔ s.reader.ended = false ∧ ∀ c, s.cfg.inCap = some c → s.reader.bytes.length < c := by
  simp only [State.pushEnabled, Bool.and_eq_true, Bool.not_eq_true', lacksRoom_one_eq_false]

theorem pushEnabled_eq_false {s : State} :
    s.pushEnabled = false ↔ s.reader.ended = true ∨ ∃ c, s.cfg.inCap = some c ∧ c ≤ s.reader.bytes.length := by
  simp only [State.pushEnabled, Bool.and_eq_false_iff, Bool.not_eq_false', lacksRoom_one_eq_true]

theorem portIdle_eq_true {s : State} : s.portIdle = true ↔ s.port = .idle := beq_iff_eq

/-! ## Each move, enabled and not -/

theorem hostPush_of_enabled {s : State} (b : Byte) (h : s.pushEnabled = true) :
    hostPush b s = .next { s with reader := { s.reader with bytes := s.reader.bytes ++ [b] } } := if_pos h

theorem hostPush_of_not_enabled {s : State} (b : Byte) (h : s.pushEnabled = false) :
    hostPush b s = .refused .pushNotEnabled := if_neg (by simp [h])

/-- A second END finds `IN_END` set and changes nothing (20_memory.md rule R61). -/
theorem hostEnd_of_ended {s : State} (h : s.reader.ended = true) : hostEnd s = .next s := by
  rw [hostEnd, ← h]

theorem hostPop_cons {s : State} {b : Byte} {rest : List Byte} (h : s.writer.out = b :: rest) :
    hostPop s = .next { s with writer := { s.writer with out := rest }, popped := s.popped ++ [b] } := by
  simp only [hostPop, h]

theorem hostPop_nil {s : State} (h : s.writer.out = []) : hostPop s = .refused .popNotEnabled := by
  simp only [hostPop, h]

theorem hostIssue_of_idle {s : State} (w : CommandWord) (h : s.port = .idle) :
    hostIssue w s = .next { s with port := .busy w } := if_pos (portIdle_eq_true.mpr h)

theorem hostIssue_of_busy {s : State} (w : CommandWord) (h : s.port ≠ .idle) :
    hostIssue w s = .refused .issueNotEnabled := if_neg (mt portIdle_eq_true.mp h)

theorem hostCollect_of_idle {s : State} (h : s.port = .idle) :
    hostCollect s = .next { s with collected := s.collected ++ [{ status := s.status, result := s.result }] } :=
  if_pos (portIdle_eq_true.mpr h)

theorem hostCollect_of_busy {s : State} (h : s.port ≠ .idle) :
    hostCollect s = .refused .collectNotEnabled := if_neg (mt portIdle_eq_true.mp h)

/-! ## The port under the host's moves -/

theorem hostPush_port {s t : State} {b : Byte} (h : hostPush b s = .next t) : t.port = s.port := by
  cases he : s.pushEnabled with
  | true => rw [hostPush_of_enabled b he] at h; cases h; rfl
  | false => rw [hostPush_of_not_enabled b he] at h; cases h

theorem hostPop_port {s t : State} (h : hostPop s = .next t) : t.port = s.port := by
  cases ho : s.writer.out with
  | nil => rw [hostPop_nil ho] at h; cases h
  | cons b rest => rw [hostPop_cons ho] at h; cases h; rfl

/-- PUSH, END and POP leave the port; ISSUE and COLLECT need it idle. So no move but the hardware reset takes a command out of
a busy port (20_memory.md rules R63 and R65). -/
theorem hostMove_keeps_busy {s t : State} {m : HostMove} (hm : m ≠ .hardReset) (hp : s.port ≠ .idle)
    (h : hostMove m s = .next t) : t.port = s.port := by
  cases m with
  | push b => exact hostPush_port h
  | endOfInput => cases h; rfl
  | pop => exact hostPop_port h
  | issue w => rw [hostMove, hostIssue_of_busy w hp] at h; cases h
  | collect => rw [hostMove, hostCollect_of_busy hp] at h; cases h
  | hardReset => exact absurd rfl hm

/-! ## The statements -/

/-- Settles O14: `IN_END` and the room in `IN` decide whether PUSH is enabled. -/
theorem pushAppendsAByteToTheInput : Obligations.PushAppendsAByteToTheInput := by
  unfold Obligations.PushAppendsAByteToTheInput
  intro s s' b hturn
  rw [hturn.step_eq]
  exact ⟨fun h => hostPush_of_enabled b (pushEnabled_eq_true.mpr h),
    fun h => hostPush_of_not_enabled b (pushEnabled_eq_false.mpr h)⟩

/-- Settles O15: END is always enabled, and writes a value that a second END finds there. -/
theorem endSetsEndOfInput : Obligations.EndSetsEndOfInput := by
  unfold Obligations.EndSetsEndOfInput
  intro s s' hturn
  rw [hturn.step_eq]
  exact ⟨rfl, hostEnd_of_ended⟩

/-- Settles O16: POP by whether `OUT` is empty. -/
theorem popTakesTheOldestOutputByte : Obligations.PopTakesTheOldestOutputByte := by
  unfold Obligations.PopTakesTheOldestOutputByte
  intro s s' hturn
  rw [hturn.step_eq]
  exact ⟨fun _ _ => hostPop_cons, hostPop_nil⟩

/-- Settles O17: ISSUE by whether the port is idle, and `hostMove_keeps_busy` for the command that stands in it. -/
theorem issuePutsTheWordInAnIdlePort : Obligations.IssuePutsTheWordInAnIdlePort := by
  unfold Obligations.IssuePutsTheWordInAnIdlePort
  constructor
  · intro s s' w hturn
    rw [hturn.step_eq]
    exact ⟨hostIssue_of_idle w, hostIssue_of_busy w⟩
  · intro s s' t m w hturn hm hbusy hstep
    rw [hturn.step_eq] at hstep
    have hp : s'.port ≠ .idle := by simp [hbusy]
    exact (hostMove_keeps_busy hm hp hstep).trans hbusy

/-- Settles O19: the hardware reset's state is `State.resetBlock`, which has the reset values (`resetBlock_values`). -/
theorem hardwareResetGivesTheResetState : Obligations.HardwareResetGivesTheResetState := by
  unfold Obligations.HardwareResetGivesTheResetState
  intro s s' hturn
  exact ⟨s'.resetBlock, hturn.step_eq, resetBlock_values s', State.resetBlock_ci s', State.resetBlock_cfg s',
    State.resetBlock_schedule s', State.resetBlock_popped s', State.resetBlock_collected s'⟩

end Sys2Proof.Machine
end

section
/-! PROOFS. The fields of a command word that must be 0 and the bits of `D` that do not matter (30_encoding.md rule R84): a
non-zero reserved field makes a word that is no command, and what a command does not use of `D` reaches neither the decoder's
answer nor the effect of BW.WRITE. -/

namespace Sys2Proof.Machine

/-! ## Words with a reserved field that is not 0 -/

/-- An opcode that reserves a field is in the opcode map, in the row of a format that checks the field. -/
theorem row_of_reservedNonzero {opc a : BitVec 8} {b : BitVec 16} (h : reservedNonzero opc a b) :
    ∃ fmt make, opcodeRow opc = some (fmt, make) ∧ fmt.reservedClear a b = false := by
  unfold opcodeRow
  obtain ⟨ho, hab⟩ | ⟨ho, hb⟩ | ⟨ho, ha⟩ := h
  · have hclear : (a == 0#8 && b == 0#16) = false := by
      simpa only [Bool.and_eq_false_iff, beq_eq_false_iff_ne] using hab
    simp only [List.mem_cons, List.not_mem_nil, or_false] at ho
    rcases ho with ho | ho | ho | ho | ho | ho | ho | ho | ho <;> (rw [ho]; exact ⟨_, _, rfl, hclear⟩)
  · have hclear : (b == 0#16) = false := beq_eq_false_iff_ne.mpr hb
    simp only [List.mem_cons, List.not_mem_nil, or_false] at ho
    rcases ho with ho | ho <;> (rw [ho]; exact ⟨_, _, rfl, hclear⟩)
  · rw [ho]
    exact ⟨_, _, rfl, beq_eq_false_iff_ne.mpr ha⟩

/-- The decoder rejects the word, whatever `D`. -/
theorem decode_of_reservedNonzero {opc a : BitVec 8} {b : BitVec 16} (d : Word) (h : reservedNonzero opc a b) :
    decode (ofFields opc a b d) = .reject (.reservedField opc) := by
  obtain ⟨fmt, make, hrow, hclear⟩ := row_of_reservedNonzero h
  simp only [decode_ofFields, hrow, hclear, Bool.false_eq_true, if_false]

/-- The block's turn completes a rejected word in the port. -/
theorem BlockTurn.step_of_reject {s s' : State} {w : CommandWord} {e : DecodeError} (h : BlockTurn s s' w)
    (hd : decode w = .reject e) : step s = rejectWord e s' := by
  simp only [step, h.legal, h.turn, if_true, blockTurn, h.busy, hd]

/-- The sticky check lets the word through where no error is sticky, and for RD.REG and RESET (60_exceptions.md rule R236). -/
theorem rejectWord_reservedField {opc : BitVec 8} {s : State} (h : s.err = 0#4 ∨ opc = 0x30#8 ∨ opc = 0x3F#8) :
    rejectWord (.reservedField opc) s = .next (s.raised .illegalCommand) := by
  obtain hclear | hpass := h
  · simp only [rejectWord, unlessSticky_of_clear hclear, raise_eq, ite_self]
  · have hpasses : passesSticky opc = true := by simpa [passesSticky] using hpass
    simp only [rejectWord, hpasses, if_true, raise_eq]

/-! ## Bits of `D` that are not used -/

/-- Two values of `D` decode alike where the opcode's row makes the same command from both. -/
theorem decode_congr_d {opc a : BitVec 8} {b : BitVec 16} {d d' : Word}
    (h : ∀ fmt make, opcodeRow opc = some (fmt, make) → make a b d = make a b d') :
    decode (ofFields opc a b d) = decode (ofFields opc a b d') := by
  cases hrow : opcodeRow opc with
  | none => simp only [decode_ofFields, hrow]
  | some row =>
    obtain ⟨fmt, make⟩ := row
    simp only [decode_ofFields, hrow, h fmt make hrow]

/-- The rows that take no operand from `D`. -/
theorem row_ignores_d {opc : BitVec 8} {fmt : Format} {make : BitVec 8 → BitVec 16 → Word → Instr}
    (h : ignoresD opc = true) (hrow : opcodeRow opc = some (fmt, make)) (a : BitVec 8) (b : BitVec 16) (d d' : Word) :
    make a b d = make a b d' := by
  simp only [ignoresD, List.contains_iff_mem, List.mem_cons, List.not_mem_nil, or_false] at h
  unfold opcodeRow at hrow
  rcases h with h | h | h | h | h | h | h | h | h | h | h <;> (rw [h] at hrow; cases hrow; rfl)

/-- The rows of CRC.BYTE and HT.SETLEN take the low byte of `D`. -/
theorem row_uses_low_byte {opc : BitVec 8} {fmt : Format} {make : BitVec 8 → BitVec 16 → Word → Instr}
    (h : opc = 0x11#8 ∨ opc = 0x20#8) (hrow : opcodeRow opc = some (fmt, make)) (a : BitVec 8) (b : BitVec 16)
    {d d' : Word} (hd : d.setWidth 8 = d'.setWidth 8) : make a b d = make a b d' := by
  obtain rfl | rfl := h
  · cases hrow
    exact congrArg Instr.crcByte hd
  · cases hrow
    exact congrArg (Instr.htSetlen a b) hd

/-- `PutBits(n, v)` reads bits `n-1` down to 0 of `v` and no other (40_bit_channel.md rule R113). -/
theorem Writer.putBits_congr {n : Nat} {v v' : Word} (h : ∀ i, i < n → v.getLsbD i = v'.getLsbD i) (w : Writer) :
    w.putBits n v = w.putBits n v' := by
  induction n generalizing w with
  | zero => rfl
  | succ n ih =>
    rw [Writer.putBits, Writer.putBits, h n n.lt_succ_self]
    exact ih (fun i hi => h i (Nat.lt_succ_of_lt hi)) _

/-- BW.WRITE looks at `v` through `PutBits(n, v)` only: its checks are on `n` and on the room in `OUT`. -/
theorem exec_bwWrite_congr {n : BitVec 8} {v v' : Word} (h : ∀ i, i < n.toNat → v.getLsbD i = v'.getLsbD i) (s : State) :
    exec (.bwWrite n v) s = exec (.bwWrite n v') s := by
  simp only [exec, execBwWrite, Writer.putBits_congr h]

/-! ## The statement -/

/-- Settles O5: the decoder rejects a non-zero reserved field and the block's turn completes the word with the error; the rows
of the opcode map say what a command takes from `D`, and `PutBits` what BW.WRITE takes from `v`. -/
theorem reservedFieldsFailAndUnusedDataIsIgnored : Obligations.ReservedFieldsFailAndUnusedDataIsIgnored := by
  unfold Obligations.ReservedFieldsFailAndUnusedDataIsIgnored
  refine ⟨?_, ?_, ?_, ?_⟩
  · intro opc a b d s s' hreserved hturn hsticky
    rw [hturn.step_of_reject (decode_of_reservedNonzero d hreserved), rejectWord_reservedField hsticky]
  · intro opc a b d d' hignores
    exact decode_congr_d fun _ _ hrow => row_ignores_d hignores hrow a b d d'
  · intro opc a b d d' hopc hlow
    exact decode_congr_d fun _ _ hrow => row_uses_low_byte hopc hrow a b hlow
  · intro n v v' s hbits
    exact exec_bwWrite_congr hbits s

end Sys2Proof.Machine
end

section
/-! PROOFS. The Bit Channel commands (40_bit_channel.md): what each decodes from, the ways it ends where no error is sticky, and
what it does to the streams. -/

namespace Sys2Proof.Machine

/-! ## Encoding (30_encoding.md rules R82 to R84) -/

theorem reservedClear_n {a : BitVec 8} {b : BitVec 16} : Format.n.reservedClear a b = true ↔ b = 0#16 := beq_iff_eq

theorem reservedClear_z {a : BitVec 8} {b : BitVec 16} : Format.z.reservedClear a b = true ↔ a = 0#8 ∧ b = 0#16 := by
  simp only [Format.reservedClear, Bool.and_eq_true, beq_iff_eq]

/-- A word with an opcode of the map is its row's command exactly if the reserved fields are zero. -/
theorem decode_of_row {opc a : BitVec 8} {b : BitVec 16} {d : Word} {fmt : Format}
    {make : BitVec 8 → BitVec 16 → Word → Instr} {i : Instr} {clear : Prop} [Decidable clear]
    (hrow : opcodeRow opc = some (fmt, make)) (hmake : make a b d = i) (hclear : fmt.reservedClear a b = true ↔ clear) :
    decode (ofFields opc a b d) = if clear then .instr i else .reject (.reservedField opc) := by
  simp only [decode_ofFields, hrow, hmake, hclear]

/-! ## The sticky check -/

/-- Every command but RD.REG and RESET is turned away while `ERR` is set: a command ends in one of four ways, and the other
three need `ERR = 0` (60_exceptions.md rules R234 and R236). -/
theorem refusedWhileSticky {i : Instr} (hi : Instr.ignoresSticky i = false) : RefusedWhileSticky i := by
  intro s hsticky
  obtain ⟨t, hexec, ⟨-, -, rfl⟩ | ⟨_, -, hclear, -⟩ | ⟨-, hclear, -⟩ | ⟨hclear, -⟩⟩ := exec_total i s
  · exact ⟨s.turnedAway, hexec, rfl⟩
  · exact absurd (hclear hi) hsticky
  · exact absurd hclear hsticky
  · exact absurd (hclear hi) hsticky

/-! ## BW.WRITE (rules R111 to R113) -/

theorem writeHolds_eq_true {s : State} {m : Nat} :
    s.writeHolds m = true ↔ ∃ c, s.cfg.outCap = some c ∧ c - s.writer.out.length < (s.writer.cnt.val + m) / 8 :=
  lacksRoom_eq_true

theorem writeHolds_eq_false {s : State} {m : Nat} :
    s.writeHolds m = false ↔ ∀ c, s.cfg.outCap = some c → (s.writer.cnt.val + m) / 8 ≤ c - s.writer.out.length :=
  lacksRoom_eq_false

section
variable {n : BitVec 8} {v : Word} {s : State} (herr : s.err = 0#4)
include herr

theorem exec_bwWrite_illegal (hn : Config.nMax < n.toNat) :
    exec (.bwWrite n v) s = .next (s.raised .illegalCommand) := by
  simp only [exec, execBwWrite, unlessSticky_of_clear herr, if_pos hn, raise_eq]

theorem exec_bwWrite_holds (hn : n.toNat ≤ Config.nMax) (hroom : s.writeHolds n.toNat = true) :
    exec (.bwWrite n v) s = .next s := by
  simp only [exec, execBwWrite, unlessSticky_of_clear herr, if_neg hn.not_gt, if_pos hroom, hold_eq]

theorem exec_bwWrite_performs (hn : n.toNat ≤ Config.nMax) (hroom : s.writeHolds n.toNat = false) :
    exec (.bwWrite n v) s = .next { s with writer := s.writer.putBits n.toNat v }.complete := by
  simp only [exec, execBwWrite, unlessSticky_of_clear herr, if_neg hn.not_gt, hroom, Bool.false_eq_true, if_false]

end

/-- Settles O21: the checks decide the ending, and what a performed write does to the writer is `putBits_spec` and
`putBits_lengths`. -/
theorem bwWriteWritesTheLowBitsMsbFirst : Obligations.BwWriteWritesTheLowBitsMsbFirst := by
  unfold Obligations.BwWriteWritesTheLowBitsMsbFirst
  refine ⟨fun n b v => decode_of_row rfl rfl reservedClear_n, fun n v => refusedWhileSticky rfl,
    fun n v s herr => ⟨?_, ?_, ?_⟩⟩
  · exact exec_bwWrite_illegal herr
  · intro hn hfull
    exact exec_bwWrite_holds herr hn (writeHolds_eq_true.mpr hfull)
  · intro hn hroom hok
    have hexec := exec_bwWrite_performs (v := v) herr hn (writeHolds_eq_false.mpr hroom)
    obtain ⟨hok', hstream⟩ := Writer.putBits_spec n.toNat v s.writer hok
    obtain ⟨hlength, hcnt⟩ := Writer.putBits_lengths n.toNat v s.writer
    exact ⟨_, hexec, rfl, hstream, hok', hlength, hcnt⟩

/-! ## BW.FLUSH (rules R116 and R117) -/

theorem flushHolds_of_aligned {s : State} (hc : s.writer.cnt = 0) : s.flushHolds = false := by
  simp only [State.flushHolds, hc, bne_self_eq_false, Bool.false_and]

theorem flushHolds_of_pending {s : State} (hc : s.writer.cnt ≠ 0) :
    s.flushHolds = lacksRoom s.cfg.outCap s.writer.out.length 1 := by
  simp only [State.flushHolds, bne_iff_ne.mpr hc, Bool.true_and]

theorem Writer.flush_of_aligned {w : Writer} (hc : w.cnt = 0) : w.flush = w := if_pos hc

theorem Writer.flush_of_pending {w : Writer} (hc : w.cnt ≠ 0) :
    w.flush = { acc := 0, cnt := 0, out := w.out ++ [w.padByte] } := if_neg hc

/-- The byte a flush emits: the pending bits, then zeros. -/
theorem Writer.fieldBits_padByte {w : Writer} (hok : w.Ok) (hc : w.cnt ≠ 0) :
    fieldBits 8 w.padByte.toNat = fieldBits w.cnt.val w.acc.toNat ++ List.replicate (8 - w.cnt.val) false := by
  have hsplit : w.cnt.val + (8 - w.cnt.val) = 8 := Nat.add_sub_cancel' w.cnt.isLt.le
  rw [Writer.padByte_toNat w hok hc, ← fieldBits_shift, hsplit]

section
variable {s : State} (herr : s.err = 0#4)
include herr

theorem exec_bwFlush_holds (hroom : s.flushHolds = true) : exec .bwFlush s = .next s := by
  simp only [exec, execBwFlush, unlessSticky_of_clear herr, if_pos hroom, hold_eq]

theorem exec_bwFlush_performs (hroom : s.flushHolds = false) :
    exec .bwFlush s = .next { s with writer := s.writer.flush }.complete := by
  simp only [exec, execBwFlush, unlessSticky_of_clear herr, hroom, Bool.false_eq_true, if_false]

end

/-- Settles O22: with no bit pending a flush never holds and leaves the writer; with some pending the byte is `padByte`, whose
bits are `fieldBits_padByte`'s. -/
theorem bwFlushPadsThePendingBitsWithZeros : Obligations.BwFlushPadsThePendingBitsWithZeros := by
  unfold Obligations.BwFlushPadsThePendingBitsWithZeros
  refine ⟨fun a b d => decode_of_row rfl rfl reservedClear_z, refusedWhileSticky rfl, fun s herr => ⟨?_, ?_, ?_⟩⟩
  · intro hc
    rw [exec_bwFlush_performs herr (flushHolds_of_aligned hc), Writer.flush_of_aligned hc, State.complete]
  · intro hc hfull
    exact exec_bwFlush_holds herr ((flushHolds_of_pending hc).trans (lacksRoom_eq_true.mpr hfull))
  · intro hc hroom hok
    refine ⟨s.writer.padByte, Writer.fieldBits_padByte hok hc, ?_⟩
    have hfits : s.flushHolds = false := (flushHolds_of_pending hc).trans (lacksRoom_eq_false.mpr hroom)
    rw [exec_bwFlush_performs herr hfits, Writer.flush_of_pending hc, State.complete]

/-! ## BR.READ (rules R118 to R121) -/

section
variable {n : BitVec 8} {s : State} (herr : s.err = 0#4)
include herr

theorem exec_brRead_illegal (hn : Config.nMax < n.toNat) : exec (.brRead n) s = .next (s.raised .illegalCommand) := by
  simp only [exec, execBrRead, unlessSticky_of_clear herr, if_pos hn, raise_eq]

theorem exec_brRead_short (hn : n.toNat ≤ Config.nMax) (hshort : s.readShort n.toNat = true) :
    exec (.brRead n) s = if s.reader.ended then .next (s.raised .unexpectedEof) else .next s := by
  simp only [exec, execBrRead, unlessSticky_of_clear herr, if_neg hn.not_gt, if_pos hshort, raise_eq, hold_eq]

theorem exec_brRead_performs (hn : n.toNat ≤ Config.nMax) (henough : s.readShort n.toNat = false) :
    exec (.brRead n) s =
      .next ({ s with reader := (s.reader.readBits n.toNat 0).2 }.completeWith (s.reader.readBits n.toNat 0).1) := by
  simp only [exec, execBrRead, unlessSticky_of_clear herr, if_neg hn.not_gt, henough, Bool.false_eq_true, if_false]

end

/-- Settles O23: the checks decide the ending; the value a performed read returns is `readBits_field`, and where it leaves the
input `readBits_position`. -/
theorem brReadTakesTheNextBits : Obligations.BrReadTakesTheNextBits := by
  unfold Obligations.BrReadTakesTheNextBits
  refine ⟨fun n b d => decode_of_row rfl rfl reservedClear_n, fun n => refusedWhileSticky rfl,
    fun n s herr => ⟨?_, ?_, ?_, ?_⟩⟩
  · exact exec_brRead_illegal herr
  · intro hn hshort hended
    exact (exec_brRead_short herr hn (readShort_eq_true.mpr hshort)).trans (if_pos hended)
  · intro hn hshort hopen
    exact (exec_brRead_short herr hn (readShort_eq_true.mpr hshort)).trans (if_neg (by simp [hopen]))
  · intro hn havail
    have hexec := exec_brRead_performs herr hn (readShort_eq_false.mpr havail)
    obtain ⟨hlt, hbits⟩ := Reader.readBits_field n.toNat s.reader havail hn
    obtain ⟨hbytes, hpos⟩ := Reader.readBits_position n.toNat 0 s.reader havail
    exact ⟨_, hexec, rfl, hlt, hbits, hbytes, hpos, Reader.readBits_ended n.toNat 0 s.reader⟩

end Sys2Proof.Machine
end

section
/-! PROOFS. The Checksum Engine commands (41_checksum.md): what each decodes from, and the whole state each leaves where no
error is sticky. -/

namespace Sys2Proof.Machine

/-! ## Encoding and endings -/

theorem reservedClear_zd {a : BitVec 8} {b : BitVec 16} : Format.zd.reservedClear a b = true ↔ a = 0#8 ∧ b = 0#16 := by
  simp only [Format.reservedClear, Bool.and_eq_true, beq_iff_eq]

/-- The first error goes to `STATUS` and to `ERR` (60_exceptions.md rule R233). -/
theorem State.raised_of_clear {s : State} (herr : s.err = 0#4) (e : CommandError) :
    s.raised e = { s with status := e.code, err := e.code, port := .idle, ci := s.ci + 1 } := by
  rw [State.raised, if_pos herr]

/-- The end of a block, with the rotation and the final XOR of rules R142 and R144 written out. -/
theorem State.finishBlock_eq (s : State) :
    s.finishBlock =
      { s with comb := s.comb.rotateLeft 1 ^^^ (s.crc ^^^ 0xFFFFFFFF#32), crc := 0xFFFFFFFF#32,
               result := s.crc ^^^ 0xFFFFFFFF#32, status := 0#4, port := .idle, ci := s.ci + 1 } := by
  rw [← rotl1_eq]; rfl

section
variable {x : Word} {s : State} (herr : s.err = 0#4)
include herr

theorem exec_crcEnd_performs : exec .crcEnd s = .next s.finishBlock := unlessSticky_of_clear herr

theorem exec_crcChkb_match (hx : blockCrcOf s.crc = x) : exec (.crcChkb x) s = .next s.finishBlock := by
  simp only [exec, execCrcChkb, unlessSticky_of_clear herr, if_pos hx]

theorem exec_crcChkb_mismatch (hx : blockCrcOf s.crc ≠ x) : exec (.crcChkb x) s = .next (s.raised .crcMismatch) := by
  simp only [exec, execCrcChkb, unlessSticky_of_clear herr, if_neg hx, raise_eq]

theorem exec_crcChks_match (hx : s.comb = x) : exec (.crcChks x) s = .next (s.completeWith s.comb) := by
  simp only [exec, execCrcChks, unlessSticky_of_clear herr, if_pos hx]

theorem exec_crcChks_mismatch (hx : s.comb ≠ x) : exec (.crcChks x) s = .next (s.raised .crcMismatch) := by
  simp only [exec, execCrcChks, unlessSticky_of_clear herr, if_neg hx, raise_eq]

end

/-! ## The statements -/

/-- Settles O24: past the sticky check CRC.INIT is one assignment. -/
theorem crcInitRestartsTheBlockChecksum : Obligations.CrcInitRestartsTheBlockChecksum := by
  unfold Obligations.CrcInitRestartsTheBlockChecksum
  exact ⟨fun a b d => decode_of_row rfl rfl reservedClear_z, refusedWhileSticky rfl,
    fun s herr => unlessSticky_of_clear herr⟩

/-- Settles O25: past the sticky check CRC.BYTE is one assignment. -/
theorem crcByteFeedsOneByte : Obligations.CrcByteFeedsOneByte := by
  unfold Obligations.CrcByteFeedsOneByte
  exact ⟨fun a b d => decode_of_row rfl rfl reservedClear_zd, fun b => refusedWhileSticky rfl,
    fun b s herr => unlessSticky_of_clear herr⟩

/-- Settles O26: past the sticky check CRC.END is `finishBlock`. -/
theorem crcEndReturnsAndCombinesTheBlockChecksum : Obligations.CrcEndReturnsAndCombinesTheBlockChecksum := by
  unfold Obligations.CrcEndReturnsAndCombinesTheBlockChecksum
  refine ⟨fun a b d => decode_of_row rfl rfl reservedClear_z, refusedWhileSticky rfl, fun s herr => ?_⟩
  rw [exec_crcEnd_performs herr, State.finishBlock_eq]

/-- Settles O27: a matching CRC.CHKB is `finishBlock`, and `x` is the block checksum it returns. -/
theorem crcChkbVerifiesTheBlockChecksum : Obligations.CrcChkbVerifiesTheBlockChecksum := by
  unfold Obligations.CrcChkbVerifiesTheBlockChecksum
  refine ⟨fun a b d => decode_of_row rfl rfl reservedClear_zd, fun x => refusedWhileSticky rfl,
    fun x s herr => ⟨?_, ?_⟩⟩
  · intro hmatch
    rw [exec_crcChkb_match herr hmatch, State.finishBlock_eq, hmatch]
  · intro hmismatch
    rw [exec_crcChkb_mismatch herr hmismatch, State.raised_of_clear herr]; rfl

/-- Settles O28: past the sticky check CRC.SINIT is one assignment. -/
theorem crcSinitClearsTheStreamChecksum : Obligations.CrcSinitClearsTheStreamChecksum := by
  unfold Obligations.CrcSinitClearsTheStreamChecksum
  exact ⟨fun a b d => decode_of_row rfl rfl reservedClear_z, refusedWhileSticky rfl,
    fun s herr => unlessSticky_of_clear herr⟩

/-- Settles O29: CRC.CHKS returns `COMB` and leaves it, or raises the mismatch. -/
theorem crcChksVerifiesTheStreamChecksum : Obligations.CrcChksVerifiesTheStreamChecksum := by
  unfold Obligations.CrcChksVerifiesTheStreamChecksum
  refine ⟨fun a b d => decode_of_row rfl rfl reservedClear_zd, fun x => refusedWhileSticky rfl,
    fun x s herr => ⟨?_, ?_⟩⟩
  · exact exec_crcChks_match herr
  · intro hmismatch
    rw [exec_crcChks_mismatch herr hmismatch, State.raised_of_clear herr]; rfl

end Sys2Proof.Machine
end

section
/-! PROOFS. The canonical Huffman encoder commands (42_huffman.md): what each decodes from, what a lookup finds, the ways each
command ends where no error is sticky, and the tables it leaves. -/

namespace Sys2Proof.Machine

/-! ## Encoding (30_encoding.md rules R82 to R84) -/

/-- A word whose reserved fields are zero is the command of its opcode's row; formats `TS` and `TK` reserve none. -/
theorem decode_of_clear_row {opc a : BitVec 8} {b : BitVec 16} {d : Word} {fmt : Format}
    {make : BitVec 8 → BitVec 16 → Word → Instr} {i : Instr} (hrow : opcodeRow opc = some (fmt, make))
    (hmake : make a b d = i) (hclear : fmt.reservedClear a b = true) : decode (ofFields opc a b d) = .instr i :=
  (decode_of_row hrow hmake (iff_true_intro hclear)).trans (if_pos trivial)

/-! ## The operand checks, failed -/

theorem legalSymbol_eq_false {k : BitVec 16} : legalSymbol k = false ↔ 257 < k.toNat := by
  rw [← Bool.not_eq_true, legalSymbol_iff, Nat.not_le]

theorem legalLength_eq_false {l : BitVec 8} : legalLength l = false ↔ l.toNat < 1 ∨ 20 < l.toNat := by
  rw [← Bool.not_eq_true, legalLength_iff, not_and_or, Nat.not_le, Nat.not_le]

/-- The reasons HT.BUILD has for refusing a table (rule R176). -/
theorem buildable_eq_false {T : HuffTable} {k : BitVec 16} :
    T.buildable k = false ↔ k.toNat < 1 ∨ 258 < k.toNat ∨ (∃ j, j < k.toNat ∧ T.len.read j = 0) ∨
      2 ^ 20 < kraftSum (T.lens k.toNat) := by
  simp only [← Bool.not_eq_true, buildable_iff, not_and_or, not_forall, Nat.not_le, ne_eq, not_not, exists_prop]

/-! ## A command that replaces one table -/

/-- What a command leaves that replaces table `i` by `T` and completes: that table, every other one as it was, and nothing else
changed but the completion. -/
theorem setTable_complete_spec (s : State) (i : Fin 6) (T : HuffTable) :
    (s.setTable i T).complete =
      { s with tables := (s.setTable i T).complete.tables, status := 0#4, port := .idle, ci := s.ci + 1 } ∧
    (s.setTable i T).complete.tables[i] = T ∧
    ∀ j : Fin 6, j ≠ i → (s.setTable i T).complete.tables[j] = s.tables[j] :=
  ⟨rfl, setTable_get_self s i T, fun _ hne => setTable_get_other s T hne.symm⟩

/-! ## HT.SETLEN (rule R172) -/

section
variable {t : BitVec 8} {k : BitVec 16} {l : BitVec 8} {s : State} {i : Fin 6} (herr : s.err = 0#4)
include herr

theorem exec_htSetlen_badSelector (ht : loadable t = none) :
    exec (.htSetlen t k l) s = .next (s.raised .internalInvariantViolation) := by
  simp only [exec, execHtSetlen, unlessSticky_of_clear herr, ht, raise_eq]

theorem exec_htSetlen_badSymbol (ht : loadable t = some i) (hk : legalSymbol k = false) :
    exec (.htSetlen t k l) s = .next (s.raised .internalInvariantViolation) := by
  simp only [exec, execHtSetlen, unlessSticky_of_clear herr, ht, hk, Bool.not_false, if_true, raise_eq]

theorem exec_htSetlen_badLength (ht : loadable t = some i) (hk : legalSymbol k = true) (hl : legalLength l = false) :
    exec (.htSetlen t k l) s = .next (s.raised .malformedInput) := by
  simp only [exec, execHtSetlen, unlessSticky_of_clear herr, ht, hk, hl, Bool.not_true, Bool.not_false, Bool.false_eq_true,
    if_true, if_false, raise_eq]

theorem exec_htSetlen_performs (ht : loadable t = some i) (hk : legalSymbol k = true) (hl : legalLength l = true) :
    exec (.htSetlen t k l) s =
      .next (s.setTable i { s.tables[i] with len := s.tables[i].len.write k.toNat (l.setWidth 5), size := 0 }).complete := by
  simp only [exec, execHtSetlen, unlessSticky_of_clear herr, ht, hk, hl, Bool.not_true, Bool.false_eq_true, if_false]

end

/-- A legal length fits the 5 bits of the length RAM and is not the 0 that stands for an unset one (10_state.md rule R33), so it
is read back whatever the RAM held. -/
theorem read_write_legalLength (m : Ram 5) (k : Nat) {l : BitVec 8} (hl : legalLength l = true) :
    ((m.write k (l.setWidth 5)).read k).toNat = l.toNat := by
  obtain ⟨hmin, hmax⟩ := legalLength_iff.mp hl
  have hfits : (l.setWidth 5).toNat = l.toNat := by
    rw [BitVec.toNat_setWidth]
    exact Nat.mod_eq_of_lt (by omega)
  have hset : l.setWidth 5 ≠ 0 := fun hzero => by
    simp only [hzero, BitVec.ofNat_eq_ofNat, BitVec.toNat_zero] at hfits
    omega
  rw [Ram.read_write_nonzero m k _ hset, hfits]

/-- Settles O34: the checks decide the ending; the performed write replaces one table, in which one length is written. -/
theorem htSetlenSetsOneLength : Obligations.HtSetlenSetsOneLength := by
  unfold Obligations.HtSetlenSetsOneLength
  refine ⟨fun t k d => decode_of_clear_row rfl rfl rfl, fun t k l => refusedWhileSticky rfl,
    fun t k l s herr => ⟨?_, ?_, ?_⟩⟩
  · intro hbad
    cases ht : loadable t with
    | none => exact exec_htSetlen_badSelector herr ht
    | some i =>
      have hk : 257 < k.toNat := hbad.resolve_left fun hlarge => by simp [loadable_eq_none.mpr hlarge] at ht
      exact exec_htSetlen_badSymbol herr ht (legalSymbol_eq_false.mpr hk)
  · intro ht hk hl
    exact exec_htSetlen_badLength herr (loadable_eq_some (i := ⟨t.toNat, by omega⟩).mpr rfl) (legalSymbol_iff.mpr hk)
      (legalLength_eq_false.mpr hl)
  · intro i ht hk hmin hmax
    have hl := legalLength_iff.mpr ⟨hmin, hmax⟩
    have hexec := exec_htSetlen_performs herr (loadable_eq_some.mpr ht) (legalSymbol_iff.mpr hk) hl
    obtain ⟨hframe, htable, hothers⟩ := setTable_complete_spec s i
      { s.tables[i] with len := s.tables[i].len.write k.toNat (l.setWidth 5), size := 0 }
    refine ⟨_, hexec, hframe, ?_⟩
    rw [htable]
    exact ⟨read_write_legalLength _ _ hl, rfl, rfl, fun k' hne => Ram.read_write_other _ _ _ _ hne.symm, hothers⟩

/-! ## HT.BUILD (rule R176) -/

section
variable {t : BitVec 8} {k : BitVec 16} {s : State} {i : Fin 6} (herr : s.err = 0#4)
include herr

theorem exec_htBuild_badSelector (ht : loadable t = none) :
    exec (.htBuild t k) s = .next (s.raised .internalInvariantViolation) := by
  simp only [exec, execHtBuild, unlessSticky_of_clear herr, ht, raise_eq]

theorem exec_htBuild_malformed (ht : loadable t = some i) (hT : s.tables[i].buildable k = false) :
    exec (.htBuild t k) s = .next (s.raised .malformedInput) := by
  simp only [exec, execHtBuild, unlessSticky_of_clear herr, ht, hT, Bool.false_eq_true, if_false, raise_eq]

theorem exec_htBuild_performs (ht : loadable t = some i) (hT : s.tables[i].buildable k = true) :
    exec (.htBuild t k) s = .next (s.setTable i (s.tables[i].built k)).complete := by
  simp only [exec, execHtBuild, unlessSticky_of_clear herr, ht, hT, if_true]

end

/-- Settles O35: the checks decide the ending; the performed build replaces one table by what `built_spec` describes. -/
theorem htBuildAssignsTheCanonicalCodes : Obligations.HtBuildAssignsTheCanonicalCodes := by
  unfold Obligations.HtBuildAssignsTheCanonicalCodes
  refine ⟨fun t k d => decode_of_clear_row rfl rfl rfl, fun t k => refusedWhileSticky rfl,
    fun t k s herr => ⟨?_, fun i ht => ⟨?_, ?_⟩⟩⟩
  · intro hlarge
    exact exec_htBuild_badSelector herr (loadable_eq_none.mpr hlarge)
  · intro hbad
    exact exec_htBuild_malformed herr (loadable_eq_some.mpr ht) (buildable_eq_false.mpr hbad)
  · intro hmin hmax hset hkraft hcode
    have hexec := exec_htBuild_performs herr (loadable_eq_some.mpr ht)
      ((buildable_iff s.tables[i] k).mpr ⟨hmin, hmax, hset, hkraft⟩)
    obtain ⟨hframe, htable, hothers⟩ := setTable_complete_spec s i (s.tables[i].built k)
    obtain ⟨hlen, hsize, -, hread⟩ := built_spec s.tables[i] k hmax hcode
    refine ⟨_, hexec, hframe, ?_⟩
    rw [htable]
    exact ⟨hsize, hlen, fun j hj => (hread j).trans (if_pos hj), fun j hj => (hread j).trans (if_neg hj.not_gt), hothers⟩

/-! ## LOOKUP (rules R179 and R180) -/

/-- A selector of a loadable table looks in that table. -/
theorem State.lookup_loadable {t : BitVec 8} {i : Fin 6} (ht : t.toNat = i.val) (s : State) (k : BitVec 16) :
    s.lookup t k = s.tables[i].lookup k := by
  simp only [State.lookup, loadable_eq_some.mpr ht]

theorem State.lookup_fixedSel (s : State) (k : BitVec 16) : s.lookup 7 k = fixedLookup s.cfg k := by
  have ht : loadable 7 = none := loadable_eq_none.mpr (by decide)
  simp only [State.lookup, ht]
  exact if_pos rfl

/-- The selectors 6 and from 8 up name no table. -/
theorem State.lookup_of_noTable {t : BitVec 8} (ht : t.toNat = 6 ∨ 8 ≤ t.toNat) (s : State) (k : BitVec 16) :
    s.lookup t k = none := by
  have hload : loadable t = none := loadable_eq_none.mpr (by omega)
  simp only [State.lookup, hload]
  exact if_neg (by simp only [Config.fixedSel]; omega)

theorem HuffTable.lookup_of_size_le {T : HuffTable} {k : BitVec 16} (hk : T.size.toNat ≤ k.toNat) : T.lookup k = none :=
  if_neg hk.not_gt

/-- The fixed table has a code for each of its lengths. -/
theorem fixedLookup_of_length {c : Config} {k : BitVec 16} {l : BitVec 5} (hl : c.fixedLen[k.toNat]? = some l) :
    fixedLookup c k = some (l, BitVec.ofNat 20 (c.fixedCodes.getD k.toNat 0)) := by
  have hk : k.toNat < c.fixedCodes.length := by
    simpa [Config.fixedCodes, Config.fixedLens] using (List.getElem?_eq_some_iff.mp hl).1
  simp only [fixedLookup, hl, List.getElem?_eq_getElem hk, List.getD_eq_getElem _ _ hk]

theorem fixedLookup_of_length_le {c : Config} {k : BitVec 16} (hk : c.fixedLen.length ≤ k.toNat) :
    fixedLookup c k = none := by
  simp only [fixedLookup, List.getElem?_eq_none hk]

/-! ## HT.ENC and HT.RDCODE (rules R181 and R183) -/

/-- The code in the low 20 bits and the length from bit 24 up do not overlap, so the word is their sum. -/
theorem codeWord_toNat (l : BitVec 5) (c : BitVec 20) : (codeWord l c).toNat = l.toNat * 2 ^ 24 + c.toNat := by
  have hl : (l.setWidth 32 <<< 24).toNat = l.toNat <<< 24 := by
    rw [BitVec.toNat_shiftLeft, BitVec.toNat_setWidth_of_le (by decide), Nat.shiftLeft_eq]
    exact Nat.mod_eq_of_lt (by omega)
  rw [codeWord, BitVec.toNat_or, hl, BitVec.toNat_setWidth_of_le (by decide),
    ← Nat.shiftLeft_add_eq_or_of_lt (by omega), Nat.shiftLeft_eq]

section
variable {t : BitVec 8} {k : BitVec 16} {s : State} {l : BitVec 5} {c : BitVec 20} (herr : s.err = 0#4)
include herr

theorem exec_htEnc_notFound (hfind : s.lookup t k = none) :
    exec (.htEnc t k) s = .next (s.raised .internalInvariantViolation) := by
  simp only [exec, execHtEnc, unlessSticky_of_clear herr, hfind, raise_eq]

theorem exec_htEnc_holds (hfind : s.lookup t k = some (l, c)) (hroom : s.writeHolds l.toNat = true) :
    exec (.htEnc t k) s = .next s := by
  simp only [exec, execHtEnc, unlessSticky_of_clear herr, hfind, if_pos hroom, hold_eq]

theorem exec_htEnc_performs (hfind : s.lookup t k = some (l, c)) (hroom : s.writeHolds l.toNat = false) :
    exec (.htEnc t k) s = .next { s with writer := s.writer.putBits l.toNat (c.setWidth 32) }.complete := by
  simp only [exec, execHtEnc, unlessSticky_of_clear herr, hfind, hroom, Bool.false_eq_true, if_false]

theorem exec_htRdcode_notFound (hfind : s.lookup t k = none) :
    exec (.htRdcode t k) s = .next (s.raised .internalInvariantViolation) := by
  simp only [exec, execHtRdcode, unlessSticky_of_clear herr, hfind, raise_eq]

theorem exec_htRdcode_performs (hfind : s.lookup t k = some (l, c)) :
    exec (.htRdcode t k) s = .next (s.completeWith (codeWord l c)) := by
  simp only [exec, execHtRdcode, unlessSticky_of_clear herr, hfind]

end

/-- Settles O36: the selector decides which table a lookup looks in, and the table's size whether it finds the symbol. -/
theorem tableLookupFindsTheLengthAndCode : Obligations.TableLookupFindsTheLengthAndCode := by
  unfold Obligations.TableLookupFindsTheLengthAndCode
  refine ⟨?_, ?_, fun t k s ht => State.lookup_of_noTable ht s k,
    fun t k s herr hfind => ⟨exec_htEnc_notFound herr hfind, exec_htRdcode_notFound herr hfind⟩⟩
  · intro t k i s ht hsize
    rw [State.lookup_loadable ht]
    exact ⟨fun hk => lookup_eq_some.mpr ⟨hk, by simp only [Config.kMax]; omega, rfl, rfl⟩, HuffTable.lookup_of_size_le⟩
  · intro k s
    rw [State.lookup_fixedSel]
    exact ⟨fun l => fixedLookup_of_length, fixedLookup_of_length_le⟩

/-- Settles O37: the lookup and the room decide the ending, and what a performed write does to the writer is `putBits_spec` and
`putBits_lengths`, of the code at the 32 bits of a data word. -/
theorem htEncWritesTheCodeOfItsSymbol : Obligations.HtEncWritesTheCodeOfItsSymbol := by
  unfold Obligations.HtEncWritesTheCodeOfItsSymbol
  refine ⟨fun t k d => decode_of_clear_row rfl rfl rfl, fun t k => refusedWhileSticky rfl,
    fun t k s herr => ⟨exec_htEnc_notFound herr, fun l c hfind => ⟨?_, ?_⟩⟩⟩
  · intro hfull
    exact exec_htEnc_holds herr hfind (writeHolds_eq_true.mpr hfull)
  · intro hroom hok
    have hexec := exec_htEnc_performs herr hfind (writeHolds_eq_false.mpr hroom)
    obtain ⟨hok', hstream⟩ := Writer.putBits_spec l.toNat (c.setWidth 32) s.writer hok
    obtain ⟨hlength, hcnt⟩ := Writer.putBits_lengths l.toNat (c.setWidth 32) s.writer
    rw [BitVec.toNat_setWidth_of_le (by decide)] at hstream
    exact ⟨_, hexec, rfl, hstream, hok', hlength, hcnt⟩

/-- Settles O38: the lookup decides the ending, and the word returned is `codeWord`, whose value is `codeWord_toNat`. -/
theorem htRdcodeReturnsTheLengthAndCode : Obligations.HtRdcodeReturnsTheLengthAndCode := by
  unfold Obligations.HtRdcodeReturnsTheLengthAndCode
  exact ⟨fun t k d => decode_of_clear_row rfl rfl rfl, fun t k => refusedWhileSticky rfl,
    fun t k s herr => ⟨exec_htRdcode_notFound herr,
      fun l c hfind => ⟨codeWord l c, codeWord_toNat l c, exec_htRdcode_performs herr hfind⟩⟩⟩

end Sys2Proof.Machine
end

section
/-! PROOFS. The control commands (43_control.md): what NOP and RESET leave, and the number RD.REG returns for each register of
the map (10_state.md rule R37), as the sum of the register's fields at their places. -/

namespace Sys2Proof.Machine

/-! ## Encoding (30_encoding.md rules R82 to R84) -/

theorem reservedClear_r {a : BitVec 8} {b : BitVec 16} : Format.r.reservedClear a b = true ↔ a = 0#8 := beq_iff_eq

/-! ## NOP and RESET (rules R210 and R213) -/

/-- Settles O45: past the sticky check NOP is `complete()`. -/
theorem nopOnlyCompletes : Obligations.NopOnlyCompletes := by
  unfold Obligations.NopOnlyCompletes
  exact ⟨fun a b d => decode_of_row rfl rfl reservedClear_z, by decide, refusedWhileSticky rfl,
    fun s herr => unlessSticky_of_clear herr⟩

/-- Settles O47: RESET is `State.resetBlock`, with no sticky check before it. -/
theorem resetCommandGivesTheResetState : Obligations.ResetCommandGivesTheResetState := by
  unfold Obligations.ResetCommandGivesTheResetState
  exact ⟨fun a b d => decode_of_row rfl rfl reservedClear_z,
    fun s => ⟨s.resetBlock, rfl, resetBlock_values s, State.resetBlock_cfg s, State.resetBlock_schedule s,
      State.resetBlock_popped s, State.resetBlock_collected s⟩⟩

/-! ## Fields of a register -/

/-- The word is the number `n`, which fits its low `k` bits. -/
structure HoldsField (x : Word) (k n : Nat) : Prop where
  toNat_eq : x.toNat = n
  lt : n < 2 ^ k

namespace HoldsField

variable {x y : Word} {k m n p : Nat}

theorem toNat_shiftLeft (hy : HoldsField y m p) {j : Nat} (hj : j + m ≤ 32) : (y <<< j).toNat = p <<< j := by
  obtain ⟨rfl, hlt⟩ := hy
  have hfits : y.toNat * 2 ^ j < 2 ^ 32 :=
    calc y.toNat * 2 ^ j < 2 ^ m * 2 ^ j := Nat.mul_lt_mul_of_pos_right hlt (Nat.two_pow_pos j)
      _ = 2 ^ (j + m) := by rw [← pow_add, Nat.add_comm]
      _ ≤ 2 ^ 32 := Nat.pow_le_pow_right (by decide) hj
  rw [BitVec.toNat_shiftLeft, Nat.shiftLeft_eq, Nat.mod_eq_of_lt hfits]

/-- A field placed at bit `j`, above the `k` bits that are in use: the two do not overlap, so the word is their sum. -/
theorem place (hx : HoldsField x k n) (j : Nat) (hy : HoldsField y m p) (hkj : k ≤ j) (hj : j + m ≤ 32) :
    HoldsField (x ||| y <<< j) (j + m) (n + 2 ^ j * p) := by
  have hn : n < 2 ^ j := hx.lt.trans_le (Nat.pow_le_pow_right (by decide) hkj)
  constructor
  · rw [BitVec.toNat_or, hx.toNat_eq, hy.toNat_shiftLeft hj, Nat.or_comm, ← Nat.shiftLeft_add_eq_or_of_lt hn,
      Nat.shiftLeft_eq, Nat.mul_comm, Nat.add_comm]
  · calc n + 2 ^ j * p < 2 ^ j * (p + 1) := by rw [Nat.mul_succ]; omega
      _ ≤ 2 ^ j * 2 ^ m := Nat.mul_le_mul_left _ hy.lt
      _ = 2 ^ (j + m) := (pow_add 2 j m).symm

end HoldsField

theorem holdsField_ofNat {k n : Nat} (hn : n < 2 ^ k) (hk : k ≤ 32) : HoldsField (BitVec.ofNat 32 n) k n :=
  ⟨BitVec.toNat_ofNat n 32 ▸ Nat.mod_eq_of_lt (hn.trans_le (Nat.pow_le_pow_right (by decide) hk)), hn⟩

theorem holdsField_setWidth {k : Nat} (v : BitVec k) (hk : k ≤ 32) : HoldsField (v.setWidth 32) k v.toNat :=
  ⟨BitVec.toNat_setWidth_of_le hk, v.isLt⟩

theorem holdsField_bit (b : Bool) : HoldsField (bit b) 1 b.toNat := by
  cases b <;> constructor <;> decide

theorem holdsField_countField (n : Nat) : HoldsField (countField n) 16 (min n 65535) :=
  holdsField_ofNat (by omega) (by decide)

theorem holdsField_crcvBit (v : CrcVariant) : HoldsField (crcvBit v) 1 (v == .reflected).toNat := by
  cases v <;> constructor <;> decide

/-- `TVALID` grows by the bit of the next table. -/
theorem HoldsField.place_validBit {x : Word} {n : Nat} (s : State) (t : Fin 6) (hx : HoldsField x t.val n) :
    HoldsField (x ||| s.validBit t) (t.val + 1) (n + 2 ^ t.val * (s.tables[t].size != 0#9).toNat) :=
  hx.place t.val (holdsField_bit _) le_rfl (by omega)

theorem holdsField_validBits (s : State) :
    HoldsField (s.validBit 0 ||| s.validBit 1 ||| s.validBit 2 ||| s.validBit 3 ||| s.validBit 4 ||| s.validBit 5) 6
      ((List.finRange 6).map fun t => 2 ^ t.val * (s.tables[t].size != 0#9).toNat).sum := by
  have hnone : HoldsField 0#32 0 0 := ⟨rfl, Nat.one_pos⟩
  have hall := (((((hnone.place_validBit s 0).place_validBit s 1).place_validBit s 2).place_validBit s 3).place_validBit
    s 4).place_validBit s 5
  rw [BitVec.zero_or] at hall
  have hsum : List.finRange 6 = [0, 1, 2, 3, 4, 5] := rfl
  simp only [hsum, List.map_cons, List.map_nil, List.sum_cons, List.sum_nil, Nat.zero_add, Nat.add_zero, Nat.add_assoc]
    at hall ⊢
  exact hall

/-- A legal block's fixed table has at most 258 symbols (00_scope.md rule R5). -/
theorem fixedLen_length_le_of_legal {c : Config} (hlegal : c.legal = true) : c.fixedLen.length ≤ 258 := by
  simp only [Config.legal, Bool.and_eq_true, decide_eq_true_eq] at hlegal
  exact hlegal.2.1

/-! ## The register map (10_state.md rule R37) -/

section
variable {s : State} {r : BitVec 16}

theorem register_of_reserved (hr : r.toNat = 14 ∨ 15 < r.toNat) : s.register r = none := by
  unfold State.register
  split
  case h_16 => rfl
  all_goals omega

theorem legalRegister_iff : legalRegister r = true ↔ r.toNat ≤ 13 ∨ r.toNat = 15 := by
  simp only [legalRegister, Bool.or_eq_true, decide_eq_true_eq, beq_iff_eq]

/-- The six table registers, in the order of the tables. -/
theorem register_size (t : Fin 6) (hr : r.toNat = 8 + t.val) : s.register r = some (s.tables[t].size.setWidth 32) := by
  match t with
  | 0 | 1 | 2 | 3 | 4 | 5 => simp only [State.register, hr]; rfl

variable {v : Word} (hv : s.register r = some v)
include hv

theorem register_status_toNat (hr : r.toNat = 0) : v.toNat = s.err.toNat + 2 ^ 8 * s.reader.ended.toNat := by
  simp only [State.register, hr, Option.some.injEq] at hv
  rw [← hv]
  exact ((holdsField_setWidth s.err (by decide)).place 8 (holdsField_bit _) (by decide) (by decide)).toNat_eq

theorem register_writer_toNat (hr : r.toNat = 1) : v.toNat = s.writer.cnt.val + 2 ^ 8 * s.writer.acc.toNat := by
  simp only [State.register, hr, Option.some.injEq] at hv
  rw [← hv]
  exact ((holdsField_ofNat s.writer.cnt.isLt (k := 3) (by decide)).place 8 (holdsField_setWidth _ (by decide))
    (by decide) (by decide)).toNat_eq

theorem register_reader_toNat (hr : r.toNat = 2) :
    v.toNat = s.reader.pos.val + 2 ^ 16 * min s.reader.bytes.length 65535 := by
  simp only [State.register, hr, Option.some.injEq] at hv
  rw [← hv]
  exact ((holdsField_ofNat s.reader.pos.isLt (k := 3) (by decide)).place 16 (holdsField_countField _)
    (by decide) (by decide)).toNat_eq

theorem register_crc (hr : r.toNat = 3) : v = s.crc := by
  simp only [State.register, hr, Option.some.injEq] at hv
  exact hv.symm

theorem register_comb (hr : r.toNat = 4) : v = s.comb := by
  simp only [State.register, hr, Option.some.injEq] at hv
  exact hv.symm

theorem register_output_toNat (hr : r.toNat = 5) : v.toNat = 2 ^ 16 * min s.writer.out.length 65535 := by
  simp only [State.register, hr, Option.some.injEq] at hv
  rw [← hv, (holdsField_countField _).toNat_shiftLeft (by decide), Nat.shiftLeft_eq, Nat.mul_comm]

theorem register_valid_toNat (hr : r.toNat = 6) :
    v.toNat = ((List.finRange 6).map fun t => 2 ^ t.val * (s.tables[t].size != 0#9).toNat).sum +
      2 ^ 7 * (decide (0 < s.cfg.fixedLen.length)).toNat := by
  simp only [State.register, hr, Option.some.injEq] at hv
  rw [← hv]
  exact ((holdsField_validBits s).place 7 (holdsField_bit _) (by decide) (by decide)).toNat_eq

theorem register_params_toNat (hr : r.toNat = 7) :
    v.toNat = 32 + 2 ^ 8 * 6 + 2 ^ 16 * 20 + 2 ^ 24 * (s.cfg.crcVariant == .reflected).toNat := by
  simp only [State.register, hr, Option.some.injEq] at hv
  have hnMax : HoldsField (BitVec.ofNat 32 Config.nMax) 6 32 := holdsField_ofNat (by decide) (by decide)
  have hnumTables : HoldsField (BitVec.ofNat 32 Config.numTables) 3 6 := holdsField_ofNat (by decide) (by decide)
  have hlMax : HoldsField (BitVec.ofNat 32 Config.lMax) 5 20 := holdsField_ofNat (by decide) (by decide)
  rw [← hv]
  exact (((hnMax.place 8 hnumTables (by decide) (by decide)).place 16 hlMax (by decide) (by decide)).place 24
    (holdsField_crcvBit _) (by decide) (by decide)).toNat_eq

theorem register_size_toNat (t : Fin 6) (hr : r.toNat = 8 + t.val) : v.toNat = s.tables[t].size.toNat := by
  rw [register_size t hr, Option.some.injEq] at hv
  rw [← hv]
  exact (holdsField_setWidth _ (by decide)).toNat_eq

theorem register_fixedK_toNat (hlegal : s.cfg.legal = true) (hr : r.toNat = 15) : v.toNat = s.cfg.fixedLen.length := by
  simp only [State.register, hr, Option.some.injEq] at hv
  rw [← hv]
  have hle := fixedLen_length_le_of_legal hlegal
  exact (holdsField_ofNat (k := 9) (by simp only [Config.fixedK]; omega) (by decide)).toNat_eq

end

/-! ## RD.REG (rule R211) -/

theorem exec_rdReg_reserved {r : BitVec 16} {s : State} (hr : s.register r = none) :
    exec (.rdReg r) s = .next (s.raised .illegalCommand) := by
  simp only [exec, execRdReg, hr, raise_eq]

theorem exec_rdReg_performs {r : BitVec 16} {s : State} {v : Word} (hv : s.register r = some v) :
    exec (.rdReg r) s = .next (s.completeWith v) := by
  simp only [exec, execRdReg, hv]

/-- Settles O46: the register map decides the ending, and each register's value is the sum of its fields. -/
theorem rdRegReadsTheRegisterMap : Obligations.RdRegReadsTheRegisterMap := by
  unfold Obligations.RdRegReadsTheRegisterMap
  refine ⟨fun a r d => decode_of_row rfl rfl reservedClear_r, fun r s hr => exec_rdReg_reserved (register_of_reserved hr),
    fun r s hlegal hr => ?_⟩
  obtain ⟨v, hv⟩ := register_of_legal s (legalRegister_iff.mpr hr)
  exact ⟨v, exec_rdReg_performs hv, register_status_toNat hv, register_writer_toNat hv, register_reader_toNat hv,
    register_crc hv, register_comb hv, register_output_toNat hv, register_valid_toNat hv, register_params_toNat hv,
    register_size_toNat hv, register_fixedK_toNat hv hlegal⟩

end Sys2Proof.Machine
end

section
/-! PROOFS. Completion with an error (60_exceptions.md rule R233): the two ways a block's turn can leave a `STATUS` other than OK
in an idle port, and what each changes. -/

namespace Sys2Proof.Machine

/-- The block's turn performs the command in the port. -/
theorem BlockTurn.step_of_instr {s s' : State} {w : CommandWord} {i : Instr} (h : BlockTurn s s' w)
    (hd : decode w = .instr i) : step s = exec i s' := by
  simp only [step, h.legal, h.turn, if_true, blockTurn, h.busy, hd]

/-- `t` is `s` after a completion with an error: turned away by a sticky one, or raised by the word in the port. -/
def EndsInError (s t : State) : Prop := (s.err ≠ 0#4 ∧ t = s.turnedAway) ∨ ∃ e, t = s.raised e

/-- A command that neither held nor performed ended in an error. -/
theorem exec_endsInError {i : Instr} {s t : State} (h : exec i s = .next t) (hbusy : s.port ≠ .idle) (hidle : t.port = .idle)
    (hstatus : t.status ≠ 0#4) : EndsInError s t := by
  obtain ⟨-, hsticky, ht⟩ | ⟨e, -, -, ht⟩ | ⟨-, -, rfl⟩ | ⟨-, hdone⟩ := exec_cases h
  · exact .inl ⟨hsticky, ht⟩
  · exact .inr ⟨e, ht⟩
  · exact absurd hidle hbusy
  · exact absurd (performed_complete hdone).1 hstatus

/-- A word that is no command ends in an error. -/
theorem rejectWord_endsInError {d : DecodeError} {s t : State} (h : rejectWord d s = .next t) : EndsInError s t := by
  obtain ⟨t', ht', hend⟩ := rejectWord_total d s
  obtain rfl : t' = t := Host.Outcome.next.inj (ht'.symm.trans h)
  exact hend.imp_right fun hraised => ⟨_, hraised⟩

theorem BlockTurn.step_endsInError {s s' t : State} {w : CommandWord} (h : BlockTurn s s' w) (hstep : step s = .next t)
    (hidle : t.port = .idle) (hstatus : t.status ≠ 0#4) : EndsInError s' t := by
  have hbusy : s'.port ≠ .idle := by simp [h.busy]
  cases hd : decode w with
  | instr i => exact exec_endsInError (h.step_of_instr hd ▸ hstep) hbusy hidle hstatus
  | reject d => exact rejectWord_endsInError (h.step_of_reject hd ▸ hstep)

/-- Either completion touches `STATUS`, an `ERR` that was 0, the port and the index alone. -/
theorem EndsInError.frame {s t : State} (h : EndsInError s t) :
    t = { s with status := t.status, err := (if s.err = 0#4 then t.status else s.err), port := .idle, ci := t.ci } := by
  obtain ⟨hsticky, rfl⟩ | ⟨e, rfl⟩ := h
  · rw [if_neg hsticky]
    rfl
  · rfl

/-- Where no error was sticky, the completion raised one of the kinds. -/
theorem EndsInError.status_eq_code {s t : State} (h : EndsInError s t) (hclear : s.err = 0#4) :
    ∃ e : CommandError, t.status = e.code := by
  obtain ⟨hsticky, -⟩ | ⟨e, rfl⟩ := h
  · exact absurd hclear hsticky
  · exact ⟨e, rfl⟩

/-- Settles O10: a turn that leaves `STATUS` not 0 and an idle port ended in an error, and that says what it changed. -/
theorem errorsChangeOnlyStatusAndErr : Obligations.ErrorsChangeOnlyStatusAndErr := by
  unfold Obligations.ErrorsChangeOnlyStatusAndErr
  refine ⟨⟨rfl, rfl, rfl, rfl, rfl, rfl⟩, fun e s => rfl, fun s s' t w hturn hstep hidle hstatus => ?_⟩
  have hend : EndsInError s' t := hturn.step_endsInError hstep hidle hstatus
  exact ⟨hend.frame, hend.status_eq_code⟩

end Sys2Proof.Machine
end

section
/-! PROOFS. Power-on (70_reset_and_hazards.md rule R261): beside the reset values of `powerOn_values`, the command index starts
at 0 and the block has the configuration it was built with. -/

namespace Sys2Proof.Machine

@[simp] theorem State.powerOn_ci (c : Config) : (State.powerOn c).ci = 0 := rfl
@[simp] theorem State.powerOn_cfg (c : Config) : (State.powerOn c).cfg = c := rfl

/-- Settles O20: power-on has the reset values in every configuration (`powerOn_values`), and the machine's reset state is
power-on in the standard one. -/
theorem powerOnIsTheResetState : Obligations.PowerOnIsTheResetState := by
  unfold Obligations.PowerOnIsTheResetState
  exact ⟨fun c => ⟨powerOn_values c, State.powerOn_ci c, State.powerOn_cfg c⟩,
    powerOn_values Config.standard, State.powerOn_ci Config.standard⟩

end Sys2Proof.Machine
end

section
/-! PROOFS. The encoder against the decoder (30_encoding.md rules R80 to R85): a command's word decodes to the command, a word that
decodes is its command's word but for the bits of `D` that are ignored, and the opcodes outside the map. -/

namespace Sys2Proof.Machine

/-! ## Decoding a command's word -/

/-- An operand that is the low byte of `D` is read back (rule R81). -/
theorem setWidth_lowByte (b : Byte) : (b.setWidth 32).setWidth 8 = b := by
  rw [BitVec.setWidth_setWidth_of_le _ (by decide), BitVec.setWidth_eq]

/-- Settles O1: `encode` fills the fields of the command's row, and the row makes the command from them. -/
theorem decodeInvertsEncode : Obligations.DecodeInvertsEncode := by
  unfold Obligations.DecodeInvertsEncode
  intro i
  cases i with
  | crcByte b => exact decode_of_clear_row rfl (congrArg Instr.crcByte (setWidth_lowByte b)) rfl
  | htSetlen t s l => exact decode_of_clear_row rfl (congrArg (Instr.htSetlen t s) (setWidth_lowByte l)) rfl
  | nop | bwWrite | bwFlush | brRead | crcInit | crcEnd | crcChkb | crcSinit | crcChks | htBuild | htEnc | htRdcode | rdReg
  | reset => exact decode_of_clear_row rfl rfl rfl

/-! ## The word of a decoded command -/

/-- A mask that keeps every field but `D` masks `D` alone. -/
theorem ofFields_and_mask (opc a : BitVec 8) (b : BitVec 16) (d m : Word) :
    ofFields opc a b d &&& ofFields 0xFF 0xFF 0xFFFF m = ofFields opc a b (d &&& m) := by
  have hopc : opc &&& 0xFF#8 = opc := BitVec.and_allOnes
  have ha : a &&& 0xFF#8 = a := BitVec.and_allOnes
  have hb : b &&& 0xFFFF#16 = b := BitVec.and_allOnes
  show (opc ++ a ++ b ++ d) &&& (0xFF#8 ++ 0xFF#8 ++ 0xFFFF#16 ++ m) = opc ++ a ++ b ++ (d &&& m)
  rw [BitVec.and_append, BitVec.and_append, BitVec.and_append, hopc, ha, hb]

/-- Only bits of `D` are ignored (rule R84). -/
theorem usedBits_eq_mask (i : Instr) : usedBits i = ofFields 0xFF 0xFF 0xFFFF (dField (usedBits i)) := by
  cases i <;> simp only [usedBits] <;> decide

theorem and_lowByte (d : Word) : d &&& 0xFF = (d.setWidth 8).setWidth 32 := by
  have hmod : (d.setWidth 8).toNat = d.toNat % 2 ^ 8 := BitVec.toNat_setWidth 8 d
  apply BitVec.eq_of_toNat_eq
  rw [BitVec.toNat_setWidth_of_le (by decide), hmod]
  exact Nat.and_two_pow_sub_one_eq_mod d.toNat 8

/-- The word of the command a row makes: the fields it was made from, with the bits of `D` it does not use cleared. -/
theorem encode_of_row {opc a : BitVec 8} {b : BitVec 16} {fmt : Format} {make : BitVec 8 → BitVec 16 → Word → Instr}
    (hrow : opcodeRow opc = some (fmt, make)) (hclear : fmt.reservedClear a b = true) (d : Word) :
    encode (make a b d) = ofFields opc a b (d &&& dField (usedBits (make a b d))) := by
  have hopc := opcode_of_row hrow a b d
  have hall : d &&& dField 0xFFFFFFFF_FFFFFFFF = d := BitVec.and_allOnes
  have hlow : d &&& dField 0xFFFFFFFF_000000FF = (d.setWidth 8).setWidth 32 := and_lowByte d
  have hnone : d &&& dField 0xFFFFFFFF_00000000 = 0 := BitVec.and_zero
  unfold opcodeRow at hrow
  split at hrow
  all_goals cases hrow
  all_goals
    simp only [Format.reservedClear, Bool.and_eq_true, beq_iff_eq] at hclear
    simp only [encode, usedBits, hopc, hall, hlow, hnone, hclear]
  all_goals rfl

/-- Settles O2: the word is its fields, the command is made from them by the opcode's row, and the row's word is
`encode_of_row`. -/
theorem encodeInvertsDecodeOnUsedBits : Obligations.EncodeInvertsDecodeOnUsedBits := by
  unfold Obligations.EncodeInvertsDecodeOnUsedBits
  intro w i hdecode
  obtain ⟨fmt, make, hrow, hclear, rfl⟩ := decode_eq_instr hdecode
  rw [encode_of_row hrow hclear, ← ofFields_and_mask, ← usedBits_eq_mask, ofFields_fields]

/-- Settles O3: each of the six words is evaluated by the decoder. -/
theorem sampleWordsDecodeToTheirCommands : Obligations.SampleWordsDecodeToTheirCommands := by
  unfold Obligations.SampleWordsDecodeToTheirCommands
  decide

/-! ## Opcodes outside the map (rule R85) -/

/-- The ranges of rule R85 hold the opcodes that have no row in rule R83's map. -/
theorem opcodeRow_eq_none_iff {opc : BitVec 8} : opcodeRow opc = none ↔ illegalOpc opc = true := by
  simp only [illegalOpc, Bool.or_eq_true, Bool.and_eq_true, decide_eq_true_eq]
  unfold opcodeRow
  split
  case h_17 =>
    have hlt := opc.isLt
    simp only [imp_false, true_iff] at *
    omega
  all_goals next ho => simp [ho]

/-- An opcode without a row is the first thing the decoder rejects. -/
theorem decode_eq_illegalOpcode_iff {w : CommandWord} :
    decode w = .reject (.illegalOpcode (opcField w)) ↔ opcodeRow (opcField w) = none := by
  unfold decode
  cases opcodeRow (opcField w) with
  | none => simp
  | some row => simp only [reduceCtorEq, iff_false]; split <;> simp

/-- Settles O4: the ranges are counted, and the opcodes in them are those without a row. -/
theorem opcodesOutsideTheMapAreIllegal : Obligations.OpcodesOutsideTheMapAreIllegal := by
  unfold Obligations.OpcodesOutsideTheMapAreIllegal
  have hreject (w : CommandWord) :
      decode w = .reject (.illegalOpcode (opcField w)) ↔ illegalOpc (opcField w) = true :=
    decode_eq_illegalOpcode_iff.trans opcodeRow_eq_none_iff
  refine ⟨by decide +kernel, fun w => ⟨hreject w, fun s s' hturn hopc herr => ?_⟩⟩
  rw [hturn.step_of_reject ((hreject w).mpr hopc), rejectWord, unlessSticky_of_clear herr, raise_eq]

end Sys2Proof.Machine
end

section
/-! PROOFS. What a command leaves alone (40_bit_channel.md rule R110, 41_checksum.md rule R140, 42_huffman.md rule R170,
20_memory.md rule R57), said once: the frame of a command that performed, and from it the frame of every ending. -/

namespace Sys2Proof.Machine

/-- A command that performed changed the units it writes, `RESULT` where it is listed, and its completion; a RESET is apart. -/
theorem performed_frame {i : Instr} {s t : State} (h : Performed s t i) (hi : i ≠ .reset) :
    t = { s with writer := t.writer, reader := t.reader, crc := t.crc, comb := t.comb, tables := t.tables,
                 result := t.result, status := 0#4, port := .idle, ci := s.ci + 1 } ∧
    (writesWriter i = false → t.writer = s.writer) ∧ (writesReader i = false → t.reader = s.reader) ∧
    (writesCrc i = false → t.crc = s.crc) ∧ (writesComb i = false → t.comb = s.comb) ∧
    (writesTables i = false → t.tables = s.tables) ∧ (writesResult i = false → t.result = s.result) := by
  cases i
  case reset => exact absurd rfl hi
  case' nop | crcInit | crcByte | crcEnd | crcSinit => obtain rfl := h
  case' bwFlush | crcChkb | crcChks => obtain ⟨-, rfl⟩ := h
  case' bwWrite | brRead | rdReg => obtain ⟨_, _, rfl⟩ := h
  case' htBuild | htRdcode => obtain ⟨_, _, _, rfl⟩ := h
  case' htSetlen | htEnc => obtain ⟨_, _, _, _, rfl⟩ := h
  all_goals exact ⟨rfl, by simp [writesWriter, writesReader, writesCrc, writesComb, writesTables, writesResult]⟩

/-- An error completion leaves every unit, the configuration and what the host holds. -/
theorem EndsInError.units {s t : State} (h : EndsInError s t) :
    t.writer = s.writer ∧ t.reader = s.reader ∧ t.crc = s.crc ∧ t.comb = s.comb ∧ t.tables = s.tables ∧
    t.result = s.result ∧ t.cfg = s.cfg ∧ t.schedule = s.schedule ∧ t.popped = s.popped ∧ t.collected = s.collected := by
  rw [h.frame]
  exact ⟨rfl, rfl, rfl, rfl, rfl, rfl, rfl, rfl, rfl, rfl⟩

theorem EndsInError.idle {s t : State} (h : EndsInError s t) : t.port = .idle := by rw [h.frame]

/-- It counts as completed (10_state.md rule R22). -/
theorem EndsInError.ci {s t : State} (h : EndsInError s t) : t.ci = s.ci + 1 := by
  obtain ⟨-, rfl⟩ | ⟨e, rfl⟩ := h <;> rfl

theorem EndsInError.status_ne_zero {s t : State} (h : EndsInError s t) : t.status ≠ 0#4 := by
  obtain ⟨hsticky, rfl⟩ | ⟨e, rfl⟩ := h
  · exact hsticky
  · exact code_ne_zero e

/-- A set `ERR` stays through it (10_state.md rule R26). -/
theorem EndsInError.err_of_set {s t : State} (h : EndsInError s t) (hset : s.err ≠ 0#4) : t.err = s.err := by
  rw [h.frame]
  exact if_neg hset

/-- No RESET ends in an error. -/
theorem ne_reset_of_ignoresSticky {i : Instr} (h : Instr.ignoresSticky i = false) : i ≠ .reset := by
  rintro rfl
  cases h

theorem ne_reset_of_raises {s : State} {e : CommandError} {i : Instr} (h : Raises s e i) : i ≠ .reset := by
  rintro rfl
  exact h

/-- The endings of a command, the two error completions taken together: error, held, performed. -/
theorem exec_endings {i : Instr} {s t : State} (h : exec i s = .next t) :
    (i ≠ .reset ∧ EndsInError s t) ∨ (Holds s i ∧ t = s) ∨ Performed s t i := by
  obtain ⟨hi, hsticky, ht⟩ | ⟨e, hraises, -, ht⟩ | ⟨hholds, -, ht⟩ | ⟨-, hdone⟩ := exec_cases h
  · exact .inl ⟨ne_reset_of_ignoresSticky hi, .inl ⟨hsticky, ht⟩⟩
  · exact .inl ⟨ne_reset_of_raises hraises, .inr ⟨e, ht⟩⟩
  · exact .inr (.inl ⟨hholds, ht⟩)
  · exact .inr (.inr hdone)

/-- Settles O48: an error and a hold change no unit, and a command that performed is `performed_frame`'s. -/
theorem commandsLeaveOtherUnitsAlone : Obligations.CommandsLeaveOtherUnitsAlone := by
  unfold Obligations.CommandsLeaveOtherUnitsAlone
  intro i s t hexec
  obtain ⟨-, herror⟩ | ⟨-, rfl⟩ | hdone := exec_endings hexec
  · obtain ⟨hw, hr, hcrc, hcomb, htab, -, hrest⟩ := herror.units
    exact ⟨fun _ => hw, fun _ => hr, fun _ => hcrc, fun _ => hcomb, fun _ => htab, hrest⟩
  · simp
  · by_cases hi : i = .reset
    · subst hi
      obtain rfl := hdone
      simp [writesWriter, writesReader, writesCrc, writesComb, writesTables]
    · obtain ⟨hframe, hw, hr, hcrc, hcomb, htab, -⟩ := performed_frame hdone hi
      exact ⟨hw, hr, hcrc, hcomb, htab, by rw [hframe], by rw [hframe], by rw [hframe], by rw [hframe]⟩

/-- Settles O49: only a command that performed writes `RESULT`, and such a command leaves `STATUS = OK`. -/
theorem onlyListedCommandsWriteTheResult : Obligations.OnlyListedCommandsWriteTheResult := by
  unfold Obligations.OnlyListedCommandsWriteTheResult
  intro i s t hexec
  obtain ⟨-, herror⟩ | ⟨-, rfl⟩ | hdone := exec_endings hexec
  · obtain ⟨-, -, -, -, -, hresult, -⟩ := herror.units
    exact ⟨fun _ => hresult, fun _ => hresult⟩
  · exact ⟨fun _ => rfl, fun _ => rfl⟩
  · refine ⟨fun hlisted => ?_, fun hstatus => absurd (performed_complete hdone).1 hstatus⟩
    have hi : i ≠ .reset := by
      rintro rfl
      cases hlisted
    obtain ⟨-, -, -, -, -, -, hresult⟩ := performed_frame hdone hi
    exact hresult hlisted

end Sys2Proof.Machine
end

section
/-! PROOFS. Steps and their outcomes (10_state.md rules R22 to R26, 60_exceptions.md rules R233 and R234, 00_scope.md rule R5): whose
turn it is, the three outcomes, the command index, the sticky error, and the legality of a configuration. -/

namespace Sys2Proof.Machine

/-! ## Turns -/

/-- On the block's turn an idle port leaves the state (log entry 2). -/
theorem step_of_idle {s s' : State} (hlegal : s.cfg.legal = true) (hturn : s.nextTurn = (.block, s')) (hp : s'.port = .idle) :
    step s = .next s' := by
  simp only [step, hlegal, hturn, if_true, blockTurn, hp]

/-- Settles O7: each turn has its own equation of `step`. -/
theorem stepRunsTheCommandInThePort : Obligations.StepRunsTheCommandInThePort := by
  unfold Obligations.StepRunsTheCommandInThePort
  exact ⟨fun _ _ _ _ hturn hd => hturn.step_of_instr hd, fun _ _ _ _ hturn hd => hturn.step_of_reject hd,
    fun _ _ hlegal hturn hp => step_of_idle hlegal hturn hp, fun _ _ _ hturn => hturn.step_eq⟩

/-! ## Outcomes (10_state.md rule R23) -/

/-- Settles O8: a command ends in an error, holds, or performs (`exec_endings`), and a rejected word ends in an error. -/
theorem everyWordEndsInOneOfThreeOutcomes : Obligations.EveryWordEndsInOneOfThreeOutcomes := by
  unfold Obligations.EveryWordEndsInOneOfThreeOutcomes
  intro s s' w hturn
  cases hd : decode w with
  | instr i =>
    obtain ⟨t, hexec, -⟩ := exec_total i s'
    refine ⟨t, (hturn.step_of_instr hd).trans hexec, ?_⟩
    obtain ⟨-, herror⟩ | ⟨-, hheld⟩ | hdone := exec_endings hexec
    · exact .inr (.inl ⟨herror.status_ne_zero, herror.frame⟩)
    · exact .inl hheld
    · obtain ⟨hstatus, hidle, -⟩ := performed_complete hdone
      exact .inr (.inr ⟨hstatus, hidle⟩)
  | reject e =>
    obtain ⟨t, hreject, -⟩ := rejectWord_total e s'
    have herror := rejectWord_endsInError hreject
    exact ⟨t, (hturn.step_of_reject hd).trans hreject, .inr (.inl ⟨herror.status_ne_zero, herror.frame⟩)⟩

/-! ## The command index (10_state.md rule R22) -/

theorem nextTurn_ci {s s' : State} {turn : Turn} (h : s.nextTurn = (turn, s')) : s'.ci = s.ci := by rw [nextTurn_eq h]

theorem hostMove_ci {m : HostMove} {s t : State} (h : hostMove m s = .next t) (hm : m ≠ .hardReset) : t.ci = s.ci := by
  rw [hostMove_frame h hm]

/-- Settles O9: the two ways a command completes and a rejected word advance the index by 1, and the host's moves are not
commands. -/
theorem completedCommandsAdvanceTheIndex : Obligations.CompletedCommandsAdvanceTheIndex := by
  unfold Obligations.CompletedCommandsAdvanceTheIndex
  refine ⟨?_, ?_, ?_⟩
  · intro i s t w hbusy hexec
    obtain ⟨hi, herror⟩ | ⟨-, rfl⟩ | hdone := exec_endings hexec
    · exact .inr ⟨herror.idle, .inr ⟨hi, herror.ci⟩⟩
    · exact .inl ⟨hbusy, rfl⟩
    · obtain ⟨-, hidle, hci⟩ := performed_complete hdone
      exact .inr ⟨hidle, hci⟩
  · intro s s' w e hturn hd
    obtain ⟨t, hreject, -⟩ := rejectWord_total e s'
    have herror := rejectWord_endsInError hreject
    exact ⟨t, (hturn.step_of_reject hd).trans hreject, herror.idle, by rw [herror.ci, nextTurn_ci hturn.turn]⟩
  · intro s s' t m hturn hstep
    rw [hturn.step_eq] at hstep
    by_cases hm : m = .hardReset
    · subst hm
      cases hstep
      rfl
    · rw [if_neg hm, hostMove_ci hstep hm, nextTurn_ci hturn.turn]

/-! ## The sticky error (60_exceptions.md rule R234) -/

/-- The commands the sticky check passes over have the opcodes of RD.REG and RESET. -/
theorem ignoresSticky_eq_passesSticky (i : Instr) : Instr.ignoresSticky i = passesSticky i.opcode := by
  cases i <;> rfl

/-- The opcode a rejected word was rejected with is its own. -/
theorem opcode_of_reject {w : CommandWord} {e : DecodeError} (h : decode w = .reject e) :
    e = .illegalOpcode (opcField w) ∨ e = .reservedField (opcField w) := by
  unfold decode at h
  split at h
  · exact .inl (Decoded.reject.inj h).symm
  · split at h
    · cases h
    · exact .inr (Decoded.reject.inj h).symm

theorem rejectWord_of_sticky {w : CommandWord} {e : DecodeError} {s : State} (hd : decode w = .reject e)
    (hpass : passesSticky (opcField w) = false) (hsticky : s.err ≠ 0#4) : rejectWord e s = .next s.turnedAway := by
  obtain rfl | rfl := opcode_of_reject hd
  · exact unlessSticky_of_set hsticky
  · rw [rejectWord, hpass]
    exact unlessSticky_of_set hsticky

/-- Settles O11: the sticky check comes before anything else but the opcodes it passes over, whether or not the word is a
command. -/
theorem stickyErrorTurnsCommandsAway : Obligations.StickyErrorTurnsCommandsAway := by
  unfold Obligations.StickyErrorTurnsCommandsAway
  refine ⟨?_, ?_, fun s => ⟨s.resetBlock, rfl, resetBlock_values s⟩⟩
  · intro s s' w hturn hsticky hrdreg hreset
    have hpass : passesSticky (opcField w) = false := by simp [passesSticky, hrdreg, hreset]
    cases hd : decode w with
    | instr i =>
      have hi : Instr.ignoresSticky i = false := by
        rw [ignoresSticky_eq_passesSticky, ← opcField_of_decode hd, hpass]
      rw [hturn.step_of_instr hd]
      exact refusedWhileSticky hi s' hsticky
    | reject e =>
      exact ⟨s'.turnedAway, (hturn.step_of_reject hd).trans (rejectWord_of_sticky hd hpass hsticky), rfl⟩
  · intro r s hr
    obtain ⟨v, hv⟩ := register_of_legal s hr
    exact ⟨v, hv, exec_rdReg_performs hv⟩

/-! ## What changes a set `ERR` (10_state.md rule R26) -/

theorem nextTurn_err {s s' : State} {turn : Turn} (h : s.nextTurn = (turn, s')) : s'.err = s.err := by rw [nextTurn_eq h]

theorem hostMove_err {m : HostMove} {s t : State} (h : hostMove m s = .next t) (hm : m ≠ .hardReset) : t.err = s.err := by
  rw [hostMove_frame h hm]

theorem exec_err_of_set {i : Instr} {s t : State} (h : exec i s = .next t) (hi : i ≠ .reset) (hset : s.err ≠ 0#4) :
    t.err = s.err := by
  obtain ⟨-, herror⟩ | ⟨-, rfl⟩ | hdone := exec_endings h
  · exact herror.err_of_set hset
  · rfl
  · rw [(performed_frame hdone hi).1]

/-- A word that is a RESET has RESET's opcode and its reserved fields 0 (30_encoding.md rules R82 to R84). -/
theorem fields_of_decode_reset {w : CommandWord} (h : decode w = .instr .reset) :
    opcField w = 0x3F#8 ∧ aField w = 0#8 ∧ bField w = 0#16 := by
  have hopc : opcField w = 0x3F#8 := opcField_of_decode h
  obtain ⟨fmt, make, hrow, hclear, -⟩ := decode_eq_instr h
  rw [hopc] at hrow
  cases hrow
  exact ⟨hopc, reservedClear_z.mp hclear⟩

/-- Settles O12: of all a step can do, only the hardware reset and RESET do not keep a set `ERR`. -/
theorem onlyAResetClearsErr : Obligations.OnlyAResetClearsErr := by
  unfold Obligations.OnlyAResetClearsErr
  intro s t hstep hset hchanged
  obtain ⟨hlegal, ⟨m, s', hturn, hmove⟩ | ⟨s', hturn, -, rfl⟩ | ⟨s', w, i, hturn, hbusy, hd, hexec⟩ |
    ⟨s', w, e, hturn, -, -, hreject⟩⟩ := step_cases hstep
  all_goals have herr := nextTurn_err hturn
  · obtain rfl : m = .hardReset := by_contra fun hm => hchanged ((hostMove_err hmove hm).trans herr)
    cases hmove
    exact ⟨resetBlock_values s', .inl ⟨s', hlegal, hturn⟩⟩
  · exact absurd herr hchanged
  · obtain rfl : i = .reset :=
      by_contra fun hi => hchanged ((exec_err_of_set hexec hi (herr ▸ hset)).trans herr)
    cases hexec
    exact ⟨resetBlock_values s', .inr ⟨s', w, ⟨hlegal, hturn, hbusy⟩, fields_of_decode_reset hd⟩⟩
  · exact absurd (((rejectWord_endsInError hreject).err_of_set (herr ▸ hset)).trans herr) hchanged

/-! ## Legal configurations (00_scope.md rules R4 and R5) -/

theorem capAtLeast_eq_true {n : Nat} {cap : Option Nat} : Config.capAtLeast n cap = true ↔ ∀ c, cap = some c → n ≤ c := by
  cases cap <;> simp [Config.capAtLeast]

theorem lengthInRange_eq_true {l : Nat} : lengthInRange l = true ↔ 1 ≤ l ∧ l ≤ 20 := by
  simp only [lengthInRange, Bool.and_eq_true, decide_eq_true_eq, Config.lMin, Config.lMax]

/-- An admissible array (42_huffman.md rule R171). -/
theorem admissible_iff {lens : List Nat} :
    admissible lens = true ↔ (∀ l ∈ lens, 1 ≤ l ∧ l ≤ 20) ∧ kraftSum lens ≤ 2 ^ 20 := by
  simp only [admissible, Bool.and_eq_true, List.all_eq_true, decide_eq_true_eq, lengthInRange_eq_true]

theorem legal_iff {c : Config} :
    c.legal = true ↔ (∀ n, c.outCap = some n → 4 ≤ n) ∧ (∀ n, c.inCap = some n → 5 ≤ n) ∧ c.fixedLen.length ≤ 258 ∧
      admissible c.fixedLens = true := by
  simp only [Config.legal, Bool.and_eq_true, capAtLeast_eq_true, decide_eq_true_eq, and_assoc]
  rfl

/-- Settles O13: `legal_iff` with the fixed table's admissibility written out. -/
theorem illegalConfigurationsAreRefused : Obligations.IllegalConfigurationsAreRefused := by
  unfold Obligations.IllegalConfigurationsAreRefused
  intro s
  constructor
  · simp only [legal_iff, admissible_iff, Config.fixedLens, kraftSum, List.forall_mem_map, List.map_map]
    rfl
  · intro hillegal
    simp only [step, hillegal, Bool.false_eq_true, if_false]

/-! ## COLLECT and what it reads (20_memory.md rule R64) -/

theorem nextTurn_completion {s s' : State} {turn : Turn} (h : s.nextTurn = (turn, s')) :
    s'.port = s.port ∧ s'.status = s.status ∧ s'.result = s.result := by
  rw [nextTurn_eq h]
  exact ⟨rfl, rfl, rfl⟩

theorem hostMove_completion {m : HostMove} {s t : State} (h : hostMove m s = .next t) (hm : m ≠ .hardReset) :
    t.status = s.status ∧ t.result = s.result := by
  rw [hostMove_frame h hm]
  exact ⟨rfl, rfl⟩

/-- Settles O18: COLLECT by whether the port is idle; and with an idle port the block only waits, and no move of the host but
the hardware reset writes `STATUS` or `RESULT`. -/
theorem collectReadsTheCompletion : Obligations.CollectReadsTheCompletion := by
  unfold Obligations.CollectReadsTheCompletion
  constructor
  · intro s s' hturn
    rw [hturn.step_eq]
    exact ⟨hostCollect_of_idle, hostCollect_of_busy⟩
  · intro s t hidle hnoreset hstep
    obtain ⟨-, ⟨m, s', hturn, hmove⟩ | ⟨s', hturn, -, rfl⟩ | ⟨s', _, _, hturn, hbusy, -⟩ | ⟨s', _, _, hturn, hbusy, -⟩⟩ :=
      step_cases hstep
    all_goals obtain ⟨hport, hstatus, hresult⟩ := nextTurn_completion hturn
    · have hm : m ≠ .hardReset := by
        rintro rfl
        exact hnoreset s' hturn
      obtain ⟨hstatus', hresult'⟩ := hostMove_completion hmove hm
      exact ⟨hstatus'.trans hstatus, hresult'.trans hresult⟩
    · exact ⟨hstatus, hresult⟩
    all_goals simp [hidle, hbusy] at hport

end Sys2Proof.Machine
end

section
/-! PROOFS. The two bit streams across steps (20_memory.md rules R52 and R55): what each command and each move of the host adds to
the output stream and takes from the input stream. -/

namespace Sys2Proof.Machine

/-! ## What a move of the host left -/

theorem hostPush_next {b : Byte} {s t : State} (h : hostPush b s = .next t) :
    s.pushEnabled = true ∧ t = { s with reader := { s.reader with bytes := s.reader.bytes ++ [b] } } := by
  cases he : s.pushEnabled with
  | true =>
    rw [hostPush_of_enabled b he] at h
    exact ⟨rfl, (Host.Outcome.next.inj h).symm⟩
  | false =>
    rw [hostPush_of_not_enabled b he] at h
    cases h

theorem hostPop_next {s t : State} (h : hostPop s = .next t) :
    ∃ b rest, s.writer.out = b :: rest ∧
      t = { s with writer := { s.writer with out := rest }, popped := s.popped ++ [b] } := by
  cases ho : s.writer.out with
  | nil =>
    rw [hostPop_nil ho] at h
    cases h
  | cons b rest =>
    rw [hostPop_cons ho] at h
    exact ⟨b, rest, rfl, (Host.Outcome.next.inj h).symm⟩

theorem hostIssue_next {w : CommandWord} {s t : State} (h : hostIssue w s = .next t) : t = { s with port := .busy w } := by
  by_cases hp : s.port = .idle
  · rw [hostIssue_of_idle w hp] at h
    exact (Host.Outcome.next.inj h).symm
  · rw [hostIssue_of_busy w hp] at h
    cases h

theorem hostCollect_next {s t : State} (h : hostCollect s = .next t) :
    t = { s with collected := s.collected ++ [{ status := s.status, result := s.result }] } := by
  by_cases hp : s.port = .idle
  · rw [hostCollect_of_idle hp] at h
    exact (Host.Outcome.next.inj h).symm
  · rw [hostCollect_of_busy hp] at h
    cases h

/-! ## The output stream (rule R52) -/

theorem bitsWritten_eq_nil {i : Instr} (s : State) (h : writesWriter i = false) : bitsWritten s i = [] := by
  cases i
  case bwWrite | bwFlush | htEnc => cases h
  all_goals rfl

/-- A command that performs appends its bits to what the writer holds. -/
theorem performed_stream {i : Instr} {s t : State} (h : Performed s t i) (hi : i ≠ .reset) (hok : s.writer.Ok) :
    t.writer.Ok ∧ t.writer.stream = s.writer.stream ++ bitsWritten s i := by
  cases hw : writesWriter i with
  | false =>
    obtain ⟨-, hwriter, -⟩ := performed_frame h hi
    rw [hwriter hw, bitsWritten_eq_nil s hw, List.append_nil]
    exact ⟨hok, rfl⟩
  | true =>
    cases i
    case bwWrite n v =>
      obtain ⟨-, -, rfl⟩ := h
      exact Writer.putBits_spec n.toNat v s.writer hok
    case bwFlush =>
      obtain ⟨-, rfl⟩ := h
      obtain ⟨hok', -, hstream⟩ := Writer.flush_spec s.writer hok
      exact ⟨hok', hstream⟩
    case htEnc tab k =>
      obtain ⟨l, c, hfind, -, rfl⟩ := h
      have hcode : (c.setWidth 32).toNat = c.toNat := BitVec.toNat_setWidth_of_le (by decide)
      simp only [bitsWritten, hfind, ← hcode]
      exact Writer.putBits_spec l.toNat (c.setWidth 32) s.writer hok
    case reset => exact absurd rfl hi
    all_goals cases hw

/-- The stream depends on the popped bytes and the writer alone. -/
theorem written_congr {s t : State} (hpopped : t.popped = s.popped) (hwriter : t.writer = s.writer) :
    t.written = s.written := by
  rw [State.written, State.written, hpopped, hwriter]

theorem nextTurn_written {s s' : State} {turn : Turn} (h : s.nextTurn = (turn, s')) : s'.written = s.written := by
  rw [nextTurn_eq h]
  rfl

theorem EndsInError.written {s t : State} (h : EndsInError s t) : t.written = s.written := by
  obtain ⟨hwriter, -, -, -, -, -, -, -, hpopped, -⟩ := h.units
  exact written_congr hpopped hwriter

theorem performed_written {i : Instr} {s t : State} (h : Performed s t i) (hi : i ≠ .reset) (hok : s.writer.Ok) :
    t.written = s.written ++ bitsWritten s i := by
  have hpopped : t.popped = s.popped := by rw [(performed_frame h hi).1]
  rw [State.written, State.written, hpopped, (performed_stream h hi hok).2, List.append_assoc]

/-- A POP moves a byte from one part of the stream to the next (rule R62); no other move but the hardware reset touches either. -/
theorem hostMove_written {m : HostMove} {s t : State} (h : hostMove m s = .next t) (hm : m ≠ .hardReset) :
    t.written = s.written := by
  cases m with
  | push b =>
    obtain ⟨-, rfl⟩ := hostPush_next h
    rfl
  | endOfInput =>
    cases h
    rfl
  | pop =>
    obtain ⟨b, rest, hout, rfl⟩ := hostPop_next h
    simp only [State.written, Writer.stream, hout, bytesBits_append, bytesBits_cons, bytesBits_nil, List.append_nil,
      List.append_assoc]
  | issue w =>
    obtain rfl := hostIssue_next h
    rfl
  | collect =>
    obtain rfl := hostCollect_next h
    rfl
  | hardReset => exact absurd rfl hm

/-- Settles O50: an error and a hold leave the writer, a command that performed appends its bits (`performed_written`), and the
host's moves are `hostMove_written`. -/
theorem theOutputStreamIsTheBitsWritten : Obligations.TheOutputStreamIsTheBitsWritten := by
  unfold Obligations.TheOutputStreamIsTheBitsWritten
  refine ⟨?_, ?_, ?_, ?_⟩
  · intro s s' t w i hturn hd hi hok hstep
    rw [hturn.step_of_instr hd] at hstep
    rw [← nextTurn_written hturn.turn]
    replace hok : s'.writer.Ok := by rwa [nextTurn_eq hturn.turn]
    obtain ⟨-, herror⟩ | ⟨-, rfl⟩ | hdone := exec_endings hstep
    · obtain ⟨hwriter, -⟩ := herror.units
      exact ⟨hwriter ▸ hok, fun hends => absurd hends.2 herror.status_ne_zero, fun _ => herror.written⟩
    · exact ⟨hok, fun hends => by simp [hturn.busy] at hends, fun _ => rfl⟩
    · obtain ⟨hstatus, hidle, -⟩ := performed_complete hdone
      exact ⟨(performed_stream hdone hi hok).1, fun _ => performed_written hdone hi hok,
        fun hends => by simp [hstatus, hidle] at hends⟩
  · intro s s' t w e hturn hd hstep
    rw [hturn.step_of_reject hd] at hstep
    exact (rejectWord_endsInError hstep).written.trans (nextTurn_written hturn.turn)
  · intro s s' t hturn hidle hstep
    obtain rfl : s' = t := Host.Outcome.next.inj ((step_of_idle (step_cases hstep).1 hturn hidle).symm.trans hstep)
    exact nextTurn_written hturn
  · intro s s' t m hturn hm hstep
    rw [hturn.step_eq] at hstep
    exact (hostMove_written hstep hm).trans (nextTurn_written hturn.turn)

/-! ## The input stream (rule R55) -/

/-- `R_POS` lies within the bits of `IN` (rule R40(c)). -/
theorem Reader.Ok.pos_le {r : Reader} (h : r.Ok) : r.pos.val ≤ (bytesBits r.bytes).length := by
  rw [bytesBits_length]
  cases hb : r.bytes with
  | nil => simp [h hb]
  | cons b bs =>
    have hpos := r.pos.isLt
    simp only [List.length_cons]
    omega

/-- A byte pushed is unread, after all that was (rule R60). -/
theorem Reader.unread_push {r : Reader} (h : r.Ok) (b : Byte) :
    { r with bytes := r.bytes ++ [b] }.unread = r.unread ++ fieldBits 8 b.toNat := by
  simp only [Reader.unread, bytesBits_append, bytesBits_cons, bytesBits_nil, List.append_nil]
  exact List.drop_append_of_le_length h.pos_le

theorem nextTurn_reader {s s' : State} {turn : Turn} (h : s.nextTurn = (turn, s')) : s'.reader = s.reader := by
  rw [nextTurn_eq h]

/-- Only a PUSH and the hardware reset change what is unread. -/
theorem hostMove_unread {m : HostMove} {s t : State} (h : hostMove m s = .next t) (hm : m ≠ .hardReset)
    (hpush : ∀ b, m ≠ .push b) : t.reader.unread = s.reader.unread := by
  cases m with
  | push b => exact absurd rfl (hpush b)
  | endOfInput =>
    cases h
    rfl
  | pop =>
    obtain ⟨_, _, -, rfl⟩ := hostPop_next h
    rfl
  | issue w =>
    obtain rfl := hostIssue_next h
    rfl
  | collect =>
    obtain rfl := hostCollect_next h
    rfl
  | hardReset => exact absurd rfl hm

theorem EndsInError.reader {s t : State} (h : EndsInError s t) : t.reader = s.reader := by
  obtain ⟨-, hreader, -⟩ := h.units
  exact hreader

/-- A BR.READ that performs splits the unread bits into its result and the rest (40_bit_channel.md rule R121). -/
theorem performed_brRead {n : BitVec 8} {s t : State} (h : Performed s t (.brRead n)) :
    fieldBits n.toNat t.result.toNat ++ t.reader.unread = s.reader.unread := by
  obtain ⟨hn, henough, rfl⟩ := h
  rw [readShort_eq_false] at henough
  obtain ⟨-, hbits⟩ := Reader.readBits_field n.toNat s.reader henough hn
  obtain ⟨-, hrest⟩ := Reader.readBits_spec n.toNat 0 s.reader henough
  simp only [State.completeWith_result, State.completeWith_reader, hbits, hrest, List.take_append_drop]

theorem writesReader_eq_false {i : Instr} (hi : i ≠ .reset) (hread : ∀ n, i ≠ .brRead n) : writesReader i = false := by
  cases i
  case reset => exact absurd rfl hi
  case brRead n => exact absurd rfl (hread n)
  all_goals rfl

/-- Settles O51: a PUSH is `Reader.unread_push`, a performed read `performed_brRead`, and nothing else but a reset touches the
reader's bytes or position. -/
theorem theInputStreamIsReadInOrder : Obligations.TheInputStreamIsReadInOrder := by
  unfold Obligations.TheInputStreamIsReadInOrder
  refine ⟨?_, ?_, ?_, ?_, ?_, ?_⟩
  · intro s s' t b hturn hok hstep
    rw [hturn.step_eq] at hstep
    obtain ⟨-, rfl⟩ := hostPush_next hstep
    rw [← nextTurn_reader hturn.turn] at hok ⊢
    exact Reader.unread_push hok b
  · intro s s' t m hturn hm hpush hstep
    rw [hturn.step_eq] at hstep
    rw [hostMove_unread hstep hm hpush, nextTurn_reader hturn.turn]
  · intro s s' t w n hturn hd hstep
    rw [hturn.step_of_instr hd] at hstep
    rw [← nextTurn_reader hturn.turn]
    obtain ⟨-, herror⟩ | ⟨-, rfl⟩ | hdone := exec_endings hstep
    · exact ⟨fun hends => absurd hends.2 herror.status_ne_zero, fun _ => herror.reader⟩
    · exact ⟨fun hends => by simp [hturn.busy] at hends, fun _ => rfl⟩
    · obtain ⟨hstatus, hidle, -⟩ := performed_complete hdone
      exact ⟨fun _ => performed_brRead hdone, fun hends => by simp [hstatus, hidle] at hends⟩
  · intro s s' t w i hturn hd hi hread hstep
    rw [hturn.step_of_instr hd] at hstep
    obtain ⟨-, hreader, -⟩ := commandsLeaveOtherUnitsAlone i s' t hstep
    exact (hreader (writesReader_eq_false hi hread)).trans (nextTurn_reader hturn.turn)
  · intro s s' t w e hturn hd hstep
    rw [hturn.step_of_reject hd] at hstep
    exact (rejectWord_endsInError hstep).reader.trans (nextTurn_reader hturn.turn)
  · intro s s' t hturn hidle hstep
    obtain rfl : s' = t := Host.Outcome.next.inj ((step_of_idle (step_cases hstep).1 hturn hidle).symm.trans hstep)
    exact nextTurn_reader hturn

end Sys2Proof.Machine
end

section
/-! PROOFS. The canonical code (42_huffman.md rules R174 and R175). Scaled to 20 bits, a code is the Kraft sum of the symbols before
its own in the order of (length, index), so that the codes are disjoint intervals of `[0, 2^20)`: from this follow that they fit,
grow, and that none begins another. -/

namespace Sys2Proof.Machine

/-! ## Kraft sums over symbols -/

/-- The Kraft sum, scaled by `2^20` (rule R171), of the symbols that satisfy `p`. -/
def kraftOf (lens : List Nat) (p : Nat → Prop) [DecidablePred p] : Nat :=
  ∑ u ∈ Finset.range lens.length with p u, 2 ^ (20 - lens.getD u 0)

section
variable {lens : List Nat} {p q : Nat → Prop} [DecidablePred p] [DecidablePred q]

theorem kraftOf_congr (h : ∀ u, u < lens.length → (p u ↔ q u)) : kraftOf lens p = kraftOf lens q :=
  congrArg (Finset.sum · _) (Finset.filter_congr fun u hu => h u (Finset.mem_range.mp hu))

theorem kraftOf_mono (h : ∀ u, p u → q u) : kraftOf lens p ≤ kraftOf lens q :=
  Finset.sum_le_sum_of_subset (Finset.monotone_filter_right _ fun u _ => h u)

theorem kraftOf_or (h : ∀ u, p u → ¬ q u) : kraftOf lens (fun u => p u ∨ q u) = kraftOf lens p + kraftOf lens q := by
  rw [kraftOf, Finset.filter_or, Finset.sum_union (Finset.disjoint_filter.mpr fun u _ => h u)]
  rfl

theorem kraftOf_singleton {s : Nat} (hs : s < lens.length) : kraftOf lens (· = s) = 2 ^ (20 - lens.getD s 0) := by
  rw [kraftOf, Finset.filter_eq', if_pos (Finset.mem_range.mpr hs), Finset.sum_singleton]

/-- Symbols that all have one length. -/
theorem kraftOf_of_length {l : Nat} (h : ∀ u, p u → lens.getD u 0 = l) :
    kraftOf lens p = ((Finset.range lens.length).filter p).card * 2 ^ (20 - l) :=
  Finset.sum_const_nat fun u hu => by rw [h u (Finset.mem_filter.mp hu).2]

end

/-- Rule R171's sum is over all symbols. -/
theorem kraftSum_eq (lens : List Nat) : kraftSum lens = kraftOf lens fun _ => True := by
  rw [kraftOf, Finset.filter_true]
  induction lens with
  | nil => rfl
  | cons x xs ih =>
    rw [List.length_cons, Finset.sum_range_succ', Nat.add_comm]
    exact congrArg (2 ^ (20 - x) + ·) ih

/-- A sum over a filtered list of symbols, as the statement of rule R174 writes it. -/
theorem sum_filter_range (n : Nat) (p : Nat → Bool) (f : Nat → Nat) :
    (((List.range n).filter p).map f).sum = ∑ u ∈ Finset.range n with p u = true, f u := by
  induction n with
  | zero => rfl
  | succ n ih =>
    rw [List.range_succ, List.filter_append, List.map_append, List.sum_append, ih, Finset.range_add_one, Finset.filter_insert]
    cases hp : p n with
    | true => simp [hp, Nat.add_comm]
    | false => simp [hp]

/-! ## The counter of the assignment loops (rule R174) -/

/-- The symbols of length `l` among the first `k`. -/
theorem count_take (lens : List Nat) (l k : Nat) (hk : k ≤ lens.length) :
    (lens.take k).count l = ((Finset.range k).filter fun u => lens.getD u 0 = l).card := by
  induction k with
  | zero => rfl
  | succ k ih =>
    have hget : lens.getD k 0 = lens[k] := List.getD_eq_getElem lens 0 hk
    rw [List.take_add_one, List.getElem?_eq_getElem hk, List.count_append, ih (Nat.le_of_succ_le hk), Finset.range_add_one,
      Finset.filter_insert, hget]
    by_cases hl : lens[k] = l
    · simp [hl]
    · simp [hl]

theorem count_eq (lens : List Nat) (l : Nat) :
    lens.count l = ((Finset.range lens.length).filter fun u => lens.getD u 0 = l).card := by
  rw [← count_take lens l lens.length le_rfl, List.take_length]

/-- The symbols shorter than `l + 1` are those shorter than `l` and those of length `l`. -/
theorem kraftOf_lt_succ (lens : List Nat) (l : Nat) :
    kraftOf lens (fun u => lens.getD u 0 < l + 1) =
      kraftOf lens (fun u => lens.getD u 0 < l) + lens.count l * 2 ^ (20 - l) := by
  rw [count_eq, ← kraftOf_of_length (p := fun u => lens.getD u 0 = l) fun _ h => h, ← kraftOf_or fun _ => Nat.ne_of_lt]
  exact kraftOf_congr fun u _ => Nat.lt_succ_iff_lt_or_eq

/-- The counter before length `d + 1`, scaled, is the Kraft sum of the shorter symbols. -/
theorem counterAt_eq_kraftOf {lens : List Nat} (h : ∀ u, u < lens.length → 1 ≤ lens.getD u 0) (d : Nat) (hd : d < 20) :
    counterAt lens 1 0 d * 2 ^ (20 - (d + 1)) = kraftOf lens fun u => lens.getD u 0 < d + 1 := by
  induction d with
  | zero =>
    have hnone : kraftOf lens (fun u => lens.getD u 0 < 0 + 1) = kraftOf lens fun _ => False :=
      kraftOf_congr fun u hu => iff_false_intro (by have := h u hu; omega)
    rw [hnone, kraftOf, Finset.filter_false]
    simp [counterAt]
  | succ d ih =>
    have hpow : 2 ^ (20 - (d + 1)) = 2 * 2 ^ (20 - (d + 1 + 1)) := by
      rw [← Nat.pow_succ']
      congr 1
      omega
    rw [kraftOf_lt_succ, ← ih (by omega), counterAt_succ, hpow, Nat.add_comm 1 d]
    ring

/-! ## A code is an interval -/

/-- Symbol `u` comes before symbol `s` in the order of (length, index). -/
abbrev Before (lens : List Nat) (s u : Nat) : Prop :=
  lens.getD u 0 < lens.getD s 0 ∨ (lens.getD u 0 = lens.getD s 0 ∧ u < s)

theorem before_irrefl (lens : List Nat) (s : Nat) : ¬ Before lens s s := by simp [Before]

theorem before_trans {lens : List Nat} {s u v : Nat} (hsu : Before lens s u) (huv : Before lens u v) : Before lens s v := by
  unfold Before at *
  omega

theorem before_or_before {lens : List Nat} {s u : Nat} (h : s ≠ u) : Before lens s u ∨ Before lens u s := by
  unfold Before
  omega

/-- A code scaled to 20 bits is the Kraft sum of the symbols before its own. -/
theorem canonical_scaled {lens : List Nat} {s : Nat} (hlens : ∀ u, u < lens.length → 1 ≤ lens.getD u 0 ∧ lens.getD u 0 ≤ 20)
    (hs : s < lens.length) : (canonical lens).getD s 0 * 2 ^ (20 - lens.getD s 0) = kraftOf lens (Before lens s) := by
  obtain ⟨hmin, hmax⟩ := hlens s hs
  have hshorter := counterAt_eq_kraftOf (fun u hu => (hlens u hu).1) (lens.getD s 0 - 1) (by omega)
  rw [Nat.sub_add_cancel hmin] at hshorter
  have hequal : kraftOf lens (fun u => lens.getD u 0 = lens.getD s 0 ∧ u < s) =
      (lens.take s).count (lens.getD s 0) * 2 ^ (20 - lens.getD s 0) := by
    rw [count_take lens _ s hs.le, kraftOf_of_length fun _ h => h.1]
    congr 2
    ext u
    simp only [Finset.mem_filter, Finset.mem_range]
    constructor
    · exact fun ⟨_, hl, hu⟩ => ⟨hu, hl⟩
    · exact fun ⟨hu, hl⟩ => ⟨hu.trans hs, hl, hu⟩
  rw [canonical_spec lens s hs (hlens s hs), Nat.add_mul, hshorter, ← hequal,
    ← kraftOf_or fun u hlt heq => Nat.ne_of_lt hlt heq.1]

/-- The intervals of two symbols are disjoint, the earlier one's first. -/
theorem canonical_disjoint {lens : List Nat} {s u : Nat}
    (hlens : ∀ v, v < lens.length → 1 ≤ lens.getD v 0 ∧ lens.getD v 0 ≤ 20) (hs : s < lens.length) (hu : u < lens.length)
    (hbefore : Before lens u s) :
    ((canonical lens).getD s 0 + 1) * 2 ^ (20 - lens.getD s 0) ≤ (canonical lens).getD u 0 * 2 ^ (20 - lens.getD u 0) := by
  rw [Nat.add_mul, Nat.one_mul, canonical_scaled hlens hs, canonical_scaled hlens hu, ← kraftOf_singleton hs, ← kraftOf_or]
  · refine kraftOf_mono fun v hv => ?_
    obtain hv | rfl := hv
    · exact before_trans hbefore hv
    · exact hbefore
  · rintro v hv rfl
    exact before_irrefl lens v hv

/-- Every interval lies below the Kraft sum of the array. -/
theorem canonical_le_kraftSum {lens : List Nat} {s : Nat}
    (hlens : ∀ v, v < lens.length → 1 ≤ lens.getD v 0 ∧ lens.getD v 0 ≤ 20) (hs : s < lens.length) :
    ((canonical lens).getD s 0 + 1) * 2 ^ (20 - lens.getD s 0) ≤ kraftSum lens := by
  rw [Nat.add_mul, Nat.one_mul, canonical_scaled hlens hs, ← kraftOf_singleton hs, ← kraftOf_or, kraftSum_eq]
  · exact kraftOf_mono fun _ _ => trivial
  · rintro v hv rfl
    exact before_irrefl lens v hv

/-- The interval of the last symbol ends at the Kraft sum. -/
theorem canonical_last_eq_kraftSum {lens : List Nat} {s : Nat}
    (hlens : ∀ v, v < lens.length → 1 ≤ lens.getD v 0 ∧ lens.getD v 0 ≤ 20) (hs : s < lens.length)
    (hlast : ∀ u, u < lens.length → u ≠ s → Before lens s u) :
    ((canonical lens).getD s 0 + 1) * 2 ^ (20 - lens.getD s 0) = kraftSum lens := by
  rw [Nat.add_mul, Nat.one_mul, canonical_scaled hlens hs, ← kraftOf_singleton hs, ← kraftOf_or, kraftSum_eq]
  · exact kraftOf_congr fun u hu => iff_true_intro ((eq_or_ne u s).symm.imp_left (hlast u hu))
  · rintro v hv rfl
    exact before_irrefl lens v hv

/-! ## The statements on an admissible array (rules R171 and R175) -/

/-- The lengths of an array, by symbol. -/
theorem lengths_of_forall_mem {lens : List Nat} (h : ∀ l ∈ lens, 1 ≤ l ∧ l ≤ 20) (u : Nat) (hu : u < lens.length) :
    1 ≤ lens.getD u 0 ∧ lens.getD u 0 ≤ 20 := by
  rw [List.getD_eq_getElem lens 0 hu]
  exact h _ (List.getElem_mem hu)

theorem lengths_of_admissible {lens : List Nat} (h : admissible lens = true) (u : Nat) (hu : u < lens.length) :
    1 ≤ lens.getD u 0 ∧ lens.getD u 0 ≤ 20 :=
  lengths_of_forall_mem (admissible_iff.mp h).1 u hu

/-- `2^20` is `2^l` intervals of length `2^(20-l)`. -/
theorem two_pow_length_mul {l : Nat} (h : l ≤ 20) : 2 ^ l * 2 ^ (20 - l) = 2 ^ 20 := by
  rw [← Nat.pow_add, Nat.add_sub_cancel' h]

/-- Settles O40: `canonical_scaled`, with the sum written over a list. -/
theorem aCodeIsTheKraftSumOfTheSymbolsBefore : Obligations.ACodeIsTheKraftSumOfTheSymbolsBefore := by
  unfold Obligations.ACodeIsTheKraftSumOfTheSymbolsBefore
  intro lens s hlens hs
  rw [canonical_scaled (lengths_of_forall_mem hlens) hs, sum_filter_range]
  simp only [Bool.or_eq_true, Bool.and_eq_true, decide_eq_true_eq, beq_iff_eq]
  rfl

/-- Settles O41: a code's interval ends within `2^20`. -/
theorem codesFitTheirLengths : Obligations.CodesFitTheirLengths := by
  unfold Obligations.CodesFitTheirLengths
  intro lens s hadm hs
  have hlens := lengths_of_admissible hadm
  have hfits := (canonical_le_kraftSum hlens hs).trans (admissible_iff.mp hadm).2
  rw [← two_pow_length_mul (hlens s hs).2] at hfits
  exact Nat.le_of_mul_le_mul_right hfits (Nat.two_pow_pos _)

/-- Settles O43: of two symbols of equal length the smaller one comes before, and their intervals are disjoint. -/
theorem codesOfOneLengthGrowWithTheSymbol : Obligations.CodesOfOneLengthGrowWithTheSymbol := by
  unfold Obligations.CodesOfOneLengthGrowWithTheSymbol
  intro lens s u hadm hsu hu hequal
  have hdisjoint := canonical_disjoint (lengths_of_admissible hadm) (hsu.trans hu) hu (.inr ⟨hequal, hsu⟩)
  rw [hequal] at hdisjoint
  exact Nat.le_of_mul_le_mul_right hdisjoint (Nat.two_pow_pos _)

/-- Settles O44: the last symbol of the greatest length comes after every other, so its interval ends at `2^20`. -/
theorem aCompleteCodeEndsInAllOnes : Obligations.ACompleteCodeEndsInAllOnes := by
  unfold Obligations.ACompleteCodeEndsInAllOnes
  intro lens s hadm hcomplete hs hlongest hlast
  have hlens := lengths_of_admissible hadm
  have hends := canonical_last_eq_kraftSum hlens hs fun u hu hne => by
    have hle := hlongest u hu
    by_cases hsu : s < u
    · exact .inl (hlast u hsu hu)
    · unfold Before
      omega
  rw [hcomplete, ← two_pow_length_mul (hlens s hs).2] at hends
  exact Nat.eq_of_mul_eq_mul_right (Nat.two_pow_pos _) hends

/-! ## Codes that begin others (rule R175(b)) -/

/-- The first `n` bits of a longer field are the field of its value's high part. -/
theorem fieldBits_add (n k v : Nat) : fieldBits (n + k) v = fieldBits n (v / 2 ^ k) ++ fieldBits k v := by
  induction n with
  | zero => simp
  | succ n ih =>
    rw [Nat.succ_add, fieldBits_succ, ih, fieldBits_succ n, Nat.testBit_div_two_pow, List.cons_append]

/-- A field that begins another is its high part. -/
theorem eq_div_of_fieldBits_prefix {n m a b : Nat} (ha : a < 2 ^ n) (hb : b < 2 ^ m)
    (h : fieldBits n a <+: fieldBits m b) : n ≤ m ∧ a = b / 2 ^ (m - n) := by
  have hle : n ≤ m := by simpa using h.length_le
  refine ⟨hle, ?_⟩
  have hsplit := fieldBits_add n (m - n) b
  rw [Nat.add_sub_cancel' hle] at hsplit
  rw [hsplit] at h
  have hbits := (List.prefix_of_prefix_length_le h (List.prefix_append _ _) (by simp)).eq_of_length (by simp)
  refine fieldBits_inj n _ _ ha ?_ hbits
  rw [Nat.div_lt_iff_lt_mul (Nat.two_pow_pos _), ← Nat.pow_add, Nat.add_sub_cancel' hle]
  exact hb

/-- Settles O42: a code that begins another has the other in its interval, against `canonical_disjoint`. -/
theorem codesArePrefixFree : Obligations.CodesArePrefixFree := by
  unfold Obligations.CodesArePrefixFree
  intro lens s u hadm hs hu hne hprefix
  have hlens := lengths_of_admissible hadm
  obtain ⟨hle, hhigh⟩ := eq_div_of_fieldBits_prefix (codesFitTheirLengths lens s hadm hs)
    (codesFitTheirLengths lens u hadm hu) hprefix
  have hscale : 2 ^ (20 - lens.getD s 0) = 2 ^ (lens.getD u 0 - lens.getD s 0) * 2 ^ (20 - lens.getD u 0) := by
    rw [← Nat.pow_add]
    have := (hlens u hu).2
    congr 1
    omega
  have hlow : (canonical lens).getD s 0 * 2 ^ (lens.getD u 0 - lens.getD s 0) ≤ (canonical lens).getD u 0 :=
    hhigh ▸ Nat.div_mul_le_self _ _
  have hup : (canonical lens).getD u 0 < ((canonical lens).getD s 0 + 1) * 2 ^ (lens.getD u 0 - lens.getD s 0) := by
    rw [hhigh, Nat.mul_comm]
    exact Nat.lt_mul_div_succ _ (Nat.two_pow_pos _)
  obtain hbefore | hbefore := before_or_before (lens := lens) hne
  · have hdisjoint := canonical_disjoint hlens hu hs hbefore
    rw [hscale, ← Nat.mul_assoc] at hdisjoint
    exact Nat.not_succ_le_self _ ((Nat.le_of_mul_le_mul_right hdisjoint (Nat.two_pow_pos _)).trans hlow)
  · have hdisjoint := canonical_disjoint hlens hs hu hbefore
    rw [hscale, ← Nat.mul_assoc] at hdisjoint
    exact hup.not_ge (Nat.le_of_mul_le_mul_right hdisjoint (Nat.two_pow_pos _))

end Sys2Proof.Machine
end

section
/-! PROOFS. The invariant of 10_state.md rule R40: it holds after a reset, and every command, every error completion and every move
of the host keeps it. -/

namespace Sys2Proof.Machine

theorem withinCap_eq_true {cap : Option Nat} {n : Nat} : withinCap cap n = true ↔ ∀ c, cap = some c → n ≤ c := by
  cases cap <;> simp [withinCap]

theorem withinCap_of_le {cap : Option Nat} {m n : Nat} (h : withinCap cap n = true) (hle : m ≤ n) : withinCap cap m = true :=
  withinCap_eq_true.mpr fun c hc => hle.trans (withinCap_eq_true.mp h c hc)

/-- A FIFO within its capacity that has room for `n` more stays within it. -/
theorem withinCap_add {cap : Option Nat} {held n : Nat} (h : withinCap cap held = true) (hroom : lacksRoom cap held n = false) :
    withinCap cap (held + n) = true := by
  refine withinCap_eq_true.mpr fun c hc => ?_
  have hheld := withinCap_eq_true.mp h c hc
  have hn := lacksRoom_eq_false.mp hroom c hc
  omega

/-- Every kind but `InvalidConfiguration` has a code the block produces (60_exceptions.md rules R231 and R246). -/
theorem producedCode_code {e : CommandError} (he : e ≠ .invalidConfiguration) : producedCode e.code := by
  cases e
  case invalidConfiguration => exact absurd rfl he
  all_goals decide

theorem producedCode_zero : producedCode 0#4 := by decide

/-! ## Tables -/

namespace HuffTable.Ok

theorem unset : HuffTable.unset.Ok where
  lenRam := rfl
  codeRam := rfl
  lengths _ := Nat.zero_le _
  count := Nat.zero_le _
  valid h := absurd rfl h
  codes h := absurd rfl h

/-- HT.SETLEN keeps the table's invariant (42_huffman.md rule R172). -/
theorem setlen {T : HuffTable} (hT : T.Ok) {k : BitVec 16} {l : BitVec 8} (hk : legalSymbol k = true)
    (hl : legalLength l = true) : { T with len := T.len.write k.toNat (l.setWidth 5), size := 0 : HuffTable }.Ok where
  lenRam := Ram.wf_write T.len k.toNat (l.setWidth 5) hT.lenRam (of_decide_eq_true hk)
  codeRam := hT.codeRam
  lengths s := by
    by_cases hs : k.toNat = s
    · subst hs
      exact (read_write_legalLength T.len k.toNat hl).trans_le (legalLength_iff.mp hl).2
    · exact (congrArg BitVec.toNat (Ram.read_write_other T.len _ _ _ hs)).trans_le (hT.lengths s)
  count := Nat.zero_le _
  valid h := absurd rfl h
  codes h := absurd rfl h

/-- HT.BUILD keeps the table's invariant: the codes fit the 20 bits they are stored in (42_huffman.md rules R175(a) and
R176). -/
theorem built {T : HuffTable} (hT : T.Ok) {k : BitVec 16} (hk : T.buildable k = true) : (T.built k).Ok := by
  obtain ⟨-, hmax, hadm⟩ := buildable_admissible T k hT.lengths hk
  obtain ⟨hlen, hsize, hcode, hread⟩ := built_spec T k hmax hT.codeRam
  have hlens : (T.built k).lens (T.built k).size.toNat = T.lens k.toNat := by rw [HuffTable.lens, hlen, hsize, HuffTable.lens]
  refine ⟨hlen ▸ hT.lenRam, hcode, hlen ▸ hT.lengths, hsize ▸ hmax, fun _ => hlens ▸ hadm, fun _ s hs => ?_⟩
  rw [hsize] at hs
  have hlt : s < (T.lens k.toNat).length := by rwa [lens_length]
  have hfits := codesFitTheirLengths (T.lens k.toNat) s hadm hlt
  have hlength := (lengths_of_admissible hadm s hlt).2
  have hcode20 : (canonical (T.lens k.toNat)).getD s 0 < 2 ^ 20 := hfits.trans_le (Nat.pow_le_pow_right (by decide) hlength)
  rw [hlens, hread, if_pos hs, BitVec.toNat_ofNat, Nat.mod_eq_of_lt hcode20, List.getD_eq_getElem _ _ (by simpa using hs),
    List.getElem?_eq_getElem]

end HuffTable.Ok

/-- A command that replaces a table by one with the invariant keeps that of every table. -/
theorem setTable_ok {s : State} (h : ∀ j : Fin 6, s.tables[j].Ok) (i : Fin 6) {T : HuffTable} (hT : T.Ok) (j : Fin 6) :
    (s.setTable i T).tables[j].Ok := by
  rw [setTable_get]
  split
  · exact hT
  · exact h j

/-! ## What a command that performed keeps, unit by unit -/

section
variable {i : Instr} {s t : State} (hdone : Performed s t i) (hi : i ≠ .reset)
include hdone hi

theorem performed_cfg : t.cfg = s.cfg := by rw [(performed_frame hdone hi).1]

theorem performed_outFits (hfits : withinCap s.cfg.outCap s.writer.out.length = true) :
    withinCap s.cfg.outCap t.writer.out.length = true := by
  cases hw : writesWriter i with
  | false =>
    obtain ⟨-, hwriter, -⟩ := performed_frame hdone hi
    rw [hwriter hw]
    exact hfits
  | true =>
    cases i
    case bwWrite n v =>
      obtain ⟨-, hroom, rfl⟩ := hdone
      rw [State.complete_writer, (Writer.putBits_lengths n.toNat v s.writer).1]
      exact withinCap_add hfits hroom
    case bwFlush =>
      obtain ⟨hroom, rfl⟩ := hdone
      rw [State.complete_writer, Writer.flush_length]
      split
      · exact hfits
      · next hc => exact withinCap_add hfits ((flushHolds_of_pending hc).symm.trans hroom)
    case htEnc tab k =>
      obtain ⟨l, c, -, hroom, rfl⟩ := hdone
      rw [State.complete_writer, (Writer.putBits_lengths l.toNat (c.setWidth 32) s.writer).1]
      exact withinCap_add hfits hroom
    case reset => exact absurd rfl hi
    all_goals cases hw

theorem performed_reader (hok : s.reader.Ok) : t.reader.Ok ∧ t.reader.bytes.length ≤ s.reader.bytes.length := by
  cases hr : writesReader i with
  | false =>
    obtain ⟨-, -, hreader, -⟩ := performed_frame hdone hi
    rw [hreader hr]
    exact ⟨hok, le_rfl⟩
  | true =>
    cases i
    case brRead n =>
      obtain ⟨-, henough, rfl⟩ := hdone
      exact ⟨Reader.readBits_ok n.toNat 0 s.reader (readShort_eq_false.mp henough) hok,
        Reader.readBits_length_le n.toNat 0 s.reader⟩
    case reset => exact absurd rfl hi
    all_goals cases hr

theorem performed_tables (hok : ∀ j : Fin 6, s.tables[j].Ok) (j : Fin 6) : t.tables[j].Ok := by
  cases ht : writesTables i with
  | false =>
    obtain ⟨-, -, -, -, -, htables, -⟩ := performed_frame hdone hi
    rw [htables ht]
    exact hok j
  | true =>
    cases i
    case htSetlen tab k l =>
      obtain ⟨n, -, hk, hl, rfl⟩ := hdone
      exact setTable_ok hok n ((hok n).setlen hk hl) j
    case htBuild tab k =>
      obtain ⟨n, -, hk, rfl⟩ := hdone
      exact setTable_ok hok n ((hok n).built hk) j
    case reset => exact absurd rfl hi
    all_goals cases ht

end

/-! ## The invariant, ending by ending -/

namespace State.Inv

theorem powerOn (c : Config) : (State.powerOn c).Inv where
  writerOk := Nat.one_pos
  outFits := withinCap_eq_true.mpr fun _ _ => Nat.zero_le _
  inFits := withinCap_eq_true.mpr fun _ _ => Nat.zero_le _
  readerOk _ := rfl
  tablesOk t := by
    simp only [State.powerOn, Fin.getElem_fin, Vector.getElem_replicate]
    exact HuffTable.Ok.unset
  errCode := producedCode_zero
  statusCode := producedCode_zero

/-- A step that leaves the writer, the reader, the tables and the configuration needs the invariant's codes only. -/
theorem of_codes {s t : State} (h : s.Inv) (hcfg : t.cfg = s.cfg) (hwriter : t.writer = s.writer) (hreader : t.reader = s.reader)
    (htables : t.tables = s.tables) (herr : producedCode t.err) (hstatus : producedCode t.status) : t.Inv where
  writerOk := hwriter ▸ h.writerOk
  outFits := by
    rw [hcfg, hwriter]
    exact h.outFits
  inFits := by
    rw [hcfg, hreader]
    exact h.inFits
  readerOk := hreader ▸ h.readerOk
  tablesOk := htables ▸ h.tablesOk
  errCode := herr
  statusCode := hstatus

/-- A reset gives the values of power-on, in the configuration of the block. -/
theorem resetBlock (s : State) : s.resetBlock.Inv :=
  (powerOn s.cfg).of_codes rfl rfl rfl rfl (powerOn s.cfg).errCode (powerOn s.cfg).statusCode

variable {s : State} (h : s.Inv)
include h

theorem raised {e : CommandError} (he : e ≠ .invalidConfiguration) : (s.raised e).Inv := by
  refine h.of_codes rfl rfl rfl rfl ?_ (producedCode_code he)
  rw [State.raised_err]
  split
  · exact producedCode_code he
  · exact h.errCode

theorem turnedAway : s.turnedAway.Inv := h.of_codes rfl rfl rfl rfl h.errCode h.errCode

theorem performed {i : Instr} {t : State} (hdone : Performed s t i) : t.Inv := by
  by_cases hi : i = .reset
  · subst hi
    obtain rfl := hdone
    exact resetBlock s
  · have hcfg := performed_cfg hdone hi
    obtain ⟨hreader, hshorter⟩ := performed_reader hdone hi h.readerOk
    have herr : t.err = s.err := by rw [(performed_frame hdone hi).1]
    exact ⟨(performed_stream hdone hi h.writerOk).1, hcfg ▸ performed_outFits hdone hi h.outFits,
      hcfg ▸ withinCap_of_le h.inFits hshorter, hreader, performed_tables hdone hi h.tablesOk, herr ▸ h.errCode,
      (performed_complete hdone).1 ▸ producedCode_zero⟩

theorem of_exec {i : Instr} {t : State} (hexec : exec i s = .next t) : t.Inv := by
  obtain ⟨-, -, rfl⟩ | ⟨e, hraises, -, rfl⟩ | ⟨-, -, rfl⟩ | ⟨-, hdone⟩ := exec_cases hexec
  · exact h.turnedAway
  · exact h.raised (raises_ne hraises)
  · exact h
  · exact h.performed hdone

theorem of_rejectWord {e : DecodeError} {t : State} (hreject : rejectWord e s = .next t) : t.Inv := by
  obtain ⟨t', ht', hends⟩ := rejectWord_total e s
  obtain rfl : t' = t := Host.Outcome.next.inj (ht'.symm.trans hreject)
  obtain ⟨-, rfl⟩ | rfl := hends
  · exact h.turnedAway
  · exact h.raised (by decide)

theorem of_hostMove {m : HostMove} {t : State} (hmove : hostMove m s = .next t) : t.Inv := by
  cases m with
  | push b =>
    obtain ⟨henabled, rfl⟩ := hostPush_next hmove
    have hroom := lacksRoom_one_eq_false.mpr (pushEnabled_eq_true.mp henabled).2
    refine ⟨h.writerOk, h.outFits, ?_, fun hempty => ?_, h.tablesOk, h.errCode, h.statusCode⟩
    · rw [List.length_append]
      exact withinCap_add h.inFits hroom
    · simp at hempty
  | endOfInput =>
    cases hmove
    exact ⟨h.writerOk, h.outFits, h.inFits, h.readerOk, h.tablesOk, h.errCode, h.statusCode⟩
  | pop =>
    obtain ⟨b, rest, hout, rfl⟩ := hostPop_next hmove
    have hshorter : rest.length ≤ s.writer.out.length := by simp [hout]
    exact ⟨h.writerOk, withinCap_of_le h.outFits hshorter, h.inFits, h.readerOk, h.tablesOk, h.errCode, h.statusCode⟩
  | issue w =>
    obtain rfl := hostIssue_next hmove
    exact h.of_codes rfl rfl rfl rfl h.errCode h.statusCode
  | collect =>
    obtain rfl := hostCollect_next hmove
    exact h.of_codes rfl rfl rfl rfl h.errCode h.statusCode
  | hardReset =>
    cases hmove
    exact resetBlock s

theorem of_nextTurn {turn : Turn} {s' : State} (hturn : s.nextTurn = (turn, s')) : s'.Inv := by
  obtain rfl := nextTurn_eq hturn
  exact h.of_codes rfl rfl rfl rfl h.errCode h.statusCode

end State.Inv

/-- Settles O55: a step takes a turn off the schedule and is then a move of the host, an idle turn, a command, or a rejected word,
each of which keeps the invariant. -/
theorem everyStepKeepsTheInvariant : Obligations.EveryStepKeepsTheInvariant := by
  unfold Obligations.EveryStepKeepsTheInvariant
  intro s t hinv hstep
  obtain ⟨-, ⟨m, s', hturn, hmove⟩ | ⟨s', hturn, -, rfl⟩ | ⟨s', w, i, hturn, -, -, hexec⟩ |
    ⟨s', w, e, hturn, -, -, hreject⟩⟩ := step_cases hstep
  all_goals have hinv' := hinv.of_nextTurn hturn
  · exact hinv'.of_hostMove hmove
  · exact hinv'
  · exact hinv'.of_exec hexec
  · exact hinv'.of_rejectWord hreject

/-- Settles O56: the machine's reset state is power-on in the standard configuration. -/
theorem theResetStateHasTheInvariant : Obligations.TheResetStateHasTheInvariant := by
  unfold Obligations.TheResetStateHasTheInvariant
  exact ⟨State.Inv.powerOn Config.standard, State.Inv.powerOn⟩

end Sys2Proof.Machine
end

section
/-! PROOFS. The algebra of the checksum (41_checksum.md rules R142, R144 and R150). Feeding a byte is eight turns of the shift register
with the byte placed at its end (`crcUpdate_eq_iterate`); a turn is linear and injective, and everything else follows. -/

namespace Sys2Proof.Machine

/-! ## The update as eight turns -/

/-- Bits that do not reach the register's top move up without feedback. -/
theorem iterate_crcShift_msbFirst {n : Nat} {c : Word} (hc : ∀ i, i < n → c.getLsbD (31 - i) = false) :
    iterate (crcShift .msbFirst) n c = c <<< n := by
  induction n generalizing c with
  | zero => simp [iterate]
  | succ n ih =>
    have htop : c.msb = false := (BitVec.msb_eq_getLsbD_last c).trans (hc 0 n.succ_pos)
    have hshift : crcShift .msbFirst c = c <<< 1 := if_neg (by simp [htop])
    rw [iterate, hshift, ih fun i hi => ?_, ← BitVec.shiftLeft_add, Nat.add_comm]
    rw [BitVec.getLsbD_shiftLeft, Nat.sub_sub, hc (i + 1) (by omega), Bool.and_false]

/-- Bits that do not reach the register's bottom move down without feedback. -/
theorem iterate_crcShift_reflected {n : Nat} {c : Word} (hc : ∀ i, i < n → c.getLsbD i = false) :
    iterate (crcShift .reflected) n c = c >>> n := by
  induction n generalizing c with
  | zero => simp [iterate]
  | succ n ih =>
    have hshift : crcShift .reflected c = c >>> 1 := if_neg (by rw [hc 0 n.succ_pos]; exact Bool.false_ne_true)
    rw [iterate, hshift, ih fun i hi => ?_, ← BitVec.shiftRight_add, Nat.add_comm]
    rw [BitVec.getLsbD_ushiftRight]
    exact hc (1 + i) (by omega)

/-- The register is its top byte, where the table generation starts, and the rest. -/
theorem split_top (c : Word) : c = ((c <<< 8) >>> 8) ^^^ crcSeed .msbFirst (c.extractLsb' 24 8) := by
  apply BitVec.eq_of_getLsbD_eq
  intro i hi
  simp only [crcSeed, BitVec.getLsbD_xor, BitVec.getLsbD_ushiftRight, BitVec.getLsbD_shiftLeft, BitVec.getLsbD_setWidth,
    BitVec.getLsbD_extractLsb']
  by_cases h : i < 24
  · simp [h, show 8 + i < 32 by omega]
  · simp [h, hi, show ¬ 8 + i < 32 by omega, show i - 24 < 8 by omega, show i - 24 < 32 by omega,
      show 24 + (i - 24) = i by omega]

/-- The reflected register is its bottom byte, where the table generation starts, and the rest. -/
theorem split_bottom (c : Word) : c = ((c >>> 8) <<< 8) ^^^ crcSeed .reflected (c.setWidth 8) := by
  apply BitVec.eq_of_getLsbD_eq
  intro i hi
  simp only [crcSeed, BitVec.getLsbD_xor, BitVec.getLsbD_ushiftRight, BitVec.getLsbD_shiftLeft, BitVec.getLsbD_setWidth]
  by_cases h : i < 8
  · simp [h, hi]
  · simp [h, hi, show 8 + (i - 8) = i by omega]

/-- A byte fed to the checksum is placed at the end of the register where the table generation starts, and eight turns follow
(rules R141 and R142). -/
theorem crcUpdate_eq_iterate (v : CrcVariant) (c : Word) (b : Byte) :
    crcUpdate v c b = iterate (crcShift v) 8 (c ^^^ crcSeed v b) := by
  cases v with
  | msbFirst =>
    have hrest : iterate (crcShift .msbFirst) 8 ((c <<< 8) >>> 8) = c <<< 8 := by
      rw [iterate_crcShift_msbFirst fun i hi => by rw [BitVec.getLsbD_ushiftRight, BitVec.getLsbD_of_ge _ _ (by omega)]]
      apply BitVec.eq_of_getLsbD_eq
      intro i hi
      simp only [BitVec.getLsbD_shiftLeft, BitVec.getLsbD_ushiftRight]
      by_cases h : i < 8
      · simp [h]
      · simp [h, hi, show 8 + (i - 8) = i by omega]
    conv_rhs => rw [split_top c, BitVec.xor_assoc, ← crcSeed_xor, iterate_crcShift_xor, hrest]
    rfl
  | reflected =>
    have hrest : iterate (crcShift .reflected) 8 ((c >>> 8) <<< 8) = c >>> 8 := by
      rw [iterate_crcShift_reflected fun i hi => by simp [hi]]
      apply BitVec.eq_of_getLsbD_eq
      intro i hi
      simp only [BitVec.getLsbD_shiftLeft, BitVec.getLsbD_ushiftRight]
      by_cases h : 8 + i < 32
      · simp [h]
      · rw [BitVec.getLsbD_of_ge c (8 + i) (by omega)]
        simp [h]
    conv_rhs => rw [split_bottom c, BitVec.xor_assoc, ← crcSeed_xor, iterate_crcShift_xor, hrest]
    rfl

/-- Settles O31: the turns and the placing of the byte are linear. -/
theorem crcUpdateIsLinear : Obligations.CrcUpdateIsLinear := by
  unfold Obligations.CrcUpdateIsLinear
  intro v c c' b b'
  have hregroup : (c ^^^ c') ^^^ (crcSeed v b ^^^ crcSeed v b') = (c ^^^ crcSeed v b) ^^^ (c' ^^^ crcSeed v b') := by ac_rfl
  simp only [crcUpdate_eq_iterate, crcSeed_xor, hregroup, iterate_crcShift_xor]

/-! ## The update as polynomial division (rule R142) -/

/-- The top bit of what is to be fed enters the division; the rest waits in the register. -/
theorem divideBit_xor (c y : Word) : divideBit c y.msb ^^^ (y <<< 1) = crcShift .msbFirst (c ^^^ y) := by
  simp only [divideBit, crcShift, BitVec.msb_xor, BitVec.shiftLeft_xor_distrib]
  cases c.msb <;> cases y.msb <;> simp <;> ac_rfl

theorem divideBitReflected_xor (c y : Word) :
    divideBitReflected c (y.getLsbD 0) ^^^ (y >>> 1) = crcShift .reflected (c ^^^ y) := by
  simp only [divideBitReflected, crcShift, BitVec.getLsbD_xor, BitVec.ushiftRight_xor_distrib]
  cases c.getLsbD 0 <;> cases y.getLsbD 0 <;> simp <;> ac_rfl

/-- Dividing the bits of a field, first bit first, is that many turns with the field at the top of the register. -/
theorem foldl_divideBit (n x : Nat) (hn : n ≤ 32) (c : Word) :
    (fieldBits n x).foldl divideBit c = iterate (crcShift .msbFirst) n (c ^^^ BitVec.ofNat 32 x <<< (32 - n)) := by
  induction n generalizing c with
  | zero =>
    have hnone : BitVec.ofNat 32 x <<< (32 - 0) = 0#32 := BitVec.shiftLeft_eq_zero le_rfl
    rw [hnone, BitVec.xor_zero]
    rfl
  | succ n ih =>
    have htop : (BitVec.ofNat 32 x <<< (32 - (n + 1))).msb = x.testBit n := by
      rw [BitVec.msb_eq_getLsbD_last, BitVec.getLsbD_shiftLeft, BitVec.getLsbD_ofNat]
      simp [show 31 - (31 - n) = n by omega, show n < 32 by omega]
    have hshift : BitVec.ofNat 32 x <<< (32 - n) = (BitVec.ofNat 32 x <<< (32 - (n + 1))) <<< 1 := by
      rw [← BitVec.shiftLeft_add]
      congr 1
      omega
    rw [fieldBits_succ, List.foldl_cons, ih (by omega), iterate, ← divideBit_xor, htop, hshift]

/-- Dividing the bits of a field, last bit first, is that many turns with the field at the bottom of the register. -/
theorem foldl_divideBitReflected (n x : Nat) (hn : n ≤ 32) (hx : x < 2 ^ n) (c : Word) :
    (fieldBits n x).reverse.foldl divideBitReflected c = iterate (crcShift .reflected) n (c ^^^ BitVec.ofNat 32 x) := by
  induction n generalizing x c with
  | zero =>
    obtain rfl : x = 0 := by simpa using hx
    simp [iterate]
  | succ n ih =>
    have hbottom : (BitVec.ofNat 32 x).getLsbD 0 = x.testBit 0 :=
      (BitVec.getLsbD_ofNat 32 x 0).trans (Bool.true_and _)
    have hshift : BitVec.ofNat 32 x >>> 1 = BitVec.ofNat 32 (x / 2) := by
      apply BitVec.eq_of_toNat_eq
      have hx32 : x < 2 ^ 32 := hx.trans_le (Nat.pow_le_pow_right (by decide) hn)
      simp only [BitVec.toNat_ushiftRight, BitVec.toNat_ofNat, Nat.shiftRight_eq_div_pow]
      omega
    have hsplit : fieldBits (n + 1) x = fieldBits n (x / 2) ++ [x.testBit 0] := by
      rw [fieldBits_add n 1 x]
      rfl
    rw [hsplit, List.reverse_append, List.reverse_singleton, List.singleton_append, List.foldl_cons,
      ih (x / 2) (by omega) (by omega), iterate, ← divideBitReflected_xor, hbottom, hshift]

/-- Settles O30: both are eight turns with the byte at the end of the register. -/
theorem crcUpdateIsThePolynomialDivision : Obligations.CrcUpdateIsThePolynomialDivision := by
  unfold Obligations.CrcUpdateIsThePolynomialDivision
  intro c b
  have hbyte : BitVec.ofNat 32 b.toNat = b.setWidth 32 := by simp
  rw [crcUpdate_eq_iterate, crcUpdate_eq_iterate, foldl_divideBit 8 b.toNat (by decide),
    foldl_divideBitReflected 8 b.toNat (by decide) b.isLt, hbyte]
  exact ⟨rfl, rfl⟩

/-! ## Flipped bits (rule R150) -/

/-- A turn loses nothing: the polynomial puts a 1 where the shift leaves a 0. -/
theorem crcShift_eq_zero {v : CrcVariant} {c : Word} (h : crcShift v c = 0#32) : c = 0#32 := by
  cases v with
  | msbFirst =>
    simp only [crcShift] at h
    split at h
    · have hbit := congrArg (BitVec.getLsbD · 0) h
      simp at hbit
    · next hmsb =>
      have hlt := BitVec.msb_eq_false_iff_two_mul_lt.mp (eq_false_of_ne_true hmsb)
      have hdouble := congrArg BitVec.toNat h
      rw [BitVec.toNat_shiftLeft, Nat.shiftLeft_eq, BitVec.toNat_ofNat] at hdouble
      apply BitVec.eq_of_toNat_eq
      rw [BitVec.toNat_ofNat]
      omega
  | reflected =>
    simp only [crcShift] at h
    split at h
    · have hbit := congrArg (BitVec.getLsbD · 31) h
      simp at hbit
    · next hlsb =>
      have hhalf := congrArg BitVec.toNat h
      rw [BitVec.toNat_ushiftRight, Nat.shiftRight_eq_div_pow, BitVec.toNat_ofNat] at hhalf
      rw [BitVec.getLsbD, Nat.testBit_zero, decide_eq_true_eq] at hlsb
      apply BitVec.eq_of_toNat_eq
      rw [BitVec.toNat_ofNat]
      omega

theorem crcShift_injective (v : CrcVariant) : Function.Injective (crcShift v) := by
  intro c d h
  rw [← BitVec.xor_eq_zero_iff]
  apply crcShift_eq_zero (v := v)
  rw [crcShift_xor, h, BitVec.xor_self]

theorem iterate_injective {α : Type} {f : α → α} (hf : Function.Injective f) (n : Nat) : Function.Injective (iterate f n) := by
  induction n with
  | zero => exact Function.injective_id
  | succ n ih => exact ih.comp hf

theorem crcSeed_injective (v : CrcVariant) : Function.Injective (crcSeed v) := by
  intro a b h
  cases v with
  | msbFirst =>
    apply BitVec.eq_of_getLsbD_eq
    intro i hi
    have hbit := congrArg (BitVec.getLsbD · (24 + i)) h
    simpa [crcSeed, hi, show i < 32 by omega, show 24 + i < 32 by omega] using hbit
  | reflected =>
    have hbyte := congrArg (BitVec.setWidth 8) h
    rwa [crcSeed, crcSeed, setWidth_lowByte, setWidth_lowByte] at hbyte

/-- The update is injective in the register and in the byte. -/
theorem crcUpdate_injective_register (v : CrcVariant) (b : Byte) : Function.Injective (crcUpdate v · b) := by
  intro c d h
  simp only [crcUpdate_eq_iterate] at h
  exact (BitVec.xor_left_inj _).mp (iterate_injective (crcShift_injective v) 8 h)

theorem crcUpdate_injective_byte (v : CrcVariant) (c : Word) : Function.Injective (crcUpdate v c) := by
  intro a b h
  simp only [crcUpdate_eq_iterate] at h
  exact crcSeed_injective v ((BitVec.xor_right_inj _).mp (iterate_injective (crcShift_injective v) 8 h))

theorem crcOfBytes_injective (v : CrcVariant) (bs : List Byte) : Function.Injective (crcOfBytes v · bs) := by
  induction bs with
  | nil => exact Function.injective_id
  | cons b bs ih => exact ih.comp (crcUpdate_injective_register v b)

/-- Settles O32: the flipped byte leaves another register, and the bytes after it keep the registers apart. -/
theorem aFlippedInputBitChangesTheBlockChecksum : Obligations.AFlippedInputBitChangesTheBlockChecksum := by
  unfold Obligations.AFlippedInputBitChangesTheBlockChecksum
  intro v before after b k hk hequal
  have hregister := (BitVec.xor_left_inj Config.crcXorOut).mp hequal
  simp only [crcOfBytes, List.foldl_append, List.foldl_cons] at hregister
  have hbyte : b = b ^^^ 1#8 <<< k := crcUpdate_injective_byte v _ (crcOfBytes_injective v after hregister)
  have hflip := congrArg (BitVec.getLsbD · k) hbyte
  simp [hk] at hflip

/-! ## Combining (rules R144 and R150) -/

theorem rotateLeft_xor (x y : Word) (r : Nat) : (x ^^^ y).rotateLeft r = x.rotateLeft r ^^^ y.rotateLeft r := by
  apply BitVec.eq_of_getLsbD_eq
  intro i hi
  simp only [BitVec.getLsbD_rotateLeft, BitVec.getLsbD_xor]
  by_cases h : i < r % 32
  · simp [h]
  · simp [h, hi]

/-- Where a rotation takes each bit from. -/
theorem getElem_rotateLeft_eq (x : Word) (r i : Nat) (hi : i < 32) :
    (x.rotateLeft r)[i] = x[(i + (32 - r % 32)) % 32]'(Nat.mod_lt _ (by decide)) := by
  rw [BitVec.getElem_rotateLeft]
  split
  · congr 1
    omega
  · congr 1
    omega

theorem rotateLeft_zero (x : Word) : x.rotateLeft 0 = x := by
  apply BitVec.eq_of_getElem_eq
  intro i hi
  simp [BitVec.getElem_rotateLeft]

theorem rotateLeft_rotateLeft_one (x : Word) (r : Nat) : (x.rotateLeft r).rotateLeft 1 = x.rotateLeft (r + 1) := by
  apply BitVec.eq_of_getElem_eq
  intro i hi
  rw [getElem_rotateLeft_eq, getElem_rotateLeft_eq, getElem_rotateLeft_eq]
  congr 1
  omega

/-- One more block rotates all that was combined before it (rule R144). -/
theorem foldl_xor_rotateLeft_one (xs : List Word) (x : Word) :
    (xs.foldl (fun x y => x ^^^ y) x).rotateLeft 1 =
      (xs.map fun y => y.rotateLeft 1).foldl (fun x y => x ^^^ y) (x.rotateLeft 1) := by
  induction xs generalizing x with
  | nil => rfl
  | cons y ys ih => rw [List.foldl_cons, ih, rotateLeft_xor, List.map_cons, List.foldl_cons]

theorem foldl_combine (cs : List Word) :
    cs.foldl combine 0 =
      (cs.zipIdx.map fun p => p.1.rotateLeft ((cs.length - 1 - p.2) % 32)).foldl (fun x y => x ^^^ y) 0 := by
  induction cs using List.reverseRecOn with
  | nil => rfl
  | append_singleton cs c ih =>
    have hrotated : (cs.zipIdx.map fun p => p.1.rotateLeft ((cs.length - 1 - p.2) % 32)).map (·.rotateLeft 1) =
        cs.zipIdx.map fun p => p.1.rotateLeft ((cs.length - p.2) % 32) := by
      rw [List.map_map]
      refine List.map_congr_left fun p hp => ?_
      have hlt := (List.mem_zipIdx hp).2.1
      rw [Function.comp_apply, BitVec.rotateLeft_mod_eq_rotateLeft, BitVec.rotateLeft_mod_eq_rotateLeft,
        rotateLeft_rotateLeft_one]
      congr 1
      omega
    have hzero : (0 : Word).rotateLeft 1 = 0 := by decide
    rw [List.foldl_concat, ih, combine, rotl1_eq, foldl_xor_rotateLeft_one, hrotated, hzero, List.zipIdx_append,
      List.map_append, List.foldl_append]
    simp [rotateLeft_zero]

/-- Settles O33: XOR with the rotated rest is injective, and each further block rotates the ones before it once more. -/
theorem combinedChecksumIsTheXorOfRotatedBlocks : Obligations.CombinedChecksumIsTheXorOfRotatedBlocks := by
  unfold Obligations.CombinedChecksumIsTheXorOfRotatedBlocks
  exact ⟨fun comb c c' h => (BitVec.xor_right_inj _).mp h, foldl_combine⟩

end Sys2Proof.Machine
end

section
/-! PROOFS. The life of a table (42_huffman.md rule R178): which steps change it, which make it valid, and what a lookup in it
finds. -/

namespace Sys2Proof.Machine

/-! ## A table that is not valid -/

theorem State.lookup_of_size_zero {t : BitVec 8} {i : Fin 6} {s : State} (ht : t.toNat = i.val) (hsize : s.tables[i].size = 0#9)
    (k : BitVec 16) : s.lookup t k = none :=
  (State.lookup_loadable ht s k).trans (lookup_of_invalid hsize k)

/-- HT.ENC and HT.RDCODE fail on it. -/
theorem exec_of_size_zero {t : BitVec 8} {i : Fin 6} {s : State} (herr : s.err = 0#4) (ht : t.toNat = i.val)
    (hsize : s.tables[i].size = 0#9) (k : BitVec 16) :
    exec (.htEnc t k) s = .next (s.raised .internalInvariantViolation) ∧
    exec (.htRdcode t k) s = .next (s.raised .internalInvariantViolation) := by
  have hfind := State.lookup_of_size_zero ht hsize k
  exact ⟨exec_htEnc_notFound herr hfind, exec_htRdcode_notFound herr hfind⟩

/-! ## What a performed HT.SETLEN or HT.BUILD left -/

/-- A command that never holds and left `STATUS = OK` performed. -/
theorem performed_of_status {i : Instr} {s u : State} (hexec : exec i s = .next u) (hholds : ¬ Holds s i)
    (hstatus : u.status = 0#4) : Performed s u i := by
  obtain ⟨-, herror⟩ | ⟨hheld, -⟩ | hdone := exec_endings hexec
  · exact absurd hstatus herror.status_ne_zero
  · exact absurd hheld hholds
  · exact hdone

/-- HT.SETLEN leaves its table not valid (rule R172). -/
theorem performed_htSetlen_size {t : BitVec 8} {k : BitVec 16} {l : BitVec 8} {s u : State}
    (hdone : Performed s u (.htSetlen t k l)) : ∃ i : Fin 6, t.toNat = i.val ∧ u.tables[i].size = 0#9 := by
  obtain ⟨i, ht, -, -, rfl⟩ := hdone
  refine ⟨i, loadable_eq_some.mp ht, ?_⟩
  rw [State.complete_tables, setTable_get_self]
  rfl

/-- HT.BUILD leaves its table built (rule R176). -/
theorem performed_htBuild_table {t : BitVec 8} {k : BitVec 16} {i : Fin 6} {s u : State} (ht : t.toNat = i.val)
    (hdone : Performed s u (.htBuild t k)) :
    s.tables[i].buildable k = true ∧ u.tables[i] = s.tables[i].built k := by
  obtain ⟨j, hj, hbuildable, rfl⟩ := hdone
  obtain rfl : j = i := Fin.ext ((loadable_eq_some.mp hj).symm.trans ht)
  exact ⟨hbuildable, setTable_get_self s j _⟩

/-- A table that was built has the canonical codes of its lengths (rules R176 and R180). -/
theorem lookup_built {T : HuffTable} {k k' : BitVec 16} (hcode : T.code.wf = true) (hbuildable : T.buildable k = true)
    (hk : k'.toNat < k.toNat) :
    (T.built k).lookup k' =
      some (T.len.read k'.toNat, BitVec.ofNat 20 ((canonical (T.lens k.toNat)).getD k'.toNat 0)) := by
  obtain ⟨-, hmax, -⟩ := (buildable_iff T k).mp hbuildable
  obtain ⟨hlen, hsize, -, hread⟩ := built_spec T k hmax hcode
  rw [lookup_eq_some, hsize, hlen, hread, if_pos hk]
  exact ⟨hk, hk.trans_le hmax, rfl, rfl⟩

/-! ## The steps that change a table -/

theorem nextTurn_tables {s s' : State} {turn : Turn} (h : s.nextTurn = (turn, s')) : s'.tables = s.tables := by
  rw [nextTurn_eq h]

theorem EndsInError.tables {s t : State} (h : EndsInError s t) : t.tables = s.tables := by
  obtain ⟨-, -, -, -, htables, -⟩ := h.units
  exact htables

theorem hostMove_tables {m : HostMove} {s t : State} (h : hostMove m s = .next t) (hm : m ≠ .hardReset) :
    t.tables = s.tables := by
  rw [hostMove_frame h hm]

/-- A step that changes a table is the hardware reset, or a command that may write the table. -/
theorem step_changes_table {s u : State} {i : Fin 6} (hstep : step s = .next u) (hchanged : u.tables[i] ≠ s.tables[i]) :
    (∃ s', HostTurn s s' .hardReset) ∨
    ∃ s' w c, BlockTurn s s' w ∧ decode w = .instr c ∧ writesTable i c = true := by
  obtain ⟨hlegal, ⟨m, s', hturn, hmove⟩ | ⟨s', hturn, -, rfl⟩ | ⟨s', w, c, hturn, hbusy, hd, hexec⟩ |
    ⟨s', w, e, hturn, -, -, hreject⟩⟩ := step_cases hstep
  all_goals rw [← nextTurn_tables hturn] at hchanged
  · obtain rfl : m = .hardReset := by_contra fun hm => hchanged (by rw [hostMove_tables hmove hm])
    exact .inl ⟨s', hlegal, hturn⟩
  · exact absurd rfl hchanged
  · refine .inr ⟨s', w, c, ⟨hlegal, hturn, hbusy⟩, hd, ?_⟩
    by_contra hwrites
    exact hchanged (exec_keeps_table i hexec (eq_false_of_ne_true hwrites))
  · exact absurd (by rw [(rejectWord_endsInError hreject).tables]) hchanged

/-- After a reset no table is valid (10_state.md rule R39). -/
theorem resetBlock_size (s : State) (i : Fin 6) : s.resetBlock.tables[i].size = 0#9 := (resetBlock_values s).size i

/-- A command that makes a table valid is HT.BUILD of it. -/
theorem exec_makes_valid {c : Instr} {s u : State} {i : Fin 6} (hexec : exec c s = .next u) (hwrites : writesTable i c = true)
    (hbefore : s.tables[i].size = 0#9) (hafter : u.tables[i].size ≠ 0#9) :
    ∃ t k, c = .htBuild t k ∧ t.toNat = i.val := by
  obtain ⟨-, herror⟩ | ⟨-, rfl⟩ | hdone := exec_endings hexec
  · exact absurd (herror.tables ▸ hbefore) hafter
  · exact absurd hbefore hafter
  · cases c
    case htBuild t k => exact ⟨t, k, rfl, beq_iff_eq.mp hwrites⟩
    case htSetlen t k l =>
      obtain ⟨j, hj, hsize⟩ := performed_htSetlen_size hdone
      obtain rfl : j = i := Fin.ext (hj.symm.trans (beq_iff_eq.mp hwrites))
      exact absurd hsize hafter
    case reset =>
      obtain rfl := hdone
      exact absurd (resetBlock_size s i) hafter
    all_goals cases hwrites

/-- Settles O39: the clauses are `exec_keeps_table`, `performed_htSetlen_size` with `exec_of_size_zero`,
`performed_htBuild_table` with `lookup_built`, `step_changes_table`, `exec_makes_valid`, and `exec_of_size_zero`. -/
theorem aTableIsUsedOnlyWithTheCodesLastBuilt : Obligations.ATableIsUsedOnlyWithTheCodesLastBuilt := by
  unfold Obligations.ATableIsUsedOnlyWithTheCodesLastBuilt
  refine ⟨?_, ?_, ?_, fun s u i hstep => step_changes_table hstep, ?_, ?_⟩
  · intro t k l s u j hne
    have hother : (t.toNat == j.val) = false := beq_eq_false_iff_ne.mpr hne
    exact ⟨fun hexec => exec_keeps_table j hexec hother, fun hexec => exec_keeps_table j hexec hother⟩
  · intro t k k' l s u herr hexec hstatus
    have hdone := performed_of_status hexec (fun h => h) hstatus
    obtain ⟨i, ht, hsize⟩ := performed_htSetlen_size hdone
    have herr' : u.err = 0#4 := by
      rw [(performed_frame hdone nofun).1]
      exact herr
    exact exec_of_size_zero herr' ht hsize k'
  · intro t k k' i s u herr ht hcode hexec hstatus hk
    obtain ⟨hbuildable, htable⟩ := performed_htBuild_table ht (performed_of_status hexec (fun h => h) hstatus)
    rw [State.lookup_loadable ht, htable]
    exact lookup_built hcode hbuildable hk
  · intro s u i hstep hbefore hafter
    have hchanged : u.tables[i] ≠ s.tables[i] := fun hequal => hafter (hequal ▸ hbefore)
    obtain ⟨s', hturn⟩ | ⟨s', w, c, hturn, hd, hwrites⟩ := step_changes_table hstep hchanged
    · rw [hturn.step_eq] at hstep
      cases hstep
      exact absurd (resetBlock_size s' i) hafter
    · rw [hturn.step_of_instr hd] at hstep
      obtain ⟨t, k, rfl, ht⟩ := exec_makes_valid hstep hwrites (nextTurn_tables hturn.turn ▸ hbefore) hafter
      exact ⟨s', w, t, k, hturn, hd, ht⟩
  · intro t k s i herr ht hsize
    exact exec_of_size_zero herr ht hsize k

end Sys2Proof.Machine
end

section
/-! PROOFS. Commands in a row: that none holds once the host has served the block (70_reset_and_hazards.md rule R268), the round trip of
fields (40_bit_channel.md rule R123), and the symbol-stream law (42_huffman.md rule R184). -/

namespace Sys2Proof.Machine

/-! ## No hold (00_scope.md rule R5) -/

/-- With `OUT` empty the least legal capacity has room for every field: at most 7 pending bits and 32 more make 4 bytes. -/
theorem writeHolds_of_served {s : State} (hlegal : s.cfg.legal = true) (hout : s.writer.out = []) {m : Nat} (hm : m ≤ 32) :
    s.writeHolds m = false := by
  refine writeHolds_eq_false.mpr fun c hc => ?_
  have hcap := (legal_iff.mp hlegal).1 c hc
  have hcnt := s.writer.cnt.isLt
  rw [hout, List.length_nil]
  omega

theorem flushHolds_of_served {s : State} (hlegal : s.cfg.legal = true) (hout : s.writer.out = []) : s.flushHolds = false := by
  by_cases hc : s.writer.cnt = 0
  · exact flushHolds_of_aligned hc
  · rw [flushHolds_of_pending hc, hout, List.length_nil, lacksRoom_eq_false]
    intro c hcap
    have hmin := (legal_iff.mp hlegal).1 c hcap
    omega

/-- Five bytes hold at least 33 unread bits. -/
theorem readShort_of_served {s : State} (hbytes : 5 ≤ s.reader.bytes.length) {n : Nat} (hn : n ≤ 32) :
    s.readShort n = false := by
  rw [readShort_eq_false, Reader.avail]
  have hpos := s.reader.pos.isLt
  omega

theorem not_holds_of_served {s : State} (hlegal : s.cfg.legal = true) (hout : s.writer.out = [])
    (hbytes : 5 ≤ s.reader.bytes.length) (i : Instr) : ¬ Holds s i := by
  intro hholds
  cases i
  case bwWrite n v =>
    obtain ⟨hn, hfull⟩ := hholds
    simp [writeHolds_of_served hlegal hout hn] at hfull
  case bwFlush => simp [Holds, flushHolds_of_served hlegal hout] at hholds
  case brRead n =>
    obtain ⟨hn, hshort, -⟩ := hholds
    simp [readShort_of_served hbytes hn] at hshort
  case htEnc t k =>
    obtain ⟨l, c, -, hfull⟩ := hholds
    simp [writeHolds_of_served hlegal hout (show l.toNat ≤ 32 by omega)] at hfull
  all_goals exact hholds

/-- Settles O54: a command that does not hold completes. -/
theorem noCommandHoldsOnceTheHostHasServed : Obligations.NoCommandHoldsOnceTheHostHasServed := by
  unfold Obligations.NoCommandHoldsOnceTheHostHasServed
  intro i s hlegal hout hbytes
  obtain ⟨t, hexec, -⟩ := exec_total i s
  refine ⟨t, hexec, ?_⟩
  obtain ⟨-, herror⟩ | ⟨hholds, -⟩ | hdone := exec_endings hexec
  · exact herror.idle
  · exact absurd hholds (not_holds_of_served hlegal hout hbytes i)
  · exact (performed_complete hdone).2.1

/-! ## Runs -/

/-- A command issued alone that completes with `STATUS = OK`. -/
def Completes (i : Instr) (s t : State) : Prop := exec i (s.issued i) = .next t ∧ t.port = .idle ∧ t.status = 0#4

theorem Completes.performed {i : Instr} {s t : State} (h : Completes i s t) : Performed (s.issued i) t i := by
  obtain ⟨hexec, hidle, hstatus⟩ := h
  obtain ⟨-, herror⟩ | ⟨-, rfl⟩ | hdone := exec_endings hexec
  · exact absurd hstatus herror.status_ne_zero
  · cases hidle
  · exact hdone

/-- A command whose step performs it completes. -/
theorem completes_of_performed {i : Instr} {s t : State} (hexec : exec i (s.issued i) = .next t)
    (hdone : Performed (s.issued i) t i) : Completes i s t := by
  obtain ⟨hstatus, hidle, -⟩ := performed_complete hdone
  exact ⟨hexec, hidle, hstatus⟩

theorem runCommands_cons {i : Instr} {is : List Instr} {s t : State} (h : Completes i s t) :
    runCommands (i :: is) s = (runCommands is t).map fun r => (t.result :: r.1, r.2) := by
  obtain ⟨hexec, hidle, hstatus⟩ := h
  simp only [runCommands, hexec, hidle, hstatus, and_self, if_true]

theorem runCommands_cons_eq_some {i : Instr} {is : List Instr} {s : State} {r : List Word × State}
    (h : runCommands (i :: is) s = some r) :
    ∃ t rs, Completes i s t ∧ runCommands is t = some (rs, r.2) ∧ r.1 = t.result :: rs := by
  obtain ⟨t, hexec, -⟩ := exec_total i (s.issued i)
  by_cases hdone : t.port = .idle ∧ t.status = 0#4
  · have hcompletes : Completes i s t := ⟨hexec, hdone⟩
    rw [runCommands_cons hcompletes, Option.map_eq_some_iff] at h
    obtain ⟨⟨rs, u⟩, hrun, rfl⟩ := h
    exact ⟨t, rs, hcompletes, hrun, rfl⟩
  · simp [runCommands, hexec, hdone] at h

/-- A run of two lists is a run of the first and then of the second. -/
theorem runCommands_append {is js : List Instr} {s : State} {r : List Word × State}
    (h : runCommands (is ++ js) s = some r) :
    ∃ rs u, runCommands is s = some (rs, u) ∧ ∃ rs', runCommands js u = some (rs', r.2) := by
  induction is generalizing s r with
  | nil => exact ⟨[], s, rfl, r.1, h⟩
  | cons i is ih =>
    obtain ⟨t, rs, hcompletes, hrun, -⟩ := runCommands_cons_eq_some h
    obtain ⟨rs', u, hfirst, hsecond⟩ := ih hrun
    exact ⟨t.result :: rs', u, by rw [runCommands_cons hcompletes, hfirst]; rfl, hsecond⟩

/-- A list of commands completes if each completes in every state with a property that they keep. -/
theorem runCommands_isSome {p : State → Prop} {is : List Instr}
    (h : ∀ i ∈ is, ∀ s, p s → ∃ t, Completes i s t ∧ p t) {s : State} (hs : p s) : (runCommands is s).isSome = true := by
  induction is generalizing s with
  | nil => rfl
  | cons i is ih =>
    obtain ⟨t, hcompletes, ht⟩ := h i List.mem_cons_self s hs
    rw [runCommands_cons hcompletes, Option.isSome_map]
    exact ih (fun j hj => h j (List.mem_cons_of_mem _ hj)) ht

/-! ## What a run writes -/

/-- The command is BW.WRITE or HT.ENC: it writes bits that the writer's pending ones do not decide. -/
def writesBits : Instr → Prop
  | .bwWrite _ _ | .htEnc _ _ => True
  | .nop | .bwFlush | .brRead _ | .crcInit | .crcByte _ | .crcEnd | .crcChkb _ | .crcSinit | .crcChks _ => False
  | .htSetlen _ _ _ | .htBuild _ _ | .htRdcode _ _ | .rdReg _ | .reset => False

theorem bitsWritten_congr {i : Instr} (hi : writesBits i) {s t : State} (hcfg : t.cfg = s.cfg) (htables : t.tables = s.tables) :
    bitsWritten t i = bitsWritten s i := by
  cases i
  case bwWrite => rfl
  case htEnc tab k => simp only [bitsWritten, State.lookup, hcfg, htables]
  all_goals cases hi

/-- A BW.WRITE or HT.ENC that completes appends its bits and leaves what decides the bits of the next. -/
theorem completes_writesBits {i : Instr} {s t : State} (hi : writesBits i) (h : Completes i s t) (hok : s.writer.Ok) :
    t.writer.Ok ∧ t.writer.stream = s.writer.stream ++ bitsWritten s i ∧ t.err = s.err ∧ t.cfg = s.cfg ∧
    t.tables = s.tables := by
  have hne : i ≠ .reset := by
    rintro rfl
    exact hi
  have hkeeps : writesTables i = false := by
    cases i
    case bwWrite | htEnc => rfl
    all_goals cases hi
  obtain ⟨hok', hstream⟩ := performed_stream h.performed hne hok
  obtain ⟨hframe, -, -, -, -, htables, -⟩ := performed_frame h.performed hne
  rw [bitsWritten_congr hi (issued_cfg s i) (issued_tables s i)] at hstream
  exact ⟨hok', hstream, by rw [hframe]; rfl, by rw [hframe]; rfl, htables hkeeps⟩

/-- A run of them appends their bits one after another (20_memory.md rule R52, 42_huffman.md rule R184). -/
theorem runCommands_stream {is : List Instr} (his : ∀ i ∈ is, writesBits i) {s u : State} {rs : List Word}
    (hrun : runCommands is s = some (rs, u)) (hok : s.writer.Ok) :
    u.writer.Ok ∧ u.writer.stream = s.writer.stream ++ is.flatMap (bitsWritten s) := by
  induction is generalizing s rs with
  | nil =>
    cases hrun
    simp [hok]
  | cons i is ih =>
    obtain ⟨t, rs', hcompletes, hrest, -⟩ := runCommands_cons_eq_some hrun
    have his' : ∀ j ∈ is, writesBits j := fun j hj => his j (List.mem_cons_of_mem _ hj)
    obtain ⟨hok', hstream, -, hcfg, htables⟩ := completes_writesBits (his i List.mem_cons_self) hcompletes hok
    obtain ⟨hoku, hstreamu⟩ := ih his' hrest hok'
    have hbits : is.flatMap (bitsWritten t) = is.flatMap (bitsWritten s) :=
      List.flatMap_congr fun j hj => bitsWritten_congr (his' j hj) hcfg htables
    exact ⟨hoku, by rw [hstreamu, hstream, hbits, List.flatMap_cons, List.append_assoc]⟩

theorem writeHolds_of_unbounded {s : State} (hcap : s.cfg.outCap = none) (m : Nat) : s.writeHolds m = false := by
  simp [State.writeHolds, hcap, lacksRoom]

theorem flushHolds_of_unbounded {s : State} (hcap : s.cfg.outCap = none) : s.flushHolds = false := by
  simp [State.flushHolds, hcap, lacksRoom]

/-! ## The round trip (40_bit_channel.md rule R123) -/

theorem bwWrite_completes {n : BitVec 8} {v : Word} {s : State} (herr : s.err = 0#4) (hcap : s.cfg.outCap = none)
    (hn : n.toNat ≤ 32) : ∃ t, Completes (.bwWrite n v) s t ∧ t.err = 0#4 ∧ t.cfg.outCap = none := by
  have hroom := writeHolds_of_unbounded (s := s.issued (.bwWrite n v)) hcap n.toNat
  exact ⟨_, completes_of_performed (exec_bwWrite_performs herr hn hroom) ⟨hn, hroom, rfl⟩, herr, hcap⟩

theorem bwFlush_completes {s : State} (herr : s.err = 0#4) (hcap : s.cfg.outCap = none) :
    ∃ t, Completes .bwFlush s t ∧ t.err = 0#4 ∧ t.cfg.outCap = none := by
  have hroom := flushHolds_of_unbounded (s := s.issued .bwFlush) hcap
  exact ⟨_, completes_of_performed (exec_bwFlush_performs herr hroom) ⟨hroom, rfl⟩, herr, hcap⟩

/-- A flush that completes leaves whole bytes only: what was written, then zeros. -/
theorem bwFlush_bytes {s t : State} (h : Completes .bwFlush s t) (hok : s.writer.Ok) :
    ∃ zeros, bytesBits t.writer.out = s.writer.stream ++ zeros := by
  obtain ⟨-, rfl⟩ := h.performed
  obtain ⟨-, hcnt, hstream⟩ := Writer.flush_spec s.writer hok
  refine ⟨_, Eq.trans ?_ hstream⟩
  simp [Writer.stream, hcnt]

/-- A field is its value's low bits. -/
theorem fieldBits_mod (n v : Nat) : fieldBits n (v % 2 ^ n) = fieldBits n v := by
  refine List.map_congr_left fun i hi => ?_
  have hlt := List.mem_range.mp hi
  rw [Nat.testBit_mod_two_pow, decide_eq_true (show n - 1 - i < n by omega), Bool.true_and]

/-- A read of the width of the next field completes, returns the field's value, and leaves the rest. -/
theorem brRead_completes {n : BitVec 8} {v : Nat} {rest : List Bool} {r : State} (herr : r.err = 0#4) (hn : n.toNat ≤ 32)
    (hunread : r.reader.unread = fieldBits n.toNat v ++ rest) :
    ∃ t, Completes (.brRead n) r t ∧ t.result = BitVec.ofNat 32 (v % 2 ^ n.toNat) ∧ t.err = 0#4 ∧
      t.reader.unread = rest := by
  have havail : n.toNat ≤ r.reader.avail := by
    rw [← Reader.unread_length, hunread]
    simp
  have henough : (r.issued (.brRead n)).readShort n.toNat = false := readShort_eq_false.mpr havail
  obtain ⟨hlt, hbits⟩ := Reader.readBits_field n.toNat r.reader havail hn
  obtain ⟨-, hrest⟩ := Reader.readBits_spec n.toNat 0 r.reader havail
  rw [hunread, List.take_left' (fieldBits_length _ _), ← fieldBits_mod n.toNat v] at hbits
  have hvalue := fieldBits_inj _ _ _ hlt (Nat.mod_lt _ (Nat.two_pow_pos _)) hbits
  refine ⟨_, completes_of_performed (exec_brRead_performs herr hn henough) ⟨hn, henough, rfl⟩, ?_, herr, ?_⟩
  · rw [← hvalue, State.completeWith_result, BitVec.ofNat_toNat, BitVec.setWidth_eq]
    rfl
  · rw [hunread, List.drop_left' (fieldBits_length _ _)] at hrest
    exact hrest

/-- Reads of the fields' widths, from a reader whose unread bits begin with the fields. -/
theorem runCommands_brRead (fields : List (BitVec 8 × Word)) (rest : List Bool) {r : State} (herr : r.err = 0#4)
    (hwidth : ∀ f ∈ fields, f.1.toNat ≤ 32)
    (hunread : r.reader.unread = (fields.flatMap fun f => fieldBits f.1.toNat f.2.toNat) ++ rest) :
    ∃ r', runCommands (fields.map fun f => Instr.brRead f.1) r =
      some (fields.map (fun f => BitVec.ofNat 32 (f.2.toNat % 2 ^ f.1.toNat)), r') := by
  induction fields generalizing r with
  | nil => exact ⟨r, rfl⟩
  | cons f fs ih =>
    rw [List.flatMap_cons, List.append_assoc] at hunread
    obtain ⟨t, hcompletes, hresult, herr', hunread'⟩ := brRead_completes herr (hwidth f List.mem_cons_self) hunread
    obtain ⟨r', hrun⟩ := ih herr' (fun g hg => hwidth g (List.mem_cons_of_mem _ hg)) hunread'
    refine ⟨r', ?_⟩
    rw [List.map_cons, runCommands_cons hcompletes, hrun, hresult]
    rfl

/-- Settles O52: the writes leave the fields in the stream, the flush makes bytes of it, and reads take the fields off its front. -/
theorem fieldsWrittenAreReadBack : Obligations.FieldsWrittenAreReadBack := by
  unfold Obligations.FieldsWrittenAreReadBack
  intro fields s hwidth herr hempty
  refine ⟨fun hcap => ?_, fun results s' r hrun hrerr hbytes hpos => ?_⟩
  · refine runCommands_isSome (p := fun s => s.err = 0#4 ∧ s.cfg.outCap = none) ?_ ⟨herr, hcap⟩
    intro i hi u ⟨huerr, hucap⟩
    rw [List.mem_append, List.mem_map, List.mem_singleton] at hi
    obtain ⟨f, hf, rfl⟩ | rfl := hi
    · exact bwWrite_completes huerr hucap (hwidth f hf)
    · exact bwFlush_completes huerr hucap
  · obtain ⟨rs, u, hwrites, rs', hflush⟩ := runCommands_append hrun
    have hbits : ∀ i ∈ fields.map fun f => Instr.bwWrite f.1 f.2, writesBits i := by
      intro i hi
      obtain ⟨f, -, rfl⟩ := List.mem_map.mp hi
      trivial
    obtain ⟨hok, hstream⟩ := runCommands_stream hbits hwrites (by rw [hempty]; exact Nat.one_pos)
    obtain ⟨t, rs'', hcompletes, hend, -⟩ := runCommands_cons_eq_some hflush
    cases hend
    obtain ⟨zeros, hout⟩ := bwFlush_bytes hcompletes hok
    refine runCommands_brRead fields zeros hrerr hwidth ?_
    rw [Reader.unread, hbytes, hpos, hout, hstream, hempty, List.flatMap_map]
    rfl

/-! ## The symbol-stream law (42_huffman.md rule R184) -/

theorem htEnc_completes {t : BitVec 8} {k : BitVec 16} {s : State} (herr : s.err = 0#4) (hcap : s.cfg.outCap = none)
    (hfind : (s.lookup t k).isSome = true) :
    ∃ u, Completes (.htEnc t k) s u ∧ u.err = 0#4 ∧ u.cfg = s.cfg ∧ u.tables = s.tables := by
  obtain ⟨⟨l, c⟩, hlc⟩ := Option.isSome_iff_exists.mp hfind
  have hroom := writeHolds_of_unbounded (s := s.issued (.htEnc t k)) hcap l.toNat
  exact ⟨_, completes_of_performed (exec_htEnc_performs herr hlc hroom) ⟨l, c, hlc, hroom, rfl⟩, herr, rfl, rfl⟩

/-- A lookup depends on the configuration and the tables alone. -/
theorem lookup_congr {s u : State} (hcfg : u.cfg = s.cfg) (htables : u.tables = s.tables) (t : BitVec 8) (k : BitVec 16) :
    u.lookup t k = s.lookup t k := by
  simp only [State.lookup, hcfg, htables]

/-- The length array of the table a selector names: the first `SIZE` lengths of a loadable one, or `FIXED_LEN`. -/
def lensOf (s : State) (t : BitVec 8) : List Nat :=
  match loadable t with
  | some i => s.tables[i].lens s.tables[i].size.toNat
  | none => s.cfg.fixedLens

theorem lensOf_loadable {s : State} {t : BitVec 8} {i : Fin 6} (ht : loadable t = some i) :
    lensOf s t = s.tables[i].lens s.tables[i].size.toNat := by
  rw [lensOf, ht]

theorem lensOf_fixed {s : State} {t : BitVec 8} (ht : loadable t = none) : lensOf s t = s.cfg.fixedLens := by
  rw [lensOf, ht]

/-- What a lookup finds in a loadable table is the canonical code of the table's lengths (10_state.md rule R40(d)). -/
theorem HuffTable.Ok.lookup {T : HuffTable} (hT : T.Ok) {k : BitVec 16} {l : BitVec 5} {c : BitVec 20}
    (hfind : T.lookup k = some (l, c)) :
    admissible (T.lens T.size.toNat) = true ∧ k.toNat < (T.lens T.size.toNat).length ∧
    fieldBits l.toNat c.toNat = codeBits (T.lens T.size.toNat) k.toNat := by
  obtain ⟨hk, -, rfl, rfl⟩ := lookup_eq_some.mp hfind
  have hvalid : T.size ≠ 0#9 := by
    intro hzero
    simp [hzero] at hk
  have hlen : (T.lens T.size.toNat).getD k.toNat 0 = (T.len.read k.toNat).toNat := by
    rw [List.getD_eq_getElem?_getD, lens_getElem?, if_pos hk, Option.getD_some]
  have hcode : (canonical (T.lens T.size.toNat)).getD k.toNat 0 = (T.code.read k.toNat).toNat := by
    rw [List.getD_eq_getElem?_getD, hT.codes hvalid k.toNat hk, Option.getD_some]
  exact ⟨hT.valid hvalid, by rwa [lens_length], by rw [codeBits, hlen, hcode]⟩

/-- So it is in a legal block's fixed table (42_huffman.md rule R179). -/
theorem fixedLookup_codeBits {c : Config} (hlegal : c.legal = true) {k : BitVec 16} {l : BitVec 5} {code : BitVec 20}
    (hfind : fixedLookup c k = some (l, code)) :
    admissible c.fixedLens = true ∧ k.toNat < c.fixedLens.length ∧
    fieldBits l.toNat code.toNat = codeBits c.fixedLens k.toNat := by
  have hadm := (legal_iff.mp hlegal).2.2.2
  by_cases hk : k.toNat < c.fixedLen.length
  · have hlt : k.toNat < c.fixedLens.length := by simpa [Config.fixedLens] using hk
    rw [fixedLookup_of_length (List.getElem?_eq_getElem hk), Option.some.injEq, Prod.mk.injEq] at hfind
    obtain ⟨rfl, rfl⟩ := hfind
    have hlen : c.fixedLens.getD k.toNat 0 = c.fixedLen[k.toNat].toNat := by
      rw [List.getD_eq_getElem _ _ hlt]
      simp [Config.fixedLens]
    have hfits : c.fixedCodes.getD k.toNat 0 < 2 ^ 20 :=
      (codesFitTheirLengths c.fixedLens k.toNat hadm hlt).trans_le
        (Nat.pow_le_pow_right (by decide) (lengths_of_admissible hadm _ hlt).2)
    exact ⟨hadm, hlt, by rw [codeBits, hlen, BitVec.toNat_ofNat, Nat.mod_eq_of_lt hfits]; rfl⟩
  · rw [fixedLookup_of_length_le (Nat.not_lt.mp hk)] at hfind
    cases hfind

/-- In a state with the invariant HT.ENC writes the symbol's canonical code in its table's length array. -/
theorem bitsWritten_htEnc {s : State} (hinv : s.Inv) (hlegal : s.cfg.legal = true) {t : BitVec 8} {k : BitVec 16}
    (hfind : (s.lookup t k).isSome = true) :
    admissible (lensOf s t) = true ∧ k.toNat < (lensOf s t).length ∧
    bitsWritten s (.htEnc t k) = codeBits (lensOf s t) k.toNat := by
  obtain ⟨⟨l, c⟩, hlc⟩ := Option.isSome_iff_exists.mp hfind
  simp only [bitsWritten, hlc]
  cases ht : loadable t with
  | some i =>
    rw [lensOf_loadable ht]
    rw [State.lookup_loadable (loadable_eq_some.mp ht)] at hlc
    exact (hinv.tablesOk i).lookup hlc
  | none =>
    rw [lensOf_fixed ht]
    simp only [State.lookup, ht] at hlc
    split at hlc
    · exact fixedLookup_codeBits hlegal hlc
    · cases hlc

/-- Two symbols of one table of which the bits of one begin those of the other are the same (rule R175(b)). -/
theorem symbol_eq_of_prefix {s : State} (hinv : s.Inv) (hlegal : s.cfg.legal = true) {t : BitVec 8} {k k' : BitVec 16}
    (hfind : (s.lookup t k).isSome = true) (hfind' : (s.lookup t k').isSome = true)
    (hprefix : bitsWritten s (.htEnc t k) <+: bitsWritten s (.htEnc t k')) : k = k' := by
  obtain ⟨hadm, hk, hbits⟩ := bitsWritten_htEnc hinv hlegal hfind
  obtain ⟨-, hk', hbits'⟩ := bitsWritten_htEnc hinv hlegal hfind'
  by_contra hne
  rw [hbits, hbits'] at hprefix
  exact codesArePrefixFree (lensOf s t) k.toNat k'.toNat hadm hk hk' (fun h => hne (BitVec.eq_of_toNat_eq h)) hprefix

/-- The bits of a sequence of symbols of known tables determine it: of two first symbols one's bits begin the other's. -/
theorem symbols_eq_of_bits_eq {s : State} (hinv : s.Inv) (hlegal : s.cfg.legal = true)
    (xs ys : List (BitVec 8 × BitVec 16)) (hfind : ∀ p ∈ xs ++ ys, (s.lookup p.1 p.2).isSome = true)
    (htables : xs.map Prod.fst = ys.map Prod.fst)
    (hbits : (xs.flatMap fun p => bitsWritten s (.htEnc p.1 p.2)) = ys.flatMap fun p => bitsWritten s (.htEnc p.1 p.2)) :
    xs = ys := by
  induction xs generalizing ys with
  | nil => exact (List.map_eq_nil_iff.mp htables.symm).symm
  | cons x xs ih =>
    obtain ⟨t, k⟩ := x
    cases ys with
    | nil => cases htables
    | cons y ys =>
      obtain ⟨t', k'⟩ := y
      rw [List.map_cons, List.map_cons, List.cons.injEq] at htables
      obtain ⟨rfl, htables⟩ := htables
      simp only [List.cons_append, List.forall_mem_cons, List.forall_mem_append] at hfind
      obtain ⟨hx, hxs, hy, hys⟩ := hfind
      rw [List.flatMap_cons, List.flatMap_cons] at hbits
      have hsame : k = k' := by
        obtain hprefix | hprefix := List.prefix_or_prefix_of_prefix (List.prefix_append _ _) (hbits ▸ List.prefix_append _ _)
        · exact (symbol_eq_of_prefix hinv hlegal hy hx hprefix).symm
        · exact symbol_eq_of_prefix hinv hlegal hx hy hprefix
      subst hsame
      rw [ih ys (List.forall_mem_append.mpr ⟨hxs, hys⟩) htables (List.append_cancel_left hbits)]

/-- Settles O53: the run appends each symbol's bits (`runCommands_stream`), and no code of a table begins another
(`symbol_eq_of_prefix`). -/
theorem symbolStreamsConcatenateAndSplit : Obligations.SymbolStreamsConcatenateAndSplit := by
  unfold Obligations.SymbolStreamsConcatenateAndSplit
  refine ⟨fun syms s herr hok hfind => ⟨fun hcap => ?_, fun results s' hrun => ?_⟩,
    fun xs ys s hinv hlegal hfind htables hbits => symbols_eq_of_bits_eq hinv hlegal xs ys hfind htables hbits⟩
  · refine runCommands_isSome (p := fun u => u.err = 0#4 ∧ u.cfg = s.cfg ∧ u.tables = s.tables) ?_ ⟨herr, rfl, rfl⟩
    intro i hi u ⟨huerr, hucfg, hutables⟩
    obtain ⟨q, hq, rfl⟩ := List.mem_map.mp hi
    have hfind' : (u.lookup q.1 q.2).isSome = true := lookup_congr hucfg hutables q.1 q.2 ▸ hfind q hq
    obtain ⟨v, hcompletes, hverr, hvcfg, hvtables⟩ := htEnc_completes huerr (hucfg ▸ hcap) hfind'
    exact ⟨v, hcompletes, hverr, hvcfg.trans hucfg, hvtables.trans hutables⟩
  · have hwrites : ∀ i ∈ syms.map fun p => Instr.htEnc p.1 p.2, writesBits i := by
      intro i hi
      obtain ⟨p, -, rfl⟩ := List.mem_map.mp hi
      trivial
    obtain ⟨-, hstream⟩ := runCommands_stream hwrites hrun hok
    rw [hstream, List.flatMap_map]

end Sys2Proof.Machine
end

section
/-! PROOFS. The pseudo-commands (30_encoding.md rule R89): what the assembler makes of a line whose operands fit their fields. -/

namespace Sys2Proof

/-! ## Lines whose operands fit (rule R88) -/

theorem asmField_of_lt {width v : Nat} (h : v < 2 ^ width) : asmField width v = some (BitVec.ofNat width v) := if_pos h

theorem asmField_toNat {width : Nat} (v : BitVec width) : asmField width v.toNat = some v := by
  rw [asmField_of_lt v.isLt, BitVec.ofNat_toNat, BitVec.setWidth_eq]

theorem asmWrite_of_lt {n v : Nat} (hn : n < 2 ^ 8) (hv : v < 2 ^ 32) (hfits : v < 2 ^ n) :
    asmWrite n v = some (.bwWrite (BitVec.ofNat 8 n) (BitVec.ofNat 32 v)) := by
  rw [asmWrite, if_pos hfits, asmField_of_lt hn, asmField_of_lt hv]
  rfl

theorem asmCrcByte_toNat (b : Byte) : asmCrcByte b.toNat = some (.crcByte b) := by
  rw [asmCrcByte, asmField_toNat]
  rfl

theorem asmSetlen_toNat (t l : BitVec 8) {s : Nat} (hs : s < 2 ^ 16) :
    asmSetlen t.toNat s l.toNat = some (.htSetlen t (BitVec.ofNat 16 s) l) := by
  rw [asmSetlen, asmField_toNat, asmField_of_lt hs, asmField_toNat]
  rfl

theorem asmBuild_toNat (t : BitVec 8) {k : Nat} (hk : k < 2 ^ 16) :
    asmBuild t.toNat k = some (.htBuild t (BitVec.ofNat 16 k)) := by
  rw [asmBuild, asmField_toNat, asmField_of_lt hk]
  rfl

/-! ## The expansions (rule R89) -/

theorem asmWide_of_range {n : Nat} (hmin : 33 ≤ n) (hmax : n ≤ 64) : asmWide n = true := by
  simp [asmWide, hmin, hmax]

/-- BW.WRITEW: the bits above the low 32, then the low 32. -/
theorem assemble_bwWritew {n v : Nat} (hmin : 33 ≤ n) (hmax : n ≤ 64) (hv : v < 2 ^ n) :
    assemble (.bwWritew n v) =
      some [.bwWrite (BitVec.ofNat 8 (n - 32)) (BitVec.ofNat 32 (v / 2 ^ 32)), .bwWrite 32 (BitVec.ofNat 32 v)] := by
  have hhigh : v / 2 ^ 32 < 2 ^ (n - 32) := by
    rw [Nat.div_lt_iff_lt_mul (Nat.two_pow_pos _), ← Nat.pow_add, Nat.sub_add_cancel (by omega)]
    exact hv
  have hhigh32 : v / 2 ^ 32 < 2 ^ 32 := hhigh.trans_le (Nat.pow_le_pow_right (by decide) (by omega))
  have hlow : v % 2 ^ 32 < 2 ^ 32 := Nat.mod_lt _ (Nat.two_pow_pos _)
  have hsame : BitVec.ofNat 32 (v % 2 ^ 32) = BitVec.ofNat 32 v := BitVec.eq_of_toNat_eq (by simp)
  rw [assemble, if_pos (asmWide_of_range hmin hmax), asmWrite_of_lt (by omega) hhigh32 hhigh,
    asmWrite_of_lt (by decide) hlow hlow, hsame]
  rfl

theorem assemble_brReadw {n : Nat} (hmin : 33 ≤ n) (hmax : n ≤ 64) :
    assemble (.brReadw n) = some [.brRead (BitVec.ofNat 8 (n - 32)), .brRead 32] := by
  rw [assemble, if_pos (asmWide_of_range hmin hmax), asmField_of_lt (by omega), asmField_of_lt (by decide)]
  rfl

theorem asmCrcBytes_map (bs : List Byte) : asmCrcBytes (bs.map BitVec.toNat) = some (bs.map .crcByte) := by
  induction bs with
  | nil => rfl
  | cons b bs ih =>
    rw [List.map_cons, asmCrcBytes, asmCrcByte_toNat, ih]
    rfl

/-- HT.LOAD's HT.SETLEN lines number the symbols from `s` on. -/
theorem asmSetlens_map (t : BitVec 8) (ls : List (BitVec 8)) (s : Nat) (h : s + ls.length ≤ 2 ^ 16) :
    asmSetlens t.toNat s (ls.map BitVec.toNat) =
      some ((ls.zipIdx s).map fun p => .htSetlen t (BitVec.ofNat 16 p.2) p.1) := by
  induction ls generalizing s with
  | nil => rfl
  | cons l ls ih =>
    rw [List.length_cons] at h
    rw [List.map_cons, asmSetlens, asmSetlen_toNat t l (by omega), ih (s + 1) (by omega)]
    rfl

theorem assemble_htLoad (t : BitVec 8) (ls : List (BitVec 8)) (h : ls.length < 2 ^ 16) :
    assemble (.htLoad t.toNat (ls.map BitVec.toNat)) =
      some (ls.zipIdx.map (fun p => Instr.htSetlen t (BitVec.ofNat 16 p.2) p.1) ++
        [.htBuild t (BitVec.ofNat 16 ls.length)]) := by
  rw [assemble, asmSetlens_map t ls 0 (by omega), List.length_map, asmBuild_toNat t h]
  rfl

/-- Settles O6: three rows are one BW.WRITE by definition, and the others have their expansions above. -/
theorem pseudoCommandsExpandAsTheTableShows : Obligations.PseudoCommandsExpandAsTheTableShows := by
  unfold Obligations.PseudoCommandsExpandAsTheTableShows
  exact ⟨fun _ => rfl, fun _ => rfl, fun _ hn => if_pos hn, fun _ _ => assemble_bwWritew, fun _ => assemble_brReadw,
    asmCrcBytes_map, assemble_htLoad⟩

end Sys2Proof
end
